-- ==== Sys2Proof/Word.lean ====
section
/-! DEFINITION. The words of the block: bytes, 4-bit fields, 7-bit bus addresses and 64-bit results
(00_scope R10, R11; every integer of the block is unsigned, R12). -/

namespace Sys2Proof

/-- A byte; bit 0 is the least significant (00_scope R11). -/
abbrev Byte := BitVec 8

/-- A 4-bit field of CMD: OPSEL or LEN (10_state R25). -/
abbrev Nibble := BitVec 4

/-- A bus device address (20_memory R50). -/
abbrev BusAddr := BitVec 7

/-- RES and SERIAL (10_state R32, R33). -/
abbrev Word64 := BitVec 64

end Sys2Proof
end

