-- ==== Sys2Proof/Syntax.lean ====
section
/-! DEFINITION. The instructions: one constructor per row of spec/opcode_table.json, and the formats
their words come in (30_encoding R70 to R72, R80 to R82). -/

namespace Sys2Proof

/-- The direction of a host action (30_encoding R82). -/
inductive Dir where
  | write
  | read
  deriving DecidableEq, Repr

/-- The table's formats: the CMD byte (R80), a one-byte and a two-byte wire command (R70, R71), and a
host action in one of the two directions (R82). -/
inductive Format where
  | cmd
  | w1
  | w2
  | host (d : Dir)
  deriving DecidableEq, Repr

/-- The rows of spec/opcode_table.json. `len` is CMD[7:4] (30_encoding R80). -/
inductive Instr where
  | crc8 (len : Nibble)
  | verify (len : Nibble)
  | pack (len : Nibble)
  | measT (len : Nibble)
  | measRh (len : Nibble)
  | sreset (len : Nibble)
  | readId (len : Nibble)
  | reservedOpsel0 (len : Nibble)
  | reservedOpsel8To15 (sel : Nibble) (len : Nibble)
  | wireMeasureT
  | wireMeasureRh
  | wireReset
  | wireIdA
  | wireIdB
  | hw (off : Byte) (v : Byte)
  | hr (off : Byte)
  deriving DecidableEq, Repr

end Sys2Proof
end

