-- ==== Sys2Proof/WellFormed.lean ====
section
/-! DEFINITION. Which instructions are well formed. The fields' types give every bound but one: the
row RESERVED_OPSEL_8_15 holds a selector from 8 to 15 (30_encoding R81, R83). -/

namespace Sys2Proof

/-- The check on an instruction's fields. -/
def Instr.wellFormed : Instr → Bool
  | .crc8 _ => true
  | .verify _ => true
  | .pack _ => true
  | .measT _ => true
  | .measRh _ => true
  | .sreset _ => true
  | .readId _ => true
  | .reservedOpsel0 _ => true
  | .reservedOpsel8To15 sel _ => decide (8 ≤ sel.toNat)
  | .wireMeasureT => true
  | .wireMeasureRh => true
  | .wireReset => true
  | .wireIdA => true
  | .wireIdB => true
  | .hw _ _ => true
  | .hr _ => true

end Sys2Proof
end

