-- ==== Sys2Proof/Decode.lean ====
section
/-! DEFINITION. Decoding: from a format and its bytes to an instruction, total, rejecting by name; then
the encoder; then the reading of a word numbered as spec/opcode_table.json numbers it. -/

namespace Sys2Proof

/-- Why bytes are no instruction of their format. -/
inductive DecodeError where
  /-- The format has another number of bytes (30_encoding R85). -/
  | wrongLength
  /-- A wire command that 30_encoding R72 does not list (R73: the block emits no other). -/
  | unknownWireCommand
  deriving DecidableEq, Repr

/-- The CMD byte, every one of them: OPSEL in bits 3:0, LEN in bits 7:4 (30_encoding R80, R81). -/
def decodeCmd (b : Byte) : Instr :=
  let len := b.extractLsb' 4 4
  match (b.extractLsb' 0 4).toNat with
  | 0 => .reservedOpsel0 len
  | 1 => .crc8 len
  | 2 => .verify len
  | 3 => .pack len
  | 4 => .measT len
  | 5 => .measRh len
  | 6 => .sreset len
  | 7 => .readId len
  | _ => .reservedOpsel8To15 (b.extractLsb' 0 4) len

/-- A one-byte wire command (30_encoding R70, R72). -/
def decodeW1 (b : Byte) : Except DecodeError Instr :=
  if b = 0xF3 then .ok .wireMeasureT
  else if b = 0xF5 then .ok .wireMeasureRh
  else if b = 0xFE then .ok .wireReset
  else .error .unknownWireCommand

/-- A two-byte wire command, in send order (30_encoding R71, R72). -/
def decodeW2 (hi lo : Byte) : Except DecodeError Instr :=
  if hi = 0xFA ∧ lo = 0x0F then .ok .wireIdA
  else if hi = 0xFC ∧ lo = 0xC9 then .ok .wireIdB
  else .error .unknownWireCommand

/-- The decoder: total on any bytes of any format. A host action's direction is its format; its bytes
are the offset and, for a write, the data (30_encoding R82). -/
def decode : Format → List Byte → Except DecodeError Instr
  | .cmd, [b] => .ok (decodeCmd b)
  | .w1, [b] => decodeW1 b
  | .w2, [hi, lo] => decodeW2 hi lo
  | .host .write, [off, v] => .ok (.hw off v)
  | .host .read, [off] => .ok (.hr off)
  | _, _ => .error .wrongLength

/-- The number of bytes of a format (30_encoding R70, R71, R82, R85). -/
def Format.width : Format → Nat
  | .cmd => 1
  | .w1 => 1
  | .w2 => 2
  | .host .write => 2
  | .host .read => 1

/-- A CMD byte from its fields: LEN in bits 7:4, OPSEL in bits 3:0 (30_encoding R80). -/
def cmdWord (len opsel : Nibble) : Byte := len ++ opsel

/-- The encoder, from the tables of 30_encoding R72, R81, R82. -/
def encode : Instr → Format × List Byte
  | .crc8 len => (.cmd, [cmdWord len 1])
  | .verify len => (.cmd, [cmdWord len 2])
  | .pack len => (.cmd, [cmdWord len 3])
  | .measT len => (.cmd, [cmdWord len 4])
  | .measRh len => (.cmd, [cmdWord len 5])
  | .sreset len => (.cmd, [cmdWord len 6])
  | .readId len => (.cmd, [cmdWord len 7])
  | .reservedOpsel0 len => (.cmd, [cmdWord len 0])
  | .reservedOpsel8To15 sel len => (.cmd, [cmdWord len sel])
  | .wireMeasureT => (.w1, [0xF3])
  | .wireMeasureRh => (.w1, [0xF5])
  | .wireReset => (.w1, [0xFE])
  | .wireIdA => (.w2, [0xFA, 0x0F])
  | .wireIdB => (.w2, [0xFC, 0xC9])
  | .hw off v => (.host .write, [off, v])
  | .hr off => (.host .read, [off])

/-- The format and bytes of a word numbered as the opcode table numbers it (log 12).
Eight bits: a wire command where the byte is one of the three, else a CMD byte.
Sixteen bits: below 0x100 a host read of that offset, else a two-byte wire command, high byte first.
Twenty-four bits: a host write, offset in bits 15:8 and data in bits 7:0. -/
def layoutTableWord (nbits w : Nat) : Option (Format × List Byte) :=
  if nbits = 8 then
    if w = 0xF3 ∨ w = 0xF5 ∨ w = 0xFE then some (.w1, [BitVec.ofNat 8 w])
    else if w < 0x100 then some (.cmd, [BitVec.ofNat 8 w])
    else none
  else if nbits = 16 then
    if w < 0x100 then some (.host .read, [BitVec.ofNat 8 w])
    else some (.w2, [BitVec.ofNat 8 (w / 0x100), BitVec.ofNat 8 w])
  else if nbits = 24 then
    if w < 0x10000 then some (.host .write, [BitVec.ofNat 8 (w / 0x100), BitVec.ofNat 8 w])
    else none
  else none

/-- The instruction the decoder reads from a word of the opcode table. -/
def decodeTableWord (nbits w : Nat) : Option Instr :=
  match layoutTableWord nbits w with
  | some (f, bs) =>
    match decode f bs with
    | .ok i => some i
    | .error _ => none
  | none => none

end Sys2Proof
end

