-- ==== Sys2Proof/Config.lean ====
section
/-! DEFINITION. What an implementation fixes (00_scope R10) and the free values: constants with no body,
so that no proof can know them. -/

namespace Sys2Proof

/-- What TRANSPORT does with one call (00_scope R14, 20_memory R52). -/
inductive Answer where
  /-- It never answers: the call blocks for ever (60_exceptions R216). -/
  | noAnswer
  /-- It answers TransportError (60_exceptions R211). -/
  | transportError
  /-- It answers ok; a read of n bytes receives the first n bytes of `data`. No call reads more than
  8 bytes (20_memory R58), so an answer of another length than asked for cannot be written down
  (20_memory R53; log 3). -/
  | ok (data : Vector Byte 8)
  deriving DecidableEq, Repr, Inhabited

/-- The host's floating-point evaluation of the three conversion functions, each a total function
(42_unit R145). A result stands for the rational number that the float denotes (log 13). -/
structure HostFloat where
  rawToCelsius : Nat → Rat
  celsiusToFahrenheit : Rat → Rat
  rawToRelativeHumidity : Nat → Rat
  deriving Inhabited

/-- CFG_ADDR's default (00_scope R10, 20_memory R60; log 14). -/
def Config.defaultAddr : BusAddr := 0x40

/-- FREE VALUE: the answer of the transport's n-th draw (20_memory R52; log 2). -/
opaque Config.transport : Nat → Answer

/-- FREE VALUE: the n-th byte that the hardware returns for a read of a field with no value
(10_state R21; log 5). -/
opaque Config.unspecByte : Nat → Byte

/-- FREE VALUE: HostFloat of 00_scope R10, open (42_unit R145; log 13). -/
opaque Config.hostFloat : HostFloat

end Sys2Proof
end

