-- ==== Sys2Proof/Machine/State.lean ====
section
/-! DEFINITION. The state of the machine: every field of 10_state for each handle, the model's marks,
and what the outside does next; the reasons a step can stop; the state after block reset. -/

namespace Sys2Proof.Machine

/-- The sequencer's phases (10_state R31). -/
inductive Phase where
  | idle
  | wr1
  | dly1
  | rd1
  | wr2
  | dly2
  | rd2
  | eval
  deriving DecidableEq, Repr

/-- The error codes that STATUS.ERR can hold (60_exceptions R210). -/
inductive ErrCode where
  | noError
  | transportError
  | checksumError
  | illegalOp
  | illegalOperand
  deriving DecidableEq, Repr

/-- The device models (10_state R28). -/
inductive Model where
  | engineeringSample
  | modelA
  | modelB
  | modelC
  | unknown
  deriving DecidableEq, Repr

/-- The outcome of a MemWrite recorded in HIST (10_state R38). -/
inductive WriteOutcome where
  | ok
  | transportError
  deriving DecidableEq, Repr

/-- The outcome of a MemRead recorded in HIST (10_state R38). -/
inductive ReadOutcome where
  | ok (bytes : List Byte)
  | transportError
  deriving DecidableEq, Repr

/-- An event of HIST (10_state R38): EvWrite, EvRead, EvDelay. -/
inductive BusEvent where
  | write (addr : BusAddr) (payload : List Byte) (outcome : WriteOutcome)
  | read (addr : BusAddr) (count : Nat) (outcome : ReadOutcome)
  | delay (ms : Nat)
  deriving DecidableEq, Repr

/-- The model faults that set FAULTED (60_exceptions R222). -/
inductive ModelFault where
  | readNoValue
  | operandNoValue
  deriving DecidableEq, Repr

/-- What the outside does next, one entry a step (log 1, log 8). -/
inductive Stim where
  /-- HOST acts: the direction and the bytes of a host action (30_encoding R82). -/
  | act (d : Dir) (bytes : List Byte)
  /-- HOST waits until BUSY = 0 (30_encoding R86). -/
  | waitIdle
  /-- The sequencer of the addressed handle takes its step (44_session R183). -/
  | turn
  /-- Block reset of the addressed handle (70_reset R240). -/
  | blockReset (cfgAddr : BusAddr)
  /-- Another handle is built on the same transport (60_exceptions R228, 70_reset R240). -/
  | build (cfgAddr : BusAddr)
  /-- Another handle becomes the addressed one. -/
  | select (k : Nat)
  deriving DecidableEq, Repr

/-- One handle of the block: the architectural state of 10_state, field by field. A field of type
Option that holds `none` has *no value* (10_state R21; log 4). -/
structure Dev where
  /-- CUROP (R35) -/
  curop : Nibble
  /-- LEN_L (R35) -/
  lenL : Nibble
  /-- STATUS.BUSY (R26) -/
  busy : Bool
  /-- STATUS.DONE (R26) -/
  done : Bool
  /-- STATUS.RES_VALID (R26) -/
  resValid : Bool
  /-- STATUS.CRC_OK (R26) -/
  crcOk : Bool
  /-- STATUS.ID_VALID (R26) -/
  idValid : Bool
  /-- STATUS.ERR (R26) -/
  err : ErrCode
  /-- ADDR (R27) -/
  addr : BusAddr
  /-- MODEL (R28) -/
  model : Option Model
  /-- CRC_OBS (R29) -/
  crcObs : Byte
  /-- CRC_EXP (R29) -/
  crcExp : Byte
  /-- SEQ.PHASE (R31) -/
  phase : Phase
  /-- OPB[0..7] (R30) -/
  opb : Vector (Option Byte) 8
  /-- RES (R32) -/
  res : Option Word64
  /-- SERIAL (R33) -/
  serial : Option Word64
  /-- RSP_A[0..7] (R36) -/
  rspA : Vector (Option Byte) 8
  /-- RSP_B[0..5] (R36) -/
  rspB : Vector (Option Byte) 6
  /-- HIST, oldest first (R38) -/
  hist : List BusEvent
  deriving DecidableEq, Repr

/-- The machine: the handle addressed, the other handles on the same transport, the model's marks, and
what the outside does next. -/
structure State where
  /-- The handle that host actions and turns act on. -/
  dev : Dev
  /-- The other handles that share the transport (20_memory R64). -/
  others : List Dev
  /-- FAULTED (10_state R39) -/
  faulted : Bool
  /-- REFUSED (10_state R39) -/
  refused : Bool
  /-- The model's own record of the faults marked, oldest first (60_exceptions R222; log 6). -/
  faultNames : List ModelFault
  /-- What the outside does next, first entry first (log 1). -/
  inbox : List Stim
  /-- The answers the transport will give next, first entry first (log 2). -/
  answers : List Answer
  /-- The index of the transport's next free draw, used when `answers` is empty (log 2). -/
  draws : Nat
  /-- The bytes HOST has read, oldest first, each with its offset (log 7). -/
  reads : List (Byte × Byte)
  /-- The index of the next unspecified byte (log 5). -/
  frees : Nat
  /-- The model's own count of the steps given out to every handle in turn (70_reset R252; log 19). -/
  rotor : Nat
  deriving DecidableEq, Repr

/-- Why the machine stops with a fault. -/
inductive Fault where
  /-- Raised by a meaning run in a phase that 44_session R181 does not give its operation ("No other
  transition exists"): no BLOCK step is enabled there. Safe: the machine stops, and only in states that
  no run reaches (log 9). -/
  | noTransition
  /-- Raised by an EVAL phase that would read a response byte or SERIAL while it has no value (00_scope
  R13: a model faults). Safe: the machine stops, and only in states that no run reaches (log 9). -/
  | fieldNoValue
  deriving DecidableEq, Repr

/-- Why the model gives no meaning. -/
inductive Refusal where
  /-- Raised by an arm of `exec` whose instruction has no meaning yet. Safe: the machine stops. -/
  | notModelled (mnemonic : String)
  /-- Raised by a step whose next host action's bytes are no host action: HOST has exactly two
  (30_encoding R82). Safe: the machine stops (log 11). -/
  | malformedAction
  deriving DecidableEq, Repr

/-- The outcome of one step of this machine. -/
abbrev Result := Host.Outcome State Fault Refusal

/-- A handle right after block reset with the given CFG_ADDR (10_state R45, 70_reset R240). -/
def Dev.reset (cfgAddr : BusAddr) : Dev :=
  { curop := 0, lenL := 0, busy := false, done := false, resValid := false, crcOk := false,
    idValid := false, err := .noError, addr := cfgAddr, model := none, crcObs := 0, crcExp := 0,
    phase := .idle, opb := Vector.replicate 8 none, res := none, serial := none,
    rspA := Vector.replicate 8 none, rspB := Vector.replicate 6 none, hist := [] }

/-- The machine right after the block reset of its first handle, at the default address; nothing has
been marked, read or asked for yet (10_state R45; logs 1, 2, 5 to 8, 14, 19). -/
def State.reset : State :=
  { dev := Dev.reset Config.defaultAddr, others := [], faulted := false, refused := false,
    faultNames := [], inbox := [], answers := [], draws := 0, reads := [], frees := 0, rotor := 0 }

end Sys2Proof.Machine
end

