-- ==== Sys2Proof/Machine/Flags.lean ====
section
/-! DEFINITION. The checksum (40_crc) and the views of the flags: STATUS, SEQ and CMD as HOST reads them
(10_state R25, R26, R31). -/

namespace Sys2Proof.Machine

/-- One bit step on the 8-bit accumulator (40_crc R101, the masked form). -/
def crcBit (c : Byte) : Byte :=
  if c.getLsbD 7 then (c <<< 1) ^^^ 0x31 else c <<< 1

/-- `n` bit steps. -/
def crcBits : Nat → Byte → Byte
  | 0, c => c
  | n + 1, c => crcBits n (crcBit c)

/-- One byte step (40_crc R102). -/
def crcByte (c b : Byte) : Byte := crcBits 8 (c ^^^ b)

/-- The checksum of a two-byte payload (40_crc R103). -/
def crc8 (d0 d1 : Byte) : Byte := crcByte (crcByte 0x00 d0) d1

/-- The verify contract (40_crc R104). -/
def verify (d0 d1 r : Byte) : Bool := crc8 d0 d1 == r

/-- One bit step of an implementation with an accumulator of `width` bits, that XORs with `poly` and masks
to 8 bits before the XOR (`early`), after it (`late`), at both places or at neither (40_crc R105). The
document's own algorithm is the one with `poly` 0x131 (40_crc R100). -/
def wideBit (width poly : Nat) (early late : Bool) (acc : Nat) : Nat :=
  let shifted := if early then (acc <<< 1) % 2 ^ 8 else acc <<< 1
  let next := if acc.testBit 7 then shifted ^^^ poly else shifted
  if late then next % 2 ^ 8 else next % 2 ^ width

/-- `n` bit steps of such an implementation. -/
def wideBits (width poly : Nat) (early late : Bool) : Nat → Nat → Nat
  | 0, acc => acc
  | n + 1, acc => wideBits width poly early late n (wideBit width poly early late acc)

/-- The accumulator of such an implementation after both bytes, before the final mask (40_crc R100, R105). -/
def wideCrc (width poly : Nat) (early late : Bool) (d0 d1 : Byte) : Nat :=
  wideBits width poly early late 8 (wideBits width poly early late 8 (0 ^^^ d0.toNat) ^^^ d1.toNat)

/-- PHASE as SEQ[2:0] shows it (10_state R31). -/
def Phase.code : Phase → BitVec 3
  | .idle => 0
  | .wr1 => 1
  | .dly1 => 2
  | .rd1 => 3
  | .wr2 => 4
  | .dly2 => 5
  | .rd2 => 6
  | .eval => 7

/-- ERR as STATUS[7:5] shows it (60_exceptions R210). -/
def ErrCode.code : ErrCode → BitVec 3
  | .noError => 0
  | .transportError => 1
  | .checksumError => 2
  | .illegalOp => 3
  | .illegalOperand => 4

/-- MODEL[2:0] (10_state R28). -/
def Model.code : Model → BitVec 3
  | .engineeringSample => 0
  | .modelA => 1
  | .modelB => 2
  | .modelC => 3
  | .unknown => 4

/-- STATUS as HOST reads it (10_state R26). -/
def Dev.statusByte (d : Dev) : Byte :=
  d.err.code ++ BitVec.ofBool d.idValid ++ BitVec.ofBool d.crcOk ++ BitVec.ofBool d.resValid
    ++ BitVec.ofBool d.done ++ BitVec.ofBool d.busy

/-- SEQ as HOST reads it (10_state R31). -/
def Dev.seqByte (d : Dev) : Byte := d.curop ++ (0 : BitVec 1) ++ d.phase.code

/-- CMD as HOST reads it: `x[LEN_L] << 4 | x[CUROP]` (10_state R25). -/
def Dev.cmdByte (d : Dev) : Byte := d.lenL ++ d.curop

end Sys2Proof.Machine
end

