-- ==== Sys2Proof/Machine/Operands.lean ====
section
/-! DEFINITION. The bit packer (41_packer), the operands it is applied to, and what READ_ID makes of its
responses (43_identity R165, R166). -/

namespace Sys2Proof.Machine

/-- The bit packer on a byte sequence, first byte most significant (41_packer R120, the fold). The spec
defines it for 1 to 8 bytes and leaves the empty sequence open (93 U1). DESIGN CHOICE, safe (log 18): this
total function gives 0 for no byte and goes on above 8; no machine step uses it there. -/
def pack (bs : List Byte) : Nat := bs.foldl (fun v b => (v <<< 8) ||| b.toNat) 0

/-- All the values of a list of fields, where each has one (10_state R21). -/
def allSome {α : Type} : List (Option α) → Option (List α)
  | [] => some []
  | none :: _ => none
  | some x :: r => (allSome r).map (x :: ·)

/-- The operand bytes OPB[0..n-1], where each has a value (10_state R30). -/
def Dev.operands (d : Dev) (n : Nat) : Option (List Byte) := allSome (d.opb.toList.take n)

/-- A response buffer with `bs` written from index `k` on; the other bytes stay as they were (10_state R36). -/
def storeBytes {n : Nat} (v : Vector (Option Byte) n) : Nat → List Byte → Vector (Option Byte) n
  | _, [] => v
  | k, b :: bs => storeBytes (v.setIfInBounds k (some b)) (k + 1) bs

/-- Byte `i` of a response. Responses A and B have 8 and 6 bytes, so none is missing where it is used;
a missing one reads as 0 (DESIGN CHOICE, safe: log 18). -/
def rspByte (r : List Byte) (i : Nat) : Byte := r.getD i 0

/-- The serial from responses A and B (43_identity R165). -/
def serialOf (a b : List Byte) : Word64 :=
  BitVec.ofNat 64 (pack [rspByte a 0, rspByte a 2, rspByte a 4, rspByte a 6,
    rspByte b 0, rspByte b 1, rspByte b 3, rspByte b 4])

/-- The model map (43_identity R166). -/
def modelOf (s : Byte) : Model :=
  if s = 0x00 ∨ s = 0xFF then .engineeringSample
  else if s = 0x0D then .modelA
  else if s = 0x14 then .modelB
  else if s = 0x15 then .modelC
  else .unknown

end Sys2Proof.Machine
end

