-- ==== Sys2Proof/Machine/Ops.lean ====
section
/-! DEFINITION. The operations that the instructions share: marks, transport calls, the settle delay,
ending an operation (the block's only exception entry) and starting one (which is also how an error is
left behind), the sequencer's first phase, block reset. -/

namespace Sys2Proof.Machine

/-! ## Updates -/

/-- `s` with its addressed handle changed by `f`. -/
def State.onDev (s : State) (f : Dev → Dev) : State := { s with dev := f s.dev }

/-- `seq <- p` (00_scope R13). -/
def Dev.goto (d : Dev) (p : Phase) : Dev := { d with phase := p }

/-- One event appended to HIST (10_state R38). -/
def Dev.record (d : Dev) (e : BusEvent) : Dev := { d with hist := d.hist ++ [e] }

/-- A refusal marked: REFUSED set, no effect on the block (60_exceptions R221). -/
def State.markRefused (s : State) : State := { s with refused := true }

/-- A model fault marked: FAULTED set (60_exceptions R222). -/
def State.markFault (s : State) (f : ModelFault) : State :=
  { s with faulted := true, faultNames := s.faultNames ++ [f] }

/-! ## Ending and starting an operation -/

/-- `finish(e)`: ends every operation; `raise E` is `finish(E)` after the info fields are written
(60_exceptions R214). -/
def Dev.finish (d : Dev) (e : ErrCode) : Dev :=
  { d with
    err := e
    resValid := if e = .noError then d.resValid else false
    res := if e = .noError then d.res else none
    crcOk := if e = .noError then d.crcOk else false
    done := true
    busy := false
    phase := .idle }

/-- The first phase of an operation (44_session R181). -/
def firstPhase (op : Nibble) (idValid : Bool) : Phase :=
  if op = 4 ∨ op = 5 ∨ op = 6 then .wr1
  else if op = 7 then (if idValid then .eval else .wr1)
  else .eval

/-- The assignments of operation start for the CMD byte `v` (44_session R182). -/
def Dev.begin (d : Dev) (v : Byte) : Dev :=
  { d with
    curop := v.extractLsb' 0 4
    lenL := v.extractLsb' 4 4
    done := false
    err := .noError
    resValid := false
    res := none
    crcOk := false
    crcObs := 0x00
    crcExp := 0x00
    rspA := Vector.replicate 8 none
    rspB := Vector.replicate 6 none
    busy := true
    phase := firstPhase (v.extractLsb' 0 4) d.idValid }

/-- The handle is in a WR, DLY or RD phase (60_exceptions R221). -/
def Dev.midTransfer (d : Dev) : Bool :=
  match d.phase with
  | .idle => false
  | .eval => false
  | _ => true

/-- Starting the operation of CMD byte `v` would start a bus operation while another handle on the
transport is mid-transfer (20_memory R64). The operations that touch the bus are those whose first
phase is WR1 (44_session R181). -/
def State.busConflict (s : State) (v : Byte) : Bool :=
  firstPhase (v.extractLsb' 0 4) s.dev.idValid == .wr1 && s.others.any Dev.midTransfer

/-- A host write of `v` to CMD (44_session R182; refused as 60_exceptions R221 items 1 and 3 say). -/
def startOp (v : Byte) (s : State) : Result :=
  if s.dev.busy || s.busConflict v then .next s.markRefused
  else .next (s.onDev fun d => d.begin v)

/-! ## The transport and the timer -/

/-- What the transport does with the outstanding call (20_memory R52; log 2). -/
def State.nextAnswer (s : State) : Answer :=
  match s.answers with
  | a :: _ => a
  | [] => Config.transport s.draws

/-- The outstanding call's answer used up. -/
def State.popAnswer (s : State) : State :=
  match s.answers with
  | _ :: rest => { s with answers := rest }
  | [] => { s with draws := s.draws + 1 }

/-- `MemWrite(x[ADDR][6:0], n, payload)`, then `seq <- p`. A TransportError ends the operation; a call
that never answers leaves everything as it is (00_scope R14, 44_session R183, 60_exceptions R211, R216). -/
def memWrite (payload : List Byte) (p : Phase) (s : State) : State :=
  match s.nextAnswer with
  | .noAnswer => s
  | .transportError =>
    s.popAnswer.onDev fun d => (d.record (.write d.addr payload .transportError)).finish .transportError
  | .ok _ => s.popAnswer.onDev fun d => (d.record (.write d.addr payload .ok)).goto p

/-- `MemRead(x[ADDR][6:0], n)`, its bytes put away by `store`, then `seq <- p`; otherwise as `memWrite`. -/
def memRead (n : Nat) (store : Dev → List Byte → Dev) (p : Phase) (s : State) : State :=
  match s.nextAnswer with
  | .noAnswer => s
  | .transportError =>
    s.popAnswer.onDev fun d => (d.record (.read d.addr n .transportError)).finish .transportError
  | .ok data =>
    s.popAnswer.onDev fun d =>
      (store (d.record (.read d.addr n (.ok (data.toList.take n)))) (data.toList.take n)).goto p

/-- RSP_A takes the bytes of a response (10_state R36). -/
def Dev.storeA (d : Dev) (bs : List Byte) : Dev := { d with rspA := storeBytes d.rspA 0 bs }

/-- RSP_B takes the bytes of a response (10_state R36). -/
def Dev.storeB (d : Dev) (bs : List Byte) : Dev := { d with rspB := storeBytes d.rspB 0 bs }

/-- `Delay(ms)`, then `seq <- p`: one TIMER step, order only (70_reset R245; log 10). -/
def settle (ms : Nat) (p : Phase) (s : State) : State :=
  s.onDev fun d => (d.record (.delay ms)).goto p

/-- T_SETTLE_MEAS in ms (00_scope R10). -/
def settleMeas : Nat := 25

/-- T_SETTLE_ID in ms (00_scope R10). -/
def settleId : Nat := 25

/-- T_SETTLE_RESET in ms (00_scope R10). -/
def settleReset : Nat := 50

/-! ## The shape of the meanings -/

/-- A CMD row: from IDLE its start (44_session R182), in another phase its BLOCK step (R183; log 16). -/
def operation (opsel len : Nibble) (block : State → Result) (s : State) : Result :=
  if s.dev.phase = .idle then startOp (cmdWord len opsel) s else block s

/-- An operation whose only phase is EVAL (44_session R181). -/
def evalOnly (body : State → Result) (s : State) : Result :=
  if s.dev.phase = .eval then body s else .fault .noTransition

/-- A wire command: the MemWrite of phase `here`, then `seq <- p` (44_session R185, R188; 43_identity
R162, R163). -/
def wireCommand (here : Phase) (payload : List Byte) (p : Phase) (s : State) : Result :=
  if s.dev.phase = here then .next (memWrite payload p s) else .fault .noTransition

/-! ## Block reset, other handles -/

/-- A transport call of the handle is outstanding. -/
def Dev.callOutstanding (d : Dev) : Bool :=
  match d.phase with
  | .wr1 => true
  | .rd1 => true
  | .wr2 => true
  | .rd2 => true
  | _ => false

/-- Block reset of the addressed handle: every field at its reset value, no finish; the answer of an
abandoned call is discarded (70_reset R240; log 15). FAULTED and REFUSED stay (60_exceptions R223). -/
def blockReset (cfgAddr : BusAddr) (s : State) : State :=
  (if s.dev.callOutstanding then s.popAnswer else s).onDev fun _ => Dev.reset cfgAddr

/-- One more handle on the transport, in its reset state (60_exceptions R228). -/
def build (cfgAddr : BusAddr) (s : State) : State := { s with others := s.others ++ [Dev.reset cfgAddr] }

/-- The `k`-th other handle becomes the addressed one; nothing where there is none. -/
def select (k : Nat) (s : State) : State :=
  match s.others[k]? with
  | some d => { s with dev := d, others := s.others.set k s.dev }
  | none => s

/-- Every other handle is in IDLE. -/
abbrev State.othersIdle (s : State) : Prop := ∀ d ∈ s.others, d.phase = .idle

end Sys2Proof.Machine
end

