-- ==== Sys2Proof/Machine/Checksum.lean ====
section
/-! DEFINITION. The CRC-8 validator's operations: CRC8 and VERIFY (40_crc R107, R108). -/

namespace Sys2Proof.Machine

/-- CRC8's EVAL phase (40_crc R107). -/
def crc8Eval (s : State) : Result :=
  match s.dev.opb[0], s.dev.opb[1] with
  | some d0, some d1 =>
    .next (s.onDev fun d =>
      { d with
        res := some ((crc8 d0 d1).setWidth 64)
        crcExp := crc8 d0 d1
        resValid := true }.finish .noError)
  | _, _ => .next (s.markFault .operandNoValue)

/-- CRC8 (40_crc R107). -/
def execCrc8 (len : Nibble) (s : State) : Result := operation 1 len (evalOnly crc8Eval) s

/-- VERIFY's EVAL phase: a mismatch is a result, not an error (40_crc R108). -/
def verifyEval (s : State) : Result :=
  match s.dev.opb[0], s.dev.opb[1], s.dev.opb[2] with
  | some d0, some d1, some r =>
    .next (s.onDev fun d =>
      { d with
        crcObs := r
        crcExp := crc8 d0 d1
        res := some ((crc8 d0 d1).setWidth 64)
        resValid := true
        crcOk := verify d0 d1 r }.finish .noError)
  | _, _, _ => .next (s.markFault .operandNoValue)

/-- VERIFY (40_crc R108). -/
def execVerify (len : Nibble) (s : State) : Result := operation 2 len (evalOnly verifyEval) s

end Sys2Proof.Machine
end

