-- ==== Sys2Proof/Machine/HostAccess.lean ====
section
/-! DEFINITION. HOST's two actions, HW and HR, over the 256-byte register map (30_encoding R82; 10_state
R24 to R34). -/

namespace Sys2Proof.Machine

/-- Byte `k` of a 64-bit field, counted from the most significant (10_state R24, 20_memory R54). -/
def byteOf (v : Word64) (k : Nat) : Byte := v.extractLsb' (8 * (7 - k)) 8

/-- What HOST sees at an offset: `none` where the field has no value (10_state R21, R24 to R34). -/
def peek (d : Dev) (off : Byte) : Option Byte :=
  let o := off.toNat
  if o = 0x00 then some d.cmdByte
  else if o = 0x01 then some d.statusByte
  else if o = 0x02 then some (d.addr.setWidth 8)
  else if o = 0x03 then (if d.idValid then d.model.map (fun m => m.code.setWidth 8) else none)
  else if o = 0x04 then some d.crcObs
  else if o = 0x05 then some d.crcExp
  else if o = 0x06 then some d.seqByte
  else if o = 0x07 then some 0x00
  else if o < 0x10 then (d.opb[o - 0x08]?).join
  else if o < 0x18 then (if d.resValid then d.res.map (byteOf · (o - 0x10)) else none)
  else if o < 0x20 then (if d.idValid then d.serial.map (byteOf · (o - 0x18)) else none)
  else some 0x00

/-- HR: HOST receives the byte. Where the field has no value it receives an unspecified byte, a free
value, and FAULTED is set (10_state R21, 60_exceptions R222; log 5). -/
def execHr (off : Byte) (s : State) : Result :=
  match peek s.dev off with
  | some b => .next { s with reads := s.reads ++ [(off, b)] }
  | none =>
    .next { s.markFault .readNoValue with
      reads := s.reads ++ [(off, Config.unspecByte s.frees)]
      frees := s.frees + 1 }

/-- A host write of an operand byte (10_state R30; refused while BUSY, 60_exceptions R221). -/
def writeOperand (i : Nat) (v : Byte) (s : State) : Result :=
  if s.dev.busy then .next s.markRefused
  else .next (s.onDev fun d => { d with opb := d.opb.setIfInBounds i (some v) })

/-- HW: CMD starts an operation, OPB stores, every other offset ignores the write (10_state R24 to R34). -/
def execHw (off v : Byte) (s : State) : Result :=
  if off.toNat = 0x00 then startOp v s
  else if 0x08 ≤ off.toNat ∧ off.toNat < 0x10 then writeOperand (off.toNat - 0x08) v s
  else .next s

end Sys2Proof.Machine
end

