-- ==== Sys2Proof/Machine/Wire.lean ====
section
/-! DEFINITION. The five wire commands: each is the MemWrite of the one phase that emits it (30_encoding
R72; 44_session R185, R188; 43_identity R162, R163). -/

namespace Sys2Proof.Machine

/-- `F3`, phase WR1 of MEAS_T (44_session R185). -/
def execWireMeasureT (s : State) : Result := wireCommand .wr1 [0xF3] .dly1 s

/-- `F5`, phase WR1 of MEAS_RH (44_session R185). -/
def execWireMeasureRh (s : State) : Result := wireCommand .wr1 [0xF5] .dly1 s

/-- `FE`, phase WR1 of SRESET (44_session R188). -/
def execWireReset (s : State) : Result := wireCommand .wr1 [0xFE] .dly1 s

/-- `FA 0F`, phase WR1 of READ_ID (43_identity R162). -/
def execWireIdA (s : State) : Result := wireCommand .wr1 [0xFA, 0x0F] .dly1 s

/-- `FC C9`, phase WR2 of READ_ID (43_identity R163). -/
def execWireIdB (s : State) : Result := wireCommand .wr2 [0xFC, 0xC9] .dly2 s

end Sys2Proof.Machine
end

