-- ==== Sys2Proof/Machine/Identity.lean ====
section
/-! DEFINITION. The device identity resolver: READ_ID, phase by phase (43_identity R161 to R168). -/

namespace Sys2Proof.Machine

/-- READ_ID's EVAL phase: the cache is written once, then RES is SERIAL (43_identity R164). -/
def readIdEval (s : State) : Result :=
  if s.dev.idValid then
    match s.dev.serial with
    | some v => .next (s.onDev fun d => { d with res := some v, resValid := true }.finish .noError)
    | none => .fault .fieldNoValue
  else
    match allSome s.dev.rspA.toList, allSome s.dev.rspB.toList with
    | some a, some b =>
      .next (s.onDev fun d =>
        { d with
          serial := some (serialOf a b)
          model := some (modelOf (rspByte b 0))
          idValid := true
          res := some (serialOf a b)
          resValid := true }.finish .noError)
    | _, _ => .fault .fieldNoValue

/-- READ_ID's phases (43_identity R162 to R164). -/
def readIdBlock (s : State) : Result :=
  match s.dev.phase with
  | .wr1 => execWireIdA s
  | .dly1 => .next (settle settleId .rd1 s)
  | .rd1 => .next (memRead 8 Dev.storeA .wr2 s)
  | .wr2 => execWireIdB s
  | .dly2 => .next (settle settleId .rd2 s)
  | .rd2 => .next (memRead 6 Dev.storeB .eval s)
  | .eval => readIdEval s
  | .idle => .fault .noTransition

/-- READ_ID (43_identity R161). -/
def execReadId (len : Nibble) (s : State) : Result := operation 7 len readIdBlock s

end Sys2Proof.Machine
end

