-- ==== Sys2Proof/Machine/Packer.lean ====
section
/-! DEFINITION. The bit packer's operation: PACK (41_packer R123, R124). -/

namespace Sys2Proof.Machine

/-- PACK's EVAL phase: the length check comes before the operand reads (41_packer R123, R124). -/
def packEval (s : State) : Result :=
  if s.dev.lenL.toNat = 0 ∨ 8 < s.dev.lenL.toNat then
    .next (s.onDev fun d => d.finish .illegalOperand)
  else
    match s.dev.operands s.dev.lenL.toNat with
    | some bs =>
      .next (s.onDev fun d =>
        { d with res := some (BitVec.ofNat 64 (pack bs)), resValid := true }.finish .noError)
    | none => .next (s.markFault .operandNoValue)

/-- PACK (41_packer R123). -/
def execPack (len : Nibble) (s : State) : Result := operation 3 len (evalOnly packEval) s

end Sys2Proof.Machine
end

