-- ==== Sys2Proof/Machine/Reserved.lean ====
section
/-! DEFINITION. The reserved selectors: they finish with ILLEGAL_OP (30_encoding R83, 60_exceptions R213). -/

namespace Sys2Proof.Machine

/-- The EVAL phase of a reserved selector (30_encoding R83). -/
def illegalEval (s : State) : Result := .next (s.onDev fun d => d.finish .illegalOp)

/-- OPSEL 0x0 (30_encoding R83). -/
def execReservedOpsel0 (len : Nibble) (s : State) : Result := operation 0 len (evalOnly illegalEval) s

/-- OPSEL 0x8 to 0xF (30_encoding R83). -/
def execReservedOpsel8To15 (sel len : Nibble) (s : State) : Result :=
  operation sel len (evalOnly illegalEval) s

end Sys2Proof.Machine
end

