-- ==== Sys2Proof/Machine/Session.lean ====
section
/-! DEFINITION. The measurement session: MEAS_T, MEAS_RH and SRESET, phase by phase (44_session R185 to
R189). -/

namespace Sys2Proof.Machine

/-- The EVAL phase of both measurements: `hi`, `lo`, `rcv` are RSP_A[0], [1], [2] (44_session R185). -/
def measEval (s : State) : Result :=
  match s.dev.rspA[0], s.dev.rspA[1], s.dev.rspA[2] with
  | some hi, some lo, some rcv =>
    if crc8 hi lo = rcv then
      .next (s.onDev fun d =>
        { d with
          crcObs := rcv
          crcExp := crc8 hi lo
          res := some (BitVec.ofNat 64 (pack [hi, lo]))
          crcOk := true
          resValid := true }.finish .noError)
    else
      .next (s.onDev fun d =>
        { d with crcObs := rcv, crcExp := crc8 hi lo }.finish .checksumError)
  | _, _, _ => .fault .fieldNoValue

/-- The phases that both measurements share; `wire` emits the command (44_session R185). -/
def measurement (wire : State → Result) (s : State) : Result :=
  match s.dev.phase with
  | .wr1 => wire s
  | .dly1 => .next (settle settleMeas .rd1 s)
  | .rd1 => .next (memRead 3 Dev.storeA .eval s)
  | .eval => measEval s
  | _ => .fault .noTransition

/-- MEAS_T (44_session R186). -/
def execMeasT (len : Nibble) (s : State) : Result := operation 4 len (measurement execWireMeasureT) s

/-- MEAS_RH (44_session R187). -/
def execMeasRh (len : Nibble) (s : State) : Result := operation 5 len (measurement execWireMeasureRh) s

/-- SRESET's phases; RES_VALID stays 0 (44_session R188). -/
def sresetBlock (s : State) : Result :=
  match s.dev.phase with
  | .wr1 => execWireReset s
  | .dly1 => .next (settle settleReset .eval s)
  | .eval => .next (s.onDev fun d => d.finish .noError)
  | _ => .fault .noTransition

/-- SRESET (44_session R188, R189). -/
def execSreset (len : Nibble) (s : State) : Result := operation 6 len sresetBlock s

end Sys2Proof.Machine
end

