-- ==== Sys2Proof/Machine/Dispatch.lean ====
section
/-! DEFINITION. One arm per constructor of Instr, each one direct call of that instruction's meaning. -/

namespace Sys2Proof.Machine

def exec (i : Instr) (s : State) : Host.Outcome State Fault Refusal :=
  match i with
  | .crc8 len => Sys2Proof.Machine.execCrc8 len s
  | .verify len => Sys2Proof.Machine.execVerify len s
  | .pack len => Sys2Proof.Machine.execPack len s
  | .measT len => Sys2Proof.Machine.execMeasT len s
  | .measRh len => Sys2Proof.Machine.execMeasRh len s
  | .sreset len => Sys2Proof.Machine.execSreset len s
  | .readId len => Sys2Proof.Machine.execReadId len s
  | .reservedOpsel0 len => Sys2Proof.Machine.execReservedOpsel0 len s
  | .reservedOpsel8To15 sel len => Sys2Proof.Machine.execReservedOpsel8To15 sel len s
  | .wireMeasureT => Sys2Proof.Machine.execWireMeasureT s
  | .wireMeasureRh => Sys2Proof.Machine.execWireMeasureRh s
  | .wireReset => Sys2Proof.Machine.execWireReset s
  | .wireIdA => Sys2Proof.Machine.execWireIdA s
  | .wireIdB => Sys2Proof.Machine.execWireIdB s
  | .hw off v => Sys2Proof.Machine.execHw off v s
  | .hr off => Sys2Proof.Machine.execHr off s

end Sys2Proof.Machine
end

