-- ==== Sys2Proof/Machine/Schedule.lean ====
section
/-! DEFINITION. Which agent moves next, and where an instruction is fetched: a host action from the
inbox, an operation from the CMD register of a handle (logs 1, 12, 16, 19). -/

namespace Sys2Proof.Machine

/-- The sequencer's step: the operation latched in CMD (CUROP, LEN_L) executes its current phase
(44_session R183). In IDLE no BLOCK step is enabled and nothing changes. -/
def blockTurn (s : State) : Result :=
  if s.dev.phase = .idle then .next s else exec (decodeCmd s.dev.cmdByte) s

/-- The sequencer's step of the `k`-th other handle, on the transport they share (60_exceptions R228). -/
def otherTurn (k : Nat) (s : State) : Result :=
  match s.others[k]? with
  | none => .next s
  | some d =>
    match blockTurn { s with dev := d, others := s.others.set k s.dev } with
    | .next t => .next { t with dev := s.dev, others := s.others.set k t.dev }
    | .fault f => .fault f
    | .refused r => .refused r

/-- The next handle's step, in turn: the addressed one, then the others in order (log 19). -/
def roundRobin (s : State) : Result :=
  match s.rotor % (s.others.length + 1) with
  | 0 => blockTurn { s with rotor := s.rotor + 1 }
  | k + 1 => otherTurn k { s with rotor := s.rotor + 1 }

/-- A step that the outside leaves to BLOCK and TIMER. Every enabled step of every handle is taken at some
time (70_reset R245, R252): the addressed handle's first, which ends after at most seven; and while its step
leads nowhere, every handle's in turn. DESIGN CHOICE, unsafe for a claim that takes this order of the handles
for the chip's own (log 19). -/
def fairTurn (s : State) : Result :=
  match blockTurn s with
  | .next t => if t.dev.phase ≠ s.dev.phase ∨ s.othersIdle then .next t else roundRobin s
  | .fault f => .fault f
  | .refused r => .refused r

/-- HOST's step: the bytes of its action are decoded and executed (30_encoding R82). -/
def hostTurn (d : Dir) (bytes : List Byte) (s : State) : Result :=
  match decode (.host d) bytes with
  | .ok i => exec i s
  | .error _ => .refused .malformedAction

/-- One step: the first entry of the inbox, or, where there is none, a step of some sequencer. A waiting
HOST (30_encoding R86) lets the sequencers go on until BUSY = 0. -/
def nextStep (s : State) : Result :=
  match s.inbox with
  | [] => fairTurn s
  | .act d bytes :: rest => hostTurn d bytes { s with inbox := rest }
  | .waitIdle :: rest => if s.dev.busy then fairTurn s else .next { s with inbox := rest }
  | .turn :: rest => blockTurn { s with inbox := rest }
  | .blockReset a :: rest => .next (blockReset a { s with inbox := rest })
  | .build a :: rest => .next (build a { s with inbox := rest })
  | .select k :: rest => .next (select k { s with inbox := rest })

/-- The CMD byte of the operation that emits a wire command, and the phase that does (30_encoding R72). -/
def wireSource : Instr → Byte × Phase
  | .wireMeasureT => (0x04, .wr1)
  | .wireMeasureRh => (0x05, .wr1)
  | .wireReset => (0x06, .wr1)
  | .wireIdB => (0x07, .wr2)
  | _ => (0x07, .wr1)

/-- `s` with the instruction of a table word where the next step fetches it (log 12): a host action as
the first entry of the inbox; an operation as the one just started in CMD, with the sequencer's turn
as the first entry; a wire command as the one that the sequencer is about to emit in that turn. -/
def placeWord (s : State) (nbits w : Nat) : State :=
  match layoutTableWord nbits w with
  | some (.host d, bytes) => { s with inbox := .act d bytes :: s.inbox }
  | some (.cmd, [b]) => { s with dev := s.dev.begin b, inbox := .turn :: s.inbox }
  | some (f, bytes) =>
    match decode f bytes with
    | .ok i =>
      { s with
        dev := (s.dev.begin (wireSource i).1).goto (wireSource i).2, inbox := .turn :: s.inbox }
    | .error _ => s
  | none => s

end Sys2Proof.Machine
end

