-- ==== Sys2Proof/Machine/HostSide.lean ====
section
/-! DEFINITION. HOST's side: the unit converter (42_unit), the pseudo-instructions (30_encoding R87) and
the document's three reading functions (42_unit R146 to R148). -/

namespace Sys2Proof.Machine

/-! ## The unit converter, as exact rationals

The formulas go on above the domains that 42_unit gives them (DESIGN CHOICE, safe: log 21). -/

/-- raw_to_celsius: `raw * 175.72 / 65536 - 46.85` (42_unit R141); not clamped (R144). R141's
domain is raw <= 65536; above it the value is the model's choice (log 21). -/
def rawToCelsius (raw : Nat) : Rat := (raw : Rat) * (17572 / 100) / 65536 - 4685 / 100

/-- celsius_to_fahrenheit: `c * 1.8 + 32` (42_unit R142). -/
def celsiusToFahrenheit (c : Rat) : Rat := c * (18 / 10) + 32

/-- raw_to_relative_humidity: `raw * 125 / 65536 - 6` (42_unit R143); not clamped (R144). The
domain is a 16-bit raw, and 65536 in a row of R150; above it the value is the model's choice (log 21). -/
def rawToRelativeHumidity (raw : Nat) : Rat := (raw : Rat) * 125 / 65536 - 6

/-- The exact reference for HostFloat (42_unit R145). -/
def exactFloat : HostFloat :=
  { rawToCelsius := rawToCelsius
    celsiusToFahrenheit := celsiusToFahrenheit
    rawToRelativeHumidity := rawToRelativeHumidity }

/-! ## Listings -/

/-- `HW off, v` as HOST issues it (30_encoding R82, R86). -/
def hostWrite (off v : Byte) : Stim := .act .write [off, v]

/-- `HR off` as HOST issues it. -/
def hostRead (off : Byte) : Stim := .act .read [off]

/-- The pseudo-instruction of a CMD byte: `HW 0x00, v ; WAIT_IDLE` (30_encoding R87). -/
def runCommand (v : Byte) : List Stim := [hostWrite 0x00 v, .waitIdle]

/-- `CRC8 d0, d1` (30_encoding R87). -/
def listCrc8 (d0 d1 : Byte) : List Stim :=
  [hostWrite 0x08 d0, hostWrite 0x09 d1] ++ runCommand 0x01

/-- `VERIFY d0, d1, c` (30_encoding R87). -/
def listVerify (d0 d1 c : Byte) : List Stim :=
  [hostWrite 0x08 d0, hostWrite 0x09 d1, hostWrite 0x0A c] ++ runCommand 0x02

/-- The host writes of operand bytes, from offset `off` on. -/
def writeOperands : Byte → List Byte → List Stim
  | _, [] => []
  | off, b :: bs => hostWrite off b :: writeOperands (off + 1) bs

/-- `PACK b0, ..., b(n-1)` for 1 to 8 bytes (30_encoding R87). For no byte and for more than 8 the spec has
no such pseudo-instruction, and this total function goes on (DESIGN CHOICE, safe: log 20). -/
def listPack (bs : List Byte) : List Stim :=
  writeOperands 0x08 bs ++ runCommand (cmdWord (BitVec.ofNat 4 bs.length) 3)

/-- `MEAS_T` (30_encoding R87). -/
def listMeasT : List Stim := runCommand 0x04

/-- `MEAS_RH` (30_encoding R87). -/
def listMeasRh : List Stim := runCommand 0x05

/-- `SRESET` (30_encoding R87). -/
def listSreset : List Stim := runCommand 0x06

/-- `READ_ID` (30_encoding R87). -/
def listReadId : List Stim := runCommand 0x07

/-- `RD64 base`: eight reads (30_encoding R87). DESIGN CHOICE, safe (log 20): above base 0xF8, where the spec
is silent, `base + i` wraps modulo 256. -/
def listRd64 (base : Byte) : List Stim :=
  [hostRead base, hostRead (base + 1), hostRead (base + 2), hostRead (base + 3), hostRead (base + 4),
    hostRead (base + 5), hostRead (base + 6), hostRead (base + 7)]

/-- The value of RD64, most significant byte first, where every byte has a value (30_encoding R87). Above base
0xF8 the offsets wrap as those of `listRd64` do (DESIGN CHOICE, safe: log 20). -/
def rd64 (d : Dev) (base : Byte) : Option Nat :=
  (allSome [peek d base, peek d (base + 1), peek d (base + 2), peek d (base + 3), peek d (base + 4),
    peek d (base + 5), peek d (base + 6), peek d (base + 7)]).map pack

/-! ## The reading functions -/

/-- How a reading function fails (42_unit R146). -/
inductive ReadingError where
  | transportError
  | checksumError (observed expected : Byte)
  deriving DecidableEq, Repr

/-- What a reading function makes of a handle whose measurement has ended: it converts only where ERR is
NONE (42_unit R146). `none` where the contract has no branch: an ERR that no measurement leaves, or a RES
without a value (DESIGN CHOICE, safe: log 21). -/
def readingOf (convert : Nat → Rat) (d : Dev) : Option (Except ReadingError Rat) :=
  match d.err with
  | .transportError => some (.error .transportError)
  | .checksumError => some (.error (.checksumError d.crcObs d.crcExp))
  | .noError =>
    match peek d 0x16, peek d 0x17 with
    | some hi, some lo => some (.ok (convert (pack [hi, lo])))
    | _, _ => none
  | .illegalOp => none
  | .illegalOperand => none

/-- The listing of read_temperature and read_temperature_fahrenheit up to the reading of STATUS (42_unit
R146, R147). -/
def listReadTemperature : List Stim := listMeasT ++ [hostRead 0x01]

/-- The listing of read_humidity up to the reading of STATUS (42_unit R148). -/
def listReadHumidity : List Stim := listMeasRh ++ [hostRead 0x01]

/-- read_temperature's result after MEAS_T (42_unit R146). -/
def readTemperature (hf : HostFloat) (d : Dev) : Option (Except ReadingError Rat) :=
  readingOf hf.rawToCelsius d

/-- read_temperature_fahrenheit's result after MEAS_T: the same failure, or the value converted (42_unit
R147). -/
def readTemperatureFahrenheit (hf : HostFloat) (d : Dev) : Option (Except ReadingError Rat) :=
  (readTemperature hf d).map fun r => r.map hf.celsiusToFahrenheit

/-- read_humidity's result after MEAS_RH (42_unit R148). -/
def readHumidity (hf : HostFloat) (d : Dev) : Option (Except ReadingError Rat) :=
  readingOf hf.rawToRelativeHumidity d

/-- read_temperature as HOST itself evaluates it, in its own floating point (00_scope R10; log 13). -/
def hostReadTemperature (d : Dev) : Option (Except ReadingError Rat) := readTemperature Config.hostFloat d

/-- read_temperature_fahrenheit as HOST itself evaluates it. -/
def hostReadTemperatureFahrenheit (d : Dev) : Option (Except ReadingError Rat) :=
  readTemperatureFahrenheit Config.hostFloat d

/-- read_humidity as HOST itself evaluates it. -/
def hostReadHumidity (d : Dev) : Option (Except ReadingError Rat) := readHumidity Config.hostFloat d

end Sys2Proof.Machine
end

