-- ==== Sys2Proof/Safety.lean ====
section
/-! DEFINITION. What counts as a sound state and a safe run: the invariants of 10_state R40, with what the
model needs beside them, and the exclusive use of the transport (20_memory R64). -/

namespace Sys2Proof.Machine

/-- The four invariants of 10_state R40, for one handle. -/
structure Dev.StatusSound (d : Dev) : Prop where
  busy_iff : d.busy = true ↔ d.phase ≠ .idle
  err_clears : d.err ≠ .noError → d.resValid = false ∧ d.crcOk = false ∧ d.done = true
  busy_clears : d.busy = true → d.done = false ∧ d.err = .noError ∧ d.resValid = false
  crc_equal : d.crcOk = true → d.crcObs = d.crcExp

/-- The phase is one that 44_session R181 gives the operation CUROP. -/
def Dev.phaseLegal (d : Dev) : Prop :=
  match d.phase with
  | .idle => True
  | .wr1 => firstPhase d.curop d.idValid = .wr1
  | .dly1 => firstPhase d.curop d.idValid = .wr1
  | .rd1 => firstPhase d.curop d.idValid = .wr1 ∧ d.curop ≠ 6
  | .wr2 => d.curop = 7 ∧ d.idValid = false
  | .dly2 => d.curop = 7 ∧ d.idValid = false
  | .rd2 => d.curop = 7 ∧ d.idValid = false
  | .eval => True

/-- The invariant of one handle: R40's four, the validity bits say where a value is, the phase is one of
its operation's, and the response bytes that a coming EVAL reads are there. -/
structure Dev.Sound (d : Dev) : Prop where
  status : d.StatusSound
  busy_crc : d.busy = true → d.crcOk = false
  res_valid : d.resValid = d.res.isSome
  serial_valid : d.idValid = d.serial.isSome
  model_valid : d.idValid = d.model.isSome
  phase_legal : d.phaseLegal
  measured : d.phase = .eval → d.curop = 4 ∨ d.curop = 5 →
    d.rspA[0].isSome = true ∧ d.rspA[1].isSome = true ∧ d.rspA[2].isSome = true
  half_a : d.phase = .wr2 ∨ d.phase = .dly2 ∨ d.phase = .rd2 → ∀ b ∈ d.rspA.toList, b.isSome = true
  halves : d.phase = .eval → d.curop = 7 → d.idValid = false →
    (∀ b ∈ d.rspA.toList, b.isSome = true) ∧ ∀ b ∈ d.rspB.toList, b.isSome = true

/-- Every handle is sound. -/
def State.Sound (s : State) : Prop := s.dev.Sound ∧ ∀ d ∈ s.others, d.Sound

/-- The handles in a WR, DLY or RD phase. -/
def State.transfers (s : State) : List Dev := (s.dev :: s.others).filter Dev.midTransfer

/-- At most one handle uses the transport (20_memory R64, 70_reset R248). -/
def State.BusExclusive (s : State) : Prop := s.transfers.length ≤ 1

/-- Every host action of the inbox is one of HOST's two (30_encoding R82). -/
def State.inboxFormed (s : State) : Prop :=
  ∀ d bytes, Stim.act d bytes ∈ s.inbox → bytes.length = (Format.host d).width

/-- `k` steps of the machine, stopping at the first fault or refusal. -/
def runs (k : Nat) (s : State) : Result := Host.Core.run Sys2Proof.core k s

/-- The operation of this CMD byte touches the bus: MEAS_T, MEAS_RH, SRESET, or READ_ID with nothing
cached (60_exceptions R221 item 3). -/
def Dev.touchesBus (d : Dev) (v : Byte) : Prop :=
  v.extractLsb' 0 4 = 4 ∨ v.extractLsb' 0 4 = 5 ∨ v.extractLsb' 0 4 = 6
    ∨ (v.extractLsb' 0 4 = 7 ∧ d.idValid = false)

/-- No other handle is in a WR, DLY or RD phase. -/
def State.busFree (s : State) : Prop := ∀ d ∈ s.others, d.midTransfer = false

/-- The next step acts on the addressed handle: no block reset of it, and no other handle selected. -/
def State.staysOnDev (s : State) : Prop :=
  (∀ a, s.inbox.head? ≠ some (.blockReset a)) ∧ ∀ k, s.inbox.head? ≠ some (.select k)

/-- The event is one that 20_memory R58 and 44_session R190 give to the operation and phase of the
handle, at the handle's own address (20_memory R51). -/
def Dev.allowsEvent (d : Dev) : BusEvent → Prop
  | .write a payload _ =>
    a = d.addr ∧
      ((d.curop = 4 ∧ d.phase = .wr1 ∧ payload = [0xF3])
        ∨ (d.curop = 5 ∧ d.phase = .wr1 ∧ payload = [0xF5])
        ∨ (d.curop = 6 ∧ d.phase = .wr1 ∧ payload = [0xFE])
        ∨ (d.curop = 7 ∧ d.phase = .wr1 ∧ payload = [0xFA, 0x0F])
        ∨ (d.curop = 7 ∧ d.phase = .wr2 ∧ payload = [0xFC, 0xC9]))
  | .read a count outcome =>
    a = d.addr ∧
      (((d.curop = 4 ∨ d.curop = 5) ∧ d.phase = .rd1 ∧ count = 3)
        ∨ (d.curop = 7 ∧ d.phase = .rd1 ∧ count = 8)
        ∨ (d.curop = 7 ∧ d.phase = .rd2 ∧ count = 6))
      ∧ ∀ bytes, outcome = .ok bytes → bytes.length = count
  | .delay ms =>
    ((d.curop = 4 ∨ d.curop = 5 ∨ d.curop = 7) ∧ d.phase = .dly1 ∧ ms = 25)
      ∨ (d.curop = 6 ∧ d.phase = .dly1 ∧ ms = 50)
      ∨ (d.curop = 7 ∧ d.phase = .dly2 ∧ ms = 25)

/-- The event records a call that failed. -/
def BusEvent.failed : BusEvent → Bool
  | .write _ _ .transportError => true
  | .read _ _ .transportError => true
  | _ => false

/-- The rows that are no host action: operations and wire commands. -/
def isBlockRow : Instr → Bool
  | .hw _ _ => false
  | .hr _ => false
  | _ => true

/-- The rows of the pure operations and of the reserved selectors: no bus traffic (44_session R190). -/
def isPureRow : Instr → Bool
  | .crc8 _ => true
  | .verify _ => true
  | .pack _ => true
  | .reservedOpsel0 _ => true
  | .reservedOpsel8To15 _ _ => true
  | _ => false

/-- The operand bytes that the operation in progress reads have values (60_exceptions R222). -/
def Dev.operandsReady (d : Dev) : Prop :=
  (d.curop = 1 → d.opb[0].isSome = true ∧ d.opb[1].isSome = true)
    ∧ (d.curop = 2 → d.opb[0].isSome = true ∧ d.opb[1].isSome = true ∧ d.opb[2].isSome = true)
    ∧ (d.curop = 3 → 1 ≤ d.lenL.toNat → d.lenL.toNat ≤ 8 → (d.operands d.lenL.toNat).isSome = true)

/-- The addressed handle's sequencer has no step that leads to another phase: nothing is in progress, the
outstanding call never answers (60_exceptions R216), or EVAL meets an operand byte without a value (R222). -/
def State.stalled (s : State) : Prop :=
  s.dev.phase = .idle
    ∨ (s.dev.phase ∈ [Phase.wr1, .rd1, .wr2, .rd2] ∧ s.nextAnswer = .noAnswer)
    ∨ (s.dev.phase = .eval ∧ ¬ s.dev.operandsReady)

/-- HOST and the outside leave the next step to BLOCK: the inbox is empty, or HOST waits (30_encoding R86). -/
def State.leftToBlock (s : State) : Prop :=
  s.inbox = [] ∨ (s.inbox.head? = some .waitIdle ∧ s.dev.busy = true)

/-- The inbox `next` gives the addressed handle `k` steps, and leaves `rest`: as turns asked for, whatever
comes after them; or by leaving the steps to BLOCK, with nothing to do or with HOST waiting (30_encoding R86),
where they are the addressed handle's by the model's order as long as they lead to other phases (log 19). -/
def givesTurns (k : Nat) (next rest : List Stim) : Prop :=
  next = List.replicate k .turn ++ rest
    ∨ (next = rest ∧ (rest = [] ∨ ∃ more, rest = .waitIdle :: more))

/-- The handles of the transport, the addressed one first. -/
def State.handle (s : State) : Nat → Option Dev
  | 0 => some s.dev
  | k + 1 => s.others[k]?

/-- A run's marks are clear: the premise of every claim about the chip (60_exceptions R221, R222). -/
def State.unmarked (s : State) : Bool := !s.faulted && !s.refused

end Sys2Proof.Machine
end

