-- ==== Sys2Proof/Certificates/Slice0/Obligations.lean ====
section
/-! DEFINITION. The statements for the provers, each from the rules of spec/ that its docstring names. -/

open Sys2Proof Sys2Proof.Machine

/-! ## The checksum and the packer -/

/-- 40_crc R105: whatever the accumulator's width, the constant XORed with and the places of the masks (after
the shift, after the XOR, at both, only at the end), the final value masked to 8 bits is CRC8. With width 16,
0x131 and no mask this is the document's algorithm. -/
def Obligations.WideAccumulatorsGiveCrc8 : Prop :=
  ∀ (width poly : Nat) (early late : Bool) (d0 d1 : Byte),
    8 ≤ width → poly = 0x131 ∨ poly = 0x31 →
      wideCrc width poly early late d0 d1 % 2 ^ 8 = (crc8 d0 d1).toNat

/-- 40_crc R106, its six laws: linearity, zero residue, round trip, single-bit sensitivity of the
checksum, detection of one or two flipped bits in the 3-byte frame, table form. -/
def Obligations.CrcLaws : Prop :=
  (∀ a a' b b' : Byte, crc8 (a ^^^ a') (b ^^^ b') = crc8 a b ^^^ crc8 a' b') ∧ crc8 0 0 = 0 ∧
  (∀ d0 d1 : Byte, crcByte (crcByte (crcByte 0 d0) d1) (crc8 d0 d1) = 0) ∧
  (∀ v : BitVec 16, verify (v.extractLsb' 8 8) (v.extractLsb' 0 8)
    (crc8 (v.extractLsb' 8 8) (v.extractLsb' 0 8)) = true) ∧
  (∀ (d0 d1 r : Byte) (k : Nat), k < 8 → verify d0 d1 r = true →
    verify d0 d1 (r ^^^ ((1 : Byte) <<< k)) = false) ∧
  (∀ (d0 d1 : Byte) (e : BitVec 24),
    (∃ i, i < 24 ∧ e = (1 : BitVec 24) <<< i) ∨
      (∃ i j, i < 24 ∧ j < 24 ∧ i ≠ j ∧
        e = ((1 : BitVec 24) <<< i) ^^^ ((1 : BitVec 24) <<< j)) →
      verify (d0 ^^^ e.extractLsb' 16 8) (d1 ^^^ e.extractLsb' 8 8)
        (crc8 d0 d1 ^^^ e.extractLsb' 0 8) = false) ∧
  (∀ d0 d1 : Byte, crc8 d0 d1 = crcByte 0 (crcByte 0 d0 ^^^ d1))

/-- 41_packer R120: `pack` of 1 to 8 bytes is the positional sum, first byte most significant, it fits in
8n bits, and each byte stands at its place. -/
def Obligations.PackIsPositionalSum : Prop :=
  ∀ bs : List Byte, 1 ≤ bs.length → bs.length ≤ 8 →
    pack bs = (Finset.range bs.length).sum
      (fun i => (bs.getD i 0).toNat * 2 ^ (8 * (bs.length - 1 - i))) ∧
    pack bs ≤ 2 ^ (8 * bs.length) - 1 ∧
    ∀ i, i < bs.length → pack bs / 2 ^ (8 * (bs.length - 1 - i)) % 256 = (bs.getD i 0).toNat

/-- 41_packer R122, its six laws, stated of the model's total `pack`: that they hold of the empty sequence
too, which the spec leaves open (R120, 93 U1), is the model's choice (log 18). -/
def Obligations.PackLaws : Prop :=
  (∀ x : Byte, pack [x] = x.toNat) ∧
  (∀ (b : List Byte) (x : Byte), pack (b ++ [x]) = pack b * 256 + x.toNat) ∧
  (∀ n : Nat, (∀ b : List Byte, b.length = n → pack b ≤ 2 ^ (8 * n) - 1) ∧
    (∀ b b' : List Byte, b.length = n → b'.length = n → pack b = pack b' → b = b') ∧
    (∀ v : Nat, v ≤ 2 ^ (8 * n) - 1 → ∃ b : List Byte, b.length = n ∧ pack b = v)) ∧
  (∀ b : List Byte, pack ([0x00] ++ b) = pack b) ∧ (∃ b b' : List Byte, b ≠ b' ∧ pack b = pack b') ∧
  (∀ b : List Byte, b.length ≤ 8 → pack b < 2 ^ 64) ∧
  (∀ v : BitVec 16, pack [v.extractLsb' 8 8, v.extractLsb' 0 8] = v.toNat)

/-- 43_identity R165 and R166: the serial's bytes are the selected response bytes, each at its place,
whatever the other bytes are; the model code follows the selector byte. -/
def Obligations.IdentityOfResponses : Prop :=
  (∀ a b : List Byte, a.length = 8 → b.length = 6 →
    (serialOf a b).toNat = pack [rspByte a 0, rspByte a 2, rspByte a 4, rspByte a 6,
      rspByte b 0, rspByte b 1, rspByte b 3, rspByte b 4] ∧
    (serialOf a b).extractLsb' 56 8 = rspByte a 0 ∧ (serialOf a b).extractLsb' 48 8 = rspByte a 2 ∧
    (serialOf a b).extractLsb' 40 8 = rspByte a 4 ∧ (serialOf a b).extractLsb' 32 8 = rspByte a 6 ∧
    (serialOf a b).extractLsb' 24 8 = rspByte b 0 ∧ (serialOf a b).extractLsb' 16 8 = rspByte b 1 ∧
    (serialOf a b).extractLsb' 8 8 = rspByte b 3 ∧ (serialOf a b).extractLsb' 0 8 = rspByte b 4) ∧
  (∀ s : Byte, (modelOf s).code =
    if s = 0x00 ∨ s = 0xFF then 0 else if s = 0x0D then 1 else if s = 0x14 then 2
    else if s = 0x15 then 3 else 4)

/-! ## Host actions -/

/-- 30_encoding R82, 10_state R21, 60_exceptions R222: a host read hands HOST the byte and changes nothing
else; where the field has no value it hands HOST a free byte (log 5) and marks READ_NO_VALUE. -/
def Obligations.HostReadCompletes : Prop :=
  ∀ (off : Byte) (s : State),
    (∀ b, peek s.dev off = some b →
      exec (.hr off) s = .next { s with reads := s.reads ++ [(off, b)] }) ∧
    (peek s.dev off = none →
      exec (.hr off) s = .next { s with
        faulted := true
        faultNames := s.faultNames ++ [.readNoValue]
        reads := s.reads ++ [(off, Config.unspecByte s.frees)]
        frees := s.frees + 1 })

/-- 10_state R25 to R29 and R31, 60_exceptions R210: the bits of the registers that HOST sees at 0x00 to 0x06,
and the numbers of the error codes and of the phases. -/
def Obligations.HostVisibleFields : Prop :=
  (ErrCode.noError.code = 0 ∧ ErrCode.transportError.code = 1 ∧ ErrCode.checksumError.code = 2 ∧
    ErrCode.illegalOp.code = 3 ∧ ErrCode.illegalOperand.code = 4) ∧
  (Phase.idle.code = 0 ∧ Phase.wr1.code = 1 ∧ Phase.dly1.code = 2 ∧ Phase.rd1.code = 3 ∧
    Phase.wr2.code = 4 ∧ Phase.dly2.code = 5 ∧ Phase.rd2.code = 6 ∧ Phase.eval.code = 7) ∧
  ∀ d : Dev,
    (∃ v, peek d 0x00 = some v ∧ v.extractLsb' 0 4 = d.curop ∧ v.extractLsb' 4 4 = d.lenL) ∧
    (∃ v, peek d 0x01 = some v ∧ v.getLsbD 0 = d.busy ∧ v.getLsbD 1 = d.done ∧
      v.getLsbD 2 = d.resValid ∧ v.getLsbD 3 = d.crcOk ∧ v.getLsbD 4 = d.idValid ∧
      v.extractLsb' 5 3 = d.err.code) ∧
    (∃ v, peek d 0x02 = some v ∧ v.extractLsb' 0 7 = d.addr ∧ v.getLsbD 7 = false) ∧
    (∀ m, d.idValid = true → d.model = some m →
      ∃ v, peek d 0x03 = some v ∧ v.extractLsb' 0 3 = m.code ∧ v.extractLsb' 3 5 = 0) ∧
    peek d 0x04 = some d.crcObs ∧ peek d 0x05 = some d.crcExp ∧
    (∃ v, peek d 0x06 = some v ∧ v.extractLsb' 0 3 = d.phase.code ∧ v.getLsbD 3 = false ∧
      v.extractLsb' 4 4 = d.curop)

/-- 20_memory R54, 30_encoding R87: the eight reads of RES or SERIAL, put together most significant byte
first, are its value. -/
def Obligations.EightReadsGiveTheValue : Prop :=
  ∀ (d : Dev) (v : Word64),
    (d.resValid = true → d.res = some v → rd64 d 0x10 = some v.toNat) ∧
    (d.idValid = true → d.serial = some v → rd64 d 0x18 = some v.toNat)

/-- 60_exceptions R222, 10_state R21: the offsets without a value are exactly RES without RES_VALID, SERIAL
and MODEL without ID_VALID, and operand bytes never written. -/
def Obligations.OffsetsWithoutValue : Prop :=
  ∀ (d : Dev) (off : Byte), d.Sound →
    (peek d off = none ↔
      (0x10 ≤ off.toNat ∧ off.toNat < 0x18 ∧ d.resValid = false) ∨
      ((off.toNat = 0x03 ∨ (0x18 ≤ off.toNat ∧ off.toNat < 0x20)) ∧ d.idValid = false) ∨
      (∃ i : Fin 8, off.toNat = 0x08 + i.val ∧ d.opb[i] = none))

/-- 10_state R30: a host write of an operand byte while BUSY = 0 stores it; every other offset of the
register space reads as before, and nothing else changes. -/
def Obligations.OperandWriteStores : Prop :=
  ∀ (i : Fin 8) (v : Byte) (s : State), s.dev.busy = false →
    ∃ t, exec (.hw (0x08 + BitVec.ofNat 8 i.val) v) s = .next t ∧
      t = { s with dev := { s.dev with opb := t.dev.opb } } ∧
      peek t.dev (0x08 + BitVec.ofNat 8 i.val) = some v ∧
      ∀ off, off ≠ 0x08 + BitVec.ofNat 8 i.val → peek t.dev off = peek s.dev off

/-- 10_state R34: reserved offsets read 0x00, and writes to reserved or read-only offsets change nothing. -/
def Obligations.IgnoredWritesChangeNothing : Prop :=
  ∀ (off v : Byte) (s : State),
    (off.toNat = 0x07 ∨ 0x20 ≤ off.toNat → peek s.dev off = some 0x00 ∧ exec (.hw off v) s = .next s) ∧
    ((1 ≤ off.toNat ∧ off.toNat ≤ 0x06) ∨ (0x10 ≤ off.toNat ∧ off.toNat ≤ 0x1F) →
      exec (.hw off v) s = .next s)

/-- 44_session R182 (first phases: R181): a CMD write while BUSY = 0, with the transport free where the
operation needs it, starts the operation: exactly these fields are written. While BUSY = 1 it is refused. -/
def Obligations.CommandWriteStarts : Prop :=
  ∀ (v : Byte) (s : State),
    (s.dev.busy = false → (s.dev.touchesBus v → s.busFree) →
      ∃ p, ((s.dev.touchesBus v ∧ p = Phase.wr1) ∨ (¬ s.dev.touchesBus v ∧ p = Phase.eval)) ∧
        exec (.hw 0x00 v) s = .next { s with dev := { s.dev with
          curop := v.extractLsb' 0 4
          lenL := v.extractLsb' 4 4
          done := false
          err := .noError
          resValid := false
          res := none
          crcOk := false
          crcObs := 0x00
          crcExp := 0x00
          rspA := Vector.replicate 8 none
          rspB := Vector.replicate 6 none
          busy := true
          phase := p } }) ∧
    (s.dev.busy = true → exec (.hw 0x00 v) s = .next { s with refused := true })

/-- 60_exceptions R221: the three refusals set REFUSED and have no effect on the block. -/
def Obligations.HostWritesRefused : Prop :=
  (∀ (v : Byte) (s : State), s.dev.busy = true →
    exec (.hw 0x00 v) s = .next { s with refused := true }) ∧
  (∀ (off v : Byte) (s : State), s.dev.busy = true → 0x08 ≤ off.toNat → off.toNat < 0x10 →
    exec (.hw off v) s = .next { s with refused := true }) ∧
  (∀ (v : Byte) (s : State) (d : Dev), s.dev.touchesBus v → d ∈ s.others →
    d.phase ∈ [Phase.wr1, .dly1, .rd1, .wr2, .dly2, .rd2] →
      exec (.hw 0x00 v) s = .next { s with refused := true })

/-- 30_encoding R80, R82 (the model's reading of a CMD row in IDLE, log 16): from IDLE, a well-formed
operation does what the host write of its own byte to CMD does. -/
def Obligations.OperationRowsStartFromIdle : Prop :=
  ∀ (i : Instr) (b : Byte) (s : State), i.wellFormed = true → encode i = (.cmd, [b]) →
    s.dev.phase = .idle → exec i s = exec (.hw 0x00 b) s

/-! ## The pure operations -/

/-- 40_crc R107: CRC8 in EVAL. -/
def Obligations.Crc8Evaluates : Prop :=
  ∀ (len : Nibble) (s : State), s.dev.phase = .eval →
    (∀ d0 d1, s.dev.opb[0] = some d0 → s.dev.opb[1] = some d1 →
      exec (.crc8 len) s = .next { s with dev := { s.dev with
        res := some ((crc8 d0 d1).setWidth 64)
        crcExp := crc8 d0 d1
        resValid := true
        err := .noError, done := true, busy := false, phase := .idle } }) ∧
    (s.dev.opb[0] = none ∨ s.dev.opb[1] = none →
      exec (.crc8 len) s = .next { s with
        faulted := true, faultNames := s.faultNames ++ [.operandNoValue] })

/-- 40_crc R108: VERIFY in EVAL; a mismatch is no error. -/
def Obligations.VerifyEvaluates : Prop :=
  ∀ (len : Nibble) (s : State), s.dev.phase = .eval →
    (∀ d0 d1 r, s.dev.opb[0] = some d0 → s.dev.opb[1] = some d1 → s.dev.opb[2] = some r →
      exec (.verify len) s = .next { s with dev := { s.dev with
        crcObs := r
        crcExp := crc8 d0 d1
        res := some ((crc8 d0 d1).setWidth 64)
        resValid := true
        crcOk := decide (crc8 d0 d1 = r)
        err := .noError, done := true, busy := false, phase := .idle } }) ∧
    (s.dev.opb[0] = none ∨ s.dev.opb[1] = none ∨ s.dev.opb[2] = none →
      exec (.verify len) s = .next { s with
        faulted := true, faultNames := s.faultNames ++ [.operandNoValue] })

/-- 41_packer R123, R124: PACK in EVAL. The length is LEN_L and is checked before any operand is read. -/
def Obligations.PackEvaluates : Prop :=
  ∀ (len : Nibble) (s : State), s.dev.phase = .eval →
    (s.dev.lenL.toNat = 0 ∨ 9 ≤ s.dev.lenL.toNat →
      exec (.pack len) s = .next { s with dev := { s.dev with
        resValid := false, res := none, crcOk := false
        err := .illegalOperand, done := true, busy := false, phase := .idle } }) ∧
    (∀ bs : List Byte, 1 ≤ s.dev.lenL.toNat → s.dev.lenL.toNat ≤ 8 →
      s.dev.opb.toList.take s.dev.lenL.toNat = bs.map some →
      exec (.pack len) s = .next { s with dev := { s.dev with
        res := some (BitVec.ofNat 64 (pack bs))
        resValid := true
        err := .noError, done := true, busy := false, phase := .idle } }) ∧
    (1 ≤ s.dev.lenL.toNat → s.dev.lenL.toNat ≤ 8 →
      none ∈ s.dev.opb.toList.take s.dev.lenL.toNat →
      exec (.pack len) s = .next { s with
        faulted := true, faultNames := s.faultNames ++ [.operandNoValue] })

/-- 30_encoding R83, 60_exceptions R213: the reserved selectors, in EVAL and as whole operations started by
a CMD write while BUSY = 0, with the turn given (where it is left to BLOCK: log 19). -/
def Obligations.ReservedSelectorsAreIllegal : Prop :=
  (∀ (i : Instr) (sel len : Nibble) (s : State), s.dev.phase = .eval →
    i = .reservedOpsel0 len ∨ i = .reservedOpsel8To15 sel len →
      exec i s = .next { s with dev := { s.dev with
        resValid := false, res := none, crcOk := false
        err := .illegalOp, done := true, busy := false, phase := .idle } }) ∧
  (∀ (len op : Nibble) (s : State) (next rest : List Stim), givesTurns 1 next rest →
    s.dev.busy = false → op = 0 ∨ 8 ≤ op.toNat →
    runs 2 { s with inbox := hostWrite 0x00 (cmdWord len op) :: next } =
      .next { s with inbox := rest, dev := { s.dev with
        curop := op, lenL := len
        res := none
        crcObs := 0x00, crcExp := 0x00
        resValid := false, crcOk := false, err := .illegalOp, done := true, busy := false
        rspA := Vector.replicate 8 none, rspB := Vector.replicate 6 none
        phase := .idle } })

/-- 40_crc R107: the whole operation CRC8, started by a host write of CMD with OPSEL 1 and any LEN, with the
turn given (where it is left to BLOCK, the handle that moves is log 19's). What an operand byte without a
value does (60_exceptions R222) is as log 6 reads it: FAULTED, the record of its name (the model's own), and
the operation BUSY. -/
def Obligations.Crc8Operation : Prop :=
  ∀ (len : Nibble) (s : State) (next rest : List Stim), givesTurns 1 next rest → s.dev.busy = false →
    (∀ d0 d1, s.dev.opb[0] = some d0 → s.dev.opb[1] = some d1 →
      runs 2 { s with inbox := hostWrite 0x00 (cmdWord len 1) :: next } =
        .next { s with inbox := rest, dev := { s.dev with
          curop := 1, lenL := len
          res := some ((crc8 d0 d1).setWidth 64)
          crcObs := 0x00, crcExp := crc8 d0 d1
          resValid := true, crcOk := false, err := .noError, done := true, busy := false
          rspA := Vector.replicate 8 none, rspB := Vector.replicate 6 none
          phase := .idle } }) ∧
    ((next = rest → s.othersIdle) →
      s.dev.opb[0] = none ∨ s.dev.opb[1] = none → ∃ t,
        runs 2 { s with inbox := hostWrite 0x00 (cmdWord len 1) :: next } = .next t ∧
        t.faulted = true ∧ t.faultNames = s.faultNames ++ [.operandNoValue] ∧ t.dev.busy = true ∧
        t.dev.res = none ∧ t.dev.resValid = false ∧ t.dev.hist = s.dev.hist ∧ t.inbox = rest)

/-- 40_crc R108: the whole operation VERIFY; CRC_OK is `verify`, ERR is NONE either way. The turn is given
(left to BLOCK: log 19). An operand byte without a value (60_exceptions R222) is as log 6 reads it. -/
def Obligations.VerifyOperation : Prop :=
  ∀ (len : Nibble) (s : State) (next rest : List Stim), givesTurns 1 next rest → s.dev.busy = false →
    (∀ d0 d1 r, s.dev.opb[0] = some d0 → s.dev.opb[1] = some d1 → s.dev.opb[2] = some r →
      runs 2 { s with inbox := hostWrite 0x00 (cmdWord len 2) :: next } =
        .next { s with inbox := rest, dev := { s.dev with
          curop := 2, lenL := len
          res := some ((crc8 d0 d1).setWidth 64)
          crcObs := r, crcExp := crc8 d0 d1
          resValid := true, crcOk := verify d0 d1 r, err := .noError, done := true, busy := false
          rspA := Vector.replicate 8 none, rspB := Vector.replicate 6 none
          phase := .idle } }) ∧
    ((next = rest → s.othersIdle) →
      s.dev.opb[0] = none ∨ s.dev.opb[1] = none ∨ s.dev.opb[2] = none → ∃ t,
        runs 2 { s with inbox := hostWrite 0x00 (cmdWord len 2) :: next } = .next t ∧
        t.faulted = true ∧ t.faultNames = s.faultNames ++ [.operandNoValue] ∧ t.dev.busy = true ∧
        t.dev.res = none ∧ t.dev.resValid = false ∧ t.dev.hist = s.dev.hist ∧ t.inbox = rest)

/-- 41_packer R123, R124: the whole operation PACK, with LEN legal and operands written, with an operand
never written (60_exceptions R222, as log 6 reads it), and with LEN 0 or 9 to 15 whatever the operands are.
The turn is given (left to BLOCK: log 19). -/
def Obligations.PackOperation : Prop :=
  ∀ (len : Nibble) (s : State) (next rest : List Stim), givesTurns 1 next rest → s.dev.busy = false →
    (∀ bs : List Byte, 1 ≤ len.toNat → len.toNat ≤ 8 → s.dev.opb.toList.take len.toNat = bs.map some →
      runs 2 { s with inbox := hostWrite 0x00 (cmdWord len 3) :: next } =
        .next { s with inbox := rest, dev := { s.dev with
          curop := 3, lenL := len
          res := some (BitVec.ofNat 64 (pack bs))
          crcObs := 0x00, crcExp := 0x00
          resValid := true, crcOk := false, err := .noError, done := true, busy := false
          rspA := Vector.replicate 8 none, rspB := Vector.replicate 6 none
          phase := .idle } }) ∧
    ((next = rest → s.othersIdle) →
      1 ≤ len.toNat → len.toNat ≤ 8 → none ∈ s.dev.opb.toList.take len.toNat → ∃ t,
        runs 2 { s with inbox := hostWrite 0x00 (cmdWord len 3) :: next } = .next t ∧
        t.faulted = true ∧ t.faultNames = s.faultNames ++ [.operandNoValue] ∧ t.dev.busy = true ∧
        t.dev.res = none ∧ t.dev.resValid = false ∧ t.dev.hist = s.dev.hist ∧ t.inbox = rest) ∧
    (len.toNat = 0 ∨ 9 ≤ len.toNat →
      runs 2 { s with inbox := hostWrite 0x00 (cmdWord len 3) :: next } =
        .next { s with inbox := rest, dev := { s.dev with
          curop := 3, lenL := len
          res := none
          crcObs := 0x00, crcExp := 0x00
          resValid := false, crcOk := false, err := .illegalOperand, done := true, busy := false
          rspA := Vector.replicate 8 none, rspB := Vector.replicate 6 none
          phase := .idle } })

/-! ## Wire commands, delays, reads -/

/-- 44_session R185, R188, 43_identity R162, R163, 60_exceptions R211, R216: each wire command in the phase
that emits it, for the three things the transport can do. -/
def Obligations.WireCommandsComplete : Prop :=
  ∀ (i : Instr) (payload : List Byte) (here after : Phase) (s : State),
    (i = .wireMeasureT ∧ payload = [0xF3] ∧ here = .wr1 ∧ after = .dly1) ∨
    (i = .wireMeasureRh ∧ payload = [0xF5] ∧ here = .wr1 ∧ after = .dly1) ∨
    (i = .wireReset ∧ payload = [0xFE] ∧ here = .wr1 ∧ after = .dly1) ∨
    (i = .wireIdA ∧ payload = [0xFA, 0x0F] ∧ here = .wr1 ∧ after = .dly1) ∨
    (i = .wireIdB ∧ payload = [0xFC, 0xC9] ∧ here = .wr2 ∧ after = .dly2) →
    s.dev.phase = here →
      (∀ data, s.nextAnswer = .ok data →
        exec i s = .next { s.popAnswer with dev := { s.dev with
          hist := s.dev.hist ++ [.write s.dev.addr payload .ok], phase := after } }) ∧
      (s.nextAnswer = .transportError →
        exec i s = .next { s.popAnswer with dev := { s.dev with
          hist := s.dev.hist ++ [.write s.dev.addr payload .transportError]
          resValid := false, res := none, crcOk := false
          err := .transportError, done := true, busy := false, phase := .idle } }) ∧
      (s.nextAnswer = .noAnswer → exec i s = .next s)

/-- 44_session R185, R188, 43_identity R162, R163: the delay phases, with 25, 25 and 50 ms. -/
def Obligations.DelayPhasesComplete : Prop :=
  ∀ (len : Nibble) (i : Instr) (ms : Nat) (here after : Phase) (s : State),
    (i = .measT len ∧ ms = 25 ∧ here = .dly1 ∧ after = .rd1) ∨
    (i = .measRh len ∧ ms = 25 ∧ here = .dly1 ∧ after = .rd1) ∨
    (i = .sreset len ∧ ms = 50 ∧ here = .dly1 ∧ after = .eval) ∨
    (i = .readId len ∧ ms = 25 ∧ here = .dly1 ∧ after = .rd1) ∨
    (i = .readId len ∧ ms = 25 ∧ here = .dly2 ∧ after = .rd2) →
    s.dev.phase = here →
      exec i s = .next { s with dev := { s.dev with
        hist := s.dev.hist ++ [.delay ms], phase := after } }

/-- 44_session R185, 43_identity R162, 60_exceptions R211, R216: the first read, of 3 bytes for the
measurements and of 8 for READ_ID. Of RSP_A exactly the first n bytes are written. -/
def Obligations.FirstReadCompletes : Prop :=
  ∀ (len : Nibble) (i : Instr) (n : Nat) (after : Phase) (s : State),
    ((i = .measT len ∨ i = .measRh len) ∧ n = 3 ∧ after = .eval) ∨
      (i = .readId len ∧ n = 8 ∧ after = .wr2) →
    s.dev.phase = .rd1 →
      (∀ data, s.nextAnswer = .ok data → ∃ buf : Vector (Option Byte) 8,
        (∀ k : Fin 8, buf[k] = if k.val < n then some data[k] else s.dev.rspA[k]) ∧
        exec i s = .next { s.popAnswer with dev := { s.dev with
          hist := s.dev.hist ++ [.read s.dev.addr n (.ok (data.toList.take n))]
          rspA := buf, phase := after } }) ∧
      (s.nextAnswer = .transportError →
        exec i s = .next { s.popAnswer with dev := { s.dev with
          hist := s.dev.hist ++ [.read s.dev.addr n .transportError]
          resValid := false, res := none, crcOk := false
          err := .transportError, done := true, busy := false, phase := .idle } }) ∧
      (s.nextAnswer = .noAnswer → exec i s = .next s)

/-- 43_identity R163, 60_exceptions R211, R216: the second read of READ_ID, of 6 bytes. -/
def Obligations.SecondReadCompletes : Prop :=
  ∀ (len : Nibble) (s : State), s.dev.phase = .rd2 →
    (∀ data, s.nextAnswer = .ok data → ∃ buf : Vector (Option Byte) 6,
      (∀ k : Fin 6, buf[k] = some (data[k.val]'(by omega))) ∧
      exec (.readId len) s = .next { s.popAnswer with dev := { s.dev with
        hist := s.dev.hist ++ [.read s.dev.addr 6 (.ok (data.toList.take 6))]
        rspB := buf, phase := .eval } }) ∧
    (s.nextAnswer = .transportError →
      exec (.readId len) s = .next { s.popAnswer with dev := { s.dev with
        hist := s.dev.hist ++ [.read s.dev.addr 6 .transportError]
        resValid := false, res := none, crcOk := false
        err := .transportError, done := true, busy := false, phase := .idle } }) ∧
    (s.nextAnswer = .noAnswer → exec (.readId len) s = .next s)

/-- 44_session R185: the EVAL phase of both measurements. -/
def Obligations.MeasurementEvaluates : Prop :=
  ∀ (len : Nibble) (i : Instr) (hi lo rcv : Byte) (s : State), i = .measT len ∨ i = .measRh len →
    s.dev.phase = .eval → s.dev.rspA[0] = some hi → s.dev.rspA[1] = some lo →
    s.dev.rspA[2] = some rcv →
      (crc8 hi lo = rcv →
        exec i s = .next { s with dev := { s.dev with
          crcObs := rcv, crcExp := crc8 hi lo
          res := some (BitVec.ofNat 64 (hi.toNat * 256 + lo.toNat))
          crcOk := true, resValid := true
          err := .noError, done := true, busy := false, phase := .idle } }) ∧
      (crc8 hi lo ≠ rcv →
        exec i s = .next { s with dev := { s.dev with
          crcObs := rcv, crcExp := crc8 hi lo
          resValid := false, res := none, crcOk := false
          err := .checksumError, done := true, busy := false, phase := .idle } })

/-- 43_identity R164: the EVAL phase of READ_ID, from the responses and from the cache. -/
def Obligations.ReadIdEvaluates : Prop :=
  ∀ (len : Nibble) (s : State), s.dev.phase = .eval →
    (∀ a b : List Byte, s.dev.idValid = false → s.dev.rspA.toList = a.map some →
      s.dev.rspB.toList = b.map some →
      exec (.readId len) s = .next { s with dev := { s.dev with
        serial := some (serialOf a b)
        model := some (modelOf (rspByte b 0))
        idValid := true
        res := some (serialOf a b)
        resValid := true
        err := .noError, done := true, busy := false, phase := .idle } }) ∧
    (∀ v, s.dev.idValid = true → s.dev.serial = some v →
      exec (.readId len) s = .next { s with dev := { s.dev with
        res := some v
        resValid := true
        err := .noError, done := true, busy := false, phase := .idle } })

/-! ## Whole operations on the bus

The turns that they need are given (`givesTurns`): as turns asked for, in any order with other handles; or
left to BLOCK, and then in the order of log 19. -/

/-- 44_session R185 to R187, R190: a whole measurement whose calls are both answered, with a matching and
with a differing checksum byte. Its four turns are given (left to BLOCK: log 19). -/
def Obligations.MeasurementRuns : Prop :=
  ∀ (len op : Nibble) (code : Byte) (s : State) (w data : Vector Byte 8) (rest : List Answer)
    (next left : List Stim), givesTurns 4 next left →
    (op = 4 ∧ code = 0xF3) ∨ (op = 5 ∧ code = 0xF5) →
    s.dev.busy = false → s.busFree →
      (crc8 data[0] data[1] = data[2] →
        runs 5 { s with
            inbox := hostWrite 0x00 (cmdWord len op) :: next, answers := .ok w :: .ok data :: rest } =
          .next { s with inbox := left, answers := rest, dev := { s.dev with
            curop := op, lenL := len
            res := some (BitVec.ofNat 64 (data[0].toNat * 256 + data[1].toNat))
            crcObs := data[2], crcExp := data[2]
            resValid := true, crcOk := true, err := .noError, done := true, busy := false
            rspA := #v[some data[0], some data[1], some data[2], none, none, none, none, none]
            rspB := Vector.replicate 6 none
            hist := s.dev.hist ++ [.write s.dev.addr [code] .ok, .delay 25,
              .read s.dev.addr 3 (.ok [data[0], data[1], data[2]])]
            phase := .idle } }) ∧
      (crc8 data[0] data[1] ≠ data[2] →
        runs 5 { s with
            inbox := hostWrite 0x00 (cmdWord len op) :: next, answers := .ok w :: .ok data :: rest } =
          .next { s with inbox := left, answers := rest, dev := { s.dev with
            curop := op, lenL := len
            res := none
            crcObs := data[2], crcExp := crc8 data[0] data[1]
            resValid := false, crcOk := false, err := .checksumError, done := true, busy := false
            rspA := #v[some data[0], some data[1], some data[2], none, none, none, none, none]
            rspB := Vector.replicate 6 none
            hist := s.dev.hist ++ [.write s.dev.addr [code] .ok, .delay 25,
              .read s.dev.addr 3 (.ok [data[0], data[1], data[2]])]
            phase := .idle } })

/-- 44_session R186, R187, R190, 60_exceptions R211: a measurement whose write, or whose read, fails.
The turns are given (left to BLOCK: log 19). -/
def Obligations.MeasurementTransportFailures : Prop :=
  ∀ (len op : Nibble) (code : Byte) (s : State) (w : Vector Byte 8) (rest : List Answer)
    (next left : List Stim),
    (op = 4 ∧ code = 0xF3) ∨ (op = 5 ∧ code = 0xF5) →
    s.dev.busy = false → s.busFree →
      (givesTurns 1 next left → runs 2 { s with
          inbox := hostWrite 0x00 (cmdWord len op) :: next, answers := .transportError :: rest } =
        .next { s with inbox := left, answers := rest, dev := { s.dev with
          curop := op, lenL := len
          res := none, crcObs := 0x00, crcExp := 0x00
          resValid := false, crcOk := false, err := .transportError, done := true, busy := false
          rspA := Vector.replicate 8 none, rspB := Vector.replicate 6 none
          hist := s.dev.hist ++ [.write s.dev.addr [code] .transportError]
          phase := .idle } }) ∧
      (givesTurns 3 next left → runs 4 { s with
          inbox := hostWrite 0x00 (cmdWord len op) :: next, answers := .ok w :: .transportError :: rest } =
        .next { s with inbox := left, answers := rest, dev := { s.dev with
          curop := op, lenL := len
          res := none, crcObs := 0x00, crcExp := 0x00
          resValid := false, crcOk := false, err := .transportError, done := true, busy := false
          rspA := Vector.replicate 8 none, rspB := Vector.replicate 6 none
          hist := s.dev.hist ++ [.write s.dev.addr [code] .ok, .delay 25,
            .read s.dev.addr 3 .transportError]
          phase := .idle } })

/-- 44_session R188, R189, R190: SRESET's EVAL phase; a whole SRESET, answered and failing. The identity
cache, ADDR and OPB stay. The turns are given (left to BLOCK: log 19). -/
def Obligations.SresetRuns : Prop :=
  (∀ (len : Nibble) (s : State), s.dev.phase = .eval →
    exec (.sreset len) s = .next { s with dev := { s.dev with
      err := .noError, done := true, busy := false, phase := .idle } }) ∧
  ∀ (len : Nibble) (s : State) (w : Vector Byte 8) (rest : List Answer) (next left : List Stim),
    s.dev.busy = false → s.busFree →
      (givesTurns 3 next left → runs 4 { s with
          inbox := hostWrite 0x00 (cmdWord len 6) :: next, answers := .ok w :: rest } =
        .next { s with inbox := left, answers := rest, dev := { s.dev with
          curop := 6, lenL := len
          res := none, crcObs := 0x00, crcExp := 0x00
          resValid := false, crcOk := false, err := .noError, done := true, busy := false
          rspA := Vector.replicate 8 none, rspB := Vector.replicate 6 none
          hist := s.dev.hist ++ [.write s.dev.addr [0xFE] .ok, .delay 50]
          phase := .idle } }) ∧
      (givesTurns 1 next left → runs 2 { s with
          inbox := hostWrite 0x00 (cmdWord len 6) :: next, answers := .transportError :: rest } =
        .next { s with inbox := left, answers := rest, dev := { s.dev with
          curop := 6, lenL := len
          res := none, crcObs := 0x00, crcExp := 0x00
          resValid := false, crcOk := false, err := .transportError, done := true, busy := false
          rspA := Vector.replicate 8 none, rspB := Vector.replicate 6 none
          hist := s.dev.hist ++ [.write s.dev.addr [0xFE] .transportError]
          phase := .idle } })

/-- 43_identity R161 to R165, R170: a whole resolution whose four calls are all answered. Its seven turns are
given (left to BLOCK: log 19). -/
def Obligations.ReadIdRuns : Prop :=
  ∀ (len : Nibble) (s : State) (w w' da db : Vector Byte 8) (rest : List Answer)
    (next left : List Stim), givesTurns 7 next left →
    s.dev.busy = false → s.dev.idValid = false → s.busFree →
      runs 8 { s with
          inbox := hostWrite 0x00 (cmdWord len 7) :: next
          answers := .ok w :: .ok da :: .ok w' :: .ok db :: rest } =
        .next { s with inbox := left, answers := rest, dev := { s.dev with
          curop := 7, lenL := len
          serial := some (BitVec.ofNat 64
            (pack [da[0], da[2], da[4], da[6], db[0], db[1], db[3], db[4]]))
          model := some (modelOf db[0])
          idValid := true
          res := some (BitVec.ofNat 64
            (pack [da[0], da[2], da[4], da[6], db[0], db[1], db[3], db[4]]))
          crcObs := 0x00, crcExp := 0x00
          resValid := true, crcOk := false, err := .noError, done := true, busy := false
          rspA := #v[some da[0], some da[1], some da[2], some da[3], some da[4], some da[5],
            some da[6], some da[7]]
          rspB := #v[some db[0], some db[1], some db[2], some db[3], some db[4], some db[5]]
          hist := s.dev.hist ++ [.write s.dev.addr [0xFA, 0x0F] .ok, .delay 25,
            .read s.dev.addr 8 (.ok [da[0], da[1], da[2], da[3], da[4], da[5], da[6], da[7]]),
            .write s.dev.addr [0xFC, 0xC9] .ok, .delay 25,
            .read s.dev.addr 6 (.ok [db[0], db[1], db[2], db[3], db[4], db[5]])]
          phase := .idle } }

/-- 43_identity R161, R164, R170, 20_memory R68: READ_ID with the identity cached makes no transport call
and gives the cached serial. Its turn is given (left to BLOCK: log 19). -/
def Obligations.CachedReadIdRuns : Prop :=
  ∀ (len : Nibble) (v : Word64) (s : State) (next left : List Stim), givesTurns 1 next left →
    s.dev.busy = false → s.dev.idValid = true → s.dev.serial = some v →
      runs 2 { s with inbox := hostWrite 0x00 (cmdWord len 7) :: next } =
        .next { s with inbox := left, dev := { s.dev with
          curop := 7, lenL := len
          res := some v
          crcObs := 0x00, crcExp := 0x00
          resValid := true, crcOk := false, err := .noError, done := true, busy := false
          rspA := Vector.replicate 8 none, rspB := Vector.replicate 6 none
          phase := .idle } }

/-- 43_identity R168, R170: READ_ID ends at its first failing call, wherever that is; the identity cache is
as it was, RES has no value, and HIST gains the events up to and including the failed call. The turns are
given (left to BLOCK: log 19). -/
def Obligations.ReadIdFailures : Prop :=
  ∀ (len : Nibble) (s : State) (w w' da : Vector Byte 8) (rest : List Answer) (k : Nat)
    (script : List Answer) (events : List BusEvent) (buf : Vector (Option Byte) 8)
    (next left : List Stim), givesTurns (k - 1) next left →
    s.dev.busy = false → s.dev.idValid = false → s.busFree →
    (k = 2 ∧ script = [.transportError] ∧ buf = Vector.replicate 8 none ∧
        events = [.write s.dev.addr [0xFA, 0x0F] .transportError]) ∨
      (k = 4 ∧ script = [.ok w, .transportError] ∧ buf = Vector.replicate 8 none ∧
        events = [.write s.dev.addr [0xFA, 0x0F] .ok, .delay 25, .read s.dev.addr 8 .transportError]) ∨
      (k = 5 ∧ script = [.ok w, .ok da, .transportError] ∧ buf = da.map some ∧
        events = [.write s.dev.addr [0xFA, 0x0F] .ok, .delay 25,
          .read s.dev.addr 8 (.ok da.toList), .write s.dev.addr [0xFC, 0xC9] .transportError]) ∨
      (k = 7 ∧ script = [.ok w, .ok da, .ok w', .transportError] ∧ buf = da.map some ∧
        events = [.write s.dev.addr [0xFA, 0x0F] .ok, .delay 25,
          .read s.dev.addr 8 (.ok da.toList), .write s.dev.addr [0xFC, 0xC9] .ok, .delay 25,
          .read s.dev.addr 6 .transportError]) →
    runs k { s with
        inbox := hostWrite 0x00 (cmdWord len 7) :: next, answers := script ++ rest } =
      .next { s with inbox := left, answers := rest, dev := { s.dev with
        curop := 7, lenL := len
        res := none, crcObs := 0x00, crcExp := 0x00
        resValid := false, crcOk := false, err := .transportError, done := true, busy := false
        rspA := buf, rspB := Vector.replicate 6 none
        hist := s.dev.hist ++ events
        phase := .idle } }

/-- 44_session R191, 42_unit R149: what a measurement leaves depends on the transport's answers and not on
anything an earlier operation left, nor on how the turns come: asked for, or left to BLOCK (log 19). -/
def Obligations.MeasurementIgnoresThePast : Prop :=
  ∀ (v : Byte) (s s' t t' : State) (next next' : List Stim),
    (next = [] ∨ ∃ rest, next = List.replicate 4 .turn ++ rest) →
    (next' = [] ∨ ∃ rest, next' = List.replicate 4 .turn ++ rest) →
    v.extractLsb' 0 4 = 4 ∨ v.extractLsb' 0 4 = 5 →
    s.dev.busy = false → s.busFree → s'.dev.busy = false → s'.busFree →
    s.dev.idValid = s'.dev.idValid → s.answers = s'.answers → 2 ≤ s.answers.length →
    runs 5 { s with inbox := hostWrite 0x00 v :: next } = .next t →
    runs 5 { s' with inbox := hostWrite 0x00 v :: next' } = .next t' →
      t.dev.res = t'.dev.res ∧ t.dev.statusByte = t'.dev.statusByte ∧
      t.dev.crcObs = t'.dev.crcObs ∧ t.dev.crcExp = t'.dev.crcExp ∧ t.dev.phase = t'.dev.phase

/-- 60_exceptions R216: a call that never answers keeps its handle as it is, however many steps are left to
BLOCK; with the others in IDLE it keeps the whole state. It holds no other handle up: within one round of the
handles (the model's own order, log 19) each one in EVAL whose operands were written ends its operation. -/
def Obligations.UnansweredCallHangs : Prop :=
  ∀ s : State, s.leftToBlock → s.dev.phase ∈ [Phase.wr1, .rd1, .wr2, .rd2] → s.nextAnswer = .noAnswer →
    (s.dev.phaseLegal → s.othersIdle → ∀ k, runs k s = .next s) ∧
    (s.Sound →
      (∀ k, ∃ t, runs k s = .next t ∧ t.dev = s.dev ∧ t.nextAnswer = .noAnswer) ∧
      ∃ k t, k ≤ s.others.length + 1 ∧ runs k s = .next t ∧ t.dev = s.dev ∧
        ∀ (j : Nat) (d : Dev), s.others[j]? = some d → d.phase = .eval → d.operandsReady →
          ∃ e, t.others[j]? = some e ∧ e.phase = .idle ∧ e.done = true ∧ e.busy = false)

/-- 70_reset R252: the operation in progress on the addressed handle ends, within seven steps, if every call
it makes is answered and the operands it reads were written; so does that of every other handle of the
transport, whichever is addressed, within the bound that the model's fair order gives (log 19). -/
def Obligations.OperationsFinish : Prop :=
  (∀ s : State, s.Sound → s.inbox = [] → s.dev.phase ≠ .idle → s.dev.operandsReady →
    4 ≤ s.answers.length → .noAnswer ∉ s.answers →
      ∃ k t, k ≤ 7 ∧ runs k s = .next t ∧ t.dev.phase = .idle ∧ t.dev.done = true ∧
        t.dev.busy = false) ∧
  (∀ s : State, s.Sound → s.inbox = [] →
    4 * (s.others.length + 1) ≤ s.answers.length → .noAnswer ∉ s.answers →
      ∃ k t, k ≤ 7 * (s.others.length + 1) ^ 2 ∧ runs k s = .next t ∧
        ∀ (j : Nat) (d : Dev), s.handle j = some d → d.operandsReady → ∃ e, t.handle j = some e ∧
          e.phase = .idle ∧ (d.phase ≠ .idle → e.done = true ∧ e.busy = false))

/-! ## Frames and whole-machine rules -/

/-- 10_state R27, R30, R35: no operation and no wire command writes ADDR, OPB, another handle, or anything
of HOST's; past operation start none writes CUROP or LEN_L either. -/
def Obligations.OperationFrame : Prop :=
  ∀ (i : Instr) (s t : State), isBlockRow i = true → exec i s = .next t →
    t.dev.addr = s.dev.addr ∧ t.dev.opb = s.dev.opb ∧ t.others = s.others ∧
    t.inbox = s.inbox ∧ t.reads = s.reads ∧ t.frees = s.frees ∧
    (s.dev.phase ≠ .idle →
      t.dev.curop = s.dev.curop ∧ t.dev.lenL = s.dev.lenL ∧ t.refused = s.refused)

/-- 44_session R190, 40_crc R107, R108, 41_packer R123, 30_encoding R83: the pure operations and reserved
selectors touch neither the bus nor the identity cache nor, in EVAL, the response buffers. -/
def Obligations.PureOperationFrame : Prop :=
  ∀ (i : Instr) (s t : State), isPureRow i = true → exec i s = .next t →
    t.dev.hist = s.dev.hist ∧ t.answers = s.answers ∧ t.draws = s.draws ∧
    t.dev.idValid = s.dev.idValid ∧ t.dev.serial = s.dev.serial ∧ t.dev.model = s.dev.model ∧
    (s.dev.phase ≠ .idle → t.dev.rspA = s.dev.rspA ∧ t.dev.rspB = s.dev.rspB)

/-- 43_identity R167: READ_ID, past its start, never writes CRC_OBS, CRC_EXP or a set CRC_OK, and never
ends with CHECKSUM_ERROR. -/
def Obligations.ReadIdChecksNothing : Prop :=
  ∀ (len : Nibble) (s t : State), s.dev.phase ≠ .idle → s.dev.err ≠ .checksumError →
    exec (.readId len) s = .next t →
      t.dev.crcObs = s.dev.crcObs ∧ t.dev.crcExp = s.dev.crcExp ∧
      (t.dev.crcOk = s.dev.crcOk ∨ t.dev.crcOk = false) ∧ t.dev.err ≠ .checksumError

/-- 10_state R37, R27, 20_memory R68: no step but a block reset changes the ADDR of a handle, and none but a
block reset changes its identity once it is cached. -/
def Obligations.IdentityAndAddressKept : Prop :=
  ∀ (s t : State) (k : Nat) (d : Dev), s.staysOnDev → step s = .next t → s.handle k = some d →
    ∃ e, t.handle k = some e ∧ e.addr = d.addr ∧
      (d.idValid = true → e.idValid = true ∧ e.serial = d.serial ∧ e.model = d.model)

/-- 20_memory R51, R58, R62, 30_encoding R73, 44_session R183: a step appends at most one event to the HIST
of a handle, and the only traffic is the table's, at the handle's own address. -/
def Obligations.TrafficIsTheTable : Prop :=
  ∀ (s t : State) (k : Nat) (d : Dev), s.staysOnDev → step s = .next t → s.handle k = some d →
    ∃ e, t.handle k = some e ∧
      (e.hist = d.hist ∨ ∃ ev, e.hist = d.hist ++ [ev] ∧ d.allowsEvent ev)

/-- 44_session R184, 60_exceptions R211: a step that records a failed call of a handle ends its operation
with TRANSPORT_ERROR, so that no later call of it follows. -/
def Obligations.FailedCallEndsOperation : Prop :=
  ∀ (s t : State) (k : Nat) (d e : Dev) (ev : BusEvent), s.staysOnDev → step s = .next t →
    s.handle k = some d → t.handle k = some e → e.hist = d.hist ++ [ev] → ev.failed = true →
      e.phase = .idle ∧ e.err = .transportError ∧ e.busy = false ∧ e.done = true ∧
      e.resValid = false ∧ e.res = none ∧
      e.idValid = d.idValid ∧ e.serial = d.serial ∧ e.model = d.model

/-- 44_session R181, 60_exceptions R211: where a turn of the sequencer leads, and with which answer of the
transport: only a WR or RD phase ends with TRANSPORT_ERROR, and only at that answer. A turn leaves the handle
as it is where its call never answers, or its EVAL meets an operand byte without a value (60_exceptions R216,
R222). -/
def Obligations.PhaseSuccession : Prop :=
  ∀ s t : State, s.inbox = [] ∨ s.inbox.head? = some .turn → s.dev.phaseLegal → s.dev.phase ≠ .idle →
    step s = .next t →
    (t.dev = s.dev ∧ s.dev.phase ∈ [Phase.wr1, .rd1, .wr2, .rd2] ∧ s.nextAnswer = .noAnswer ∧
      (s.othersIdle → t = { s with inbox := s.inbox.tail })) ∨
    (t.dev = s.dev ∧ s.dev.phase = .eval ∧ ¬ s.dev.operandsReady ∧
      (s.inbox ≠ [] ∨ s.othersIdle → t.faulted = true)) ∨
    (s.dev.phase ∈ [Phase.wr1, .rd1, .wr2, .rd2] ∧ s.nextAnswer = .transportError ∧
      t.dev.phase = .idle ∧ t.dev.err = .transportError) ∨
    (s.dev.phase ∈ [Phase.wr1, .rd1, .wr2, .rd2] ∧ (∃ data, s.nextAnswer = .ok data) ∧
      ((s.dev.phase = .wr1 ∧ t.dev.phase = .dly1) ∨
      (s.dev.phase = .rd1 ∧ s.dev.curop ≠ 7 ∧ t.dev.phase = .eval) ∨
      (s.dev.phase = .rd1 ∧ s.dev.curop = 7 ∧ t.dev.phase = .wr2) ∨
      (s.dev.phase = .wr2 ∧ t.dev.phase = .dly2) ∨
      (s.dev.phase = .rd2 ∧ t.dev.phase = .eval))) ∨
    (s.dev.phase = .dly1 ∧ s.dev.curop ≠ 6 ∧ t.dev.phase = .rd1) ∨
    (s.dev.phase = .dly1 ∧ s.dev.curop = 6 ∧ t.dev.phase = .eval) ∨
    (s.dev.phase = .dly2 ∧ t.dev.phase = .rd2) ∨
    (s.dev.phase = .eval ∧ t.dev.phase = .idle ∧ t.dev.err ≠ .transportError)

/-- 60_exceptions R217: when a step ends an operation with an error, no result is visible, the identity is
as it was, and beside the status only CRC_OBS and CRC_EXP of a CHECKSUM_ERROR were written. -/
def Obligations.ErrorsArePrecise : Prop :=
  ∀ (s t : State) (k : Nat) (d e : Dev), s.Sound → s.staysOnDev → step s = .next t →
    s.handle k = some d → t.handle k = some e → d.phase ≠ .idle → e.err ≠ .noError →
      e.resValid = false ∧ e.res = none ∧ e.crcOk = false ∧ e.done = true ∧ e.busy = false ∧
      e.phase = .idle ∧ e.idValid = d.idValid ∧ e.serial = d.serial ∧ e.model = d.model ∧
      e.addr = d.addr ∧ e.opb = d.opb ∧ e.curop = d.curop ∧ e.lenL = d.lenL ∧
      e.rspA = d.rspA ∧ e.rspB = d.rspB ∧
      (e.err ≠ .checksumError → e.crcObs = d.crcObs ∧ e.crcExp = d.crcExp) ∧
      ∃ ev, e.hist = d.hist ++ ev

/-- 60_exceptions R223: no step clears FAULTED or REFUSED, a block reset no more than another. -/
def Obligations.MarksAreNeverCleared : Prop :=
  ∀ s t : State, step s = .next t →
    (s.faulted = true → t.faulted = true) ∧ (s.refused = true → t.refused = true)

/-- 60_exceptions R228: a step that builds and selects no handle leaves those it does not address as they
are, but for one that takes its own BLOCK step while the addressed one is stalled (the model's order, log 19):
what that step does is what a turn of that handle does, and it leaves every further handle as it is. -/
def Obligations.OtherHandlesUntouched : Prop :=
  ∀ s t : State, (∀ a, s.inbox.head? ≠ some (.build a)) → (∀ k, s.inbox.head? ≠ some (.select k)) →
    step s = .next t →
      t.others = s.others ∨
      (s.leftToBlock ∧ s.stalled ∧ ∃ (k : Nat) (d : Dev) (u : State),
        s.others[k]? = some d ∧ d.phase ≠ .idle ∧
        step { s with
            dev := d, others := s.others.set k s.dev
            inbox := .turn :: s.inbox, rotor := s.rotor + 1 } = .next u ∧
        t = { u with dev := s.dev, others := s.others.set k u.dev })

/-- 70_reset R240, 10_state R45: building, selecting (the model's own step, log 8) and resetting a handle. -/
def Obligations.HandlesBuiltSelectedReset : Prop :=
  ∀ (s : State) (rest : List Stim),
    (∀ a, s.inbox = .build a :: rest →
      step s = .next { s with inbox := rest, others := s.others ++ [Dev.reset a] }) ∧
    (∀ k d, s.inbox = .select k :: rest → s.others[k]? = some d →
      step s = .next { s with inbox := rest, dev := d, others := s.others.set k s.dev }) ∧
    (∀ a, s.inbox = .blockReset a :: rest → ∃ t, step s = .next t ∧
      t.dev = { curop := 0, lenL := 0, busy := false, done := false, resValid := false,
                crcOk := false, idValid := false, err := .noError, addr := a, model := none,
                crcObs := 0x00, crcExp := 0x00, phase := .idle, opb := Vector.replicate 8 none,
                res := none, serial := none, rspA := Vector.replicate 8 none,
                rspB := Vector.replicate 6 none, hist := [] } ∧
      t.others = s.others ∧ t.faulted = s.faulted ∧ t.refused = s.refused ∧ t.reads = s.reads ∧
      t.inbox = rest)

/-- 10_state R40, with what the model needs beside it: every step keeps every handle sound. -/
def Obligations.SoundnessKept : Prop :=
  ∀ s t : State, s.Sound → step s = .next t → t.Sound

/-- 10_state R45, R40: block reset leaves a sound state, whatever the address and whatever the outside does
next. -/
def Obligations.ResetIsSound : Prop :=
  ∀ (a : BusAddr) (inbox : List Stim) (answers : List Answer),
    { State.reset with dev := Dev.reset a, inbox := inbox, answers := answers }.Sound

/-- 10_state R40: the four invariants of every state reachable from block reset, for every handle. -/
def Obligations.StatusInvariantsReachable : Prop :=
  ∀ (k : Nat) (a : BusAddr) (inbox : List Stim) (answers : List Answer) (draws frees rotor : Nat) (t : State),
    runs k { State.reset with
        dev := Dev.reset a, inbox := inbox, answers := answers
        draws := draws, frees := frees, rotor := rotor } = .next t →
    ∀ d ∈ t.dev :: t.others,
      (d.busy = true ↔ d.phase ≠ .idle) ∧
      (d.err ≠ .noError → d.resValid = false ∧ d.crcOk = false ∧ d.done = true) ∧
      (d.busy = true → d.done = false ∧ d.err = .noError ∧ d.resValid = false) ∧
      (d.crcOk = true → d.crcObs = d.crcExp)

/-- 20_memory R64, 70_reset R248: at most one handle at a time is in a WR, DLY or RD phase; every step
keeps that. -/
def Obligations.TransportUseStaysExclusive : Prop :=
  ∀ s t : State, s.Sound → s.BusExclusive → step s = .next t → t.BusExclusive

/-- No fault and no refusal stops a sound state whose host actions are HOST's two (30_encoding R82; faults
and refusals of the model, logs 9 and 11). -/
def Obligations.SoundStatesStep : Prop :=
  ∀ s : State, s.Sound → s.inboxFormed → ∃ t, step s = .next t ∧ t.inboxFormed

/-! ## Reset, fetching, encoding -/

/-- 10_state R45, 70_reset R241, 95_test_vectors X1, X3, X5, X6, X11: what HOST sees after block reset. -/
def Obligations.ResetVisible : Prop :=
  State.reset.dev.phase = .idle ∧ peek State.reset.dev 0x00 = some 0x00 ∧
  peek State.reset.dev 0x01 = some 0x00 ∧ peek State.reset.dev 0x02 = some 0x40 ∧
  peek State.reset.dev 0x03 = none ∧ peek State.reset.dev 0x04 = some 0x00 ∧
  peek State.reset.dev 0x05 = some 0x00 ∧ peek State.reset.dev 0x06 = some 0x00 ∧
  (∀ off : Byte, 0x08 ≤ off.toNat → off.toNat < 0x20 → peek State.reset.dev off = none) ∧
  State.reset.dev.hist = [] ∧ State.reset.faulted = false ∧ State.reset.refused = false

/-- The step around exec: a host action's bytes, decoded, are executed; the sequencer's turn executes the
operation latched in CMD; a waiting HOST lets it, until BUSY = 0 (30_encoding R82, R86, 44_session R183).
Where the addressed handle is stalled, the step is that of the handle whose turn it is (70_reset R252; the
order is the model's own, log 19). -/
def Obligations.StepRunsDecodedInstruction : Prop :=
  ∀ (s : State) (rest : List Stim),
    (∀ d bytes i, s.inbox = .act d bytes :: rest → decode (.host d) bytes = .ok i →
      step s = exec i { s with inbox := rest }) ∧
    (∀ i, s.inbox = .turn :: rest → s.dev.phase ≠ .idle →
      decode .cmd [s.dev.lenL ++ s.dev.curop] = .ok i → step s = exec i { s with inbox := rest }) ∧
    (s.inbox = .waitIdle :: rest → s.dev.busy = false → step s = .next { s with inbox := rest }) ∧
    (∀ i, s.leftToBlock → s.dev.phase ≠ .idle → ¬ s.stalled ∨ s.othersIdle →
      decode .cmd [s.dev.lenL ++ s.dev.curop] = .ok i → step s = exec i s) ∧
    (s.leftToBlock → s.dev.phase = .idle → s.othersIdle → step s = .next s) ∧
    (s.leftToBlock → s.stalled → s.dev.phaseLegal → ¬ s.othersIdle →
      (s.rotor % (s.others.length + 1) = 0 →
        (s.dev.phase = .idle → step s = .next { s with rotor := s.rotor + 1 }) ∧
        ∀ i, s.dev.phase ≠ .idle → decode .cmd [s.dev.lenL ++ s.dev.curop] = .ok i →
          step s = exec i { s with rotor := s.rotor + 1 }) ∧
      ∀ (k : Nat) (d : Dev), s.rotor % (s.others.length + 1) = k + 1 → s.others[k]? = some d →
        (d.phase = .idle → step s = .next { s with rotor := s.rotor + 1 }) ∧
        ∀ i u, d.phase ≠ .idle → decode .cmd [d.lenL ++ d.curop] = .ok i →
          exec i { s with
            dev := d, others := s.others.set k s.dev, rotor := s.rotor + 1 } = .next u →
            step s = .next { u with dev := s.dev, others := s.others.set k u.dev })

/-- Decoding what is encoded gives the instruction back, for every well-formed instruction. -/
def Obligations.DecodeOfEncode : Prop :=
  ∀ i : Instr, i.wellFormed = true → decode (encode i).1 (encode i).2 = .ok i

/-- Encoding what is decoded gives the format and the bytes back, what is decoded is well formed, and
every CMD byte is decoded (30_encoding R81, R84, R85). -/
def Obligations.EncodeOfDecode : Prop :=
  (∀ (f : Format) (bs : List Byte) (i : Instr), decode f bs = .ok i →
    encode i = (f, bs) ∧ i.wellFormed = true) ∧
  (∀ b : Byte, ∃ i, decode .cmd [b] = .ok i)

/-- 30_encoding R72, R81, R87: words written out from the tables. -/
def Obligations.DecodedWords : Prop :=
  decode .cmd [0b00000001] = .ok (.crc8 0) ∧ decode .cmd [0b10000011] = .ok (.pack 8) ∧
  decode .cmd [0b00000100] = .ok (.measT 0) ∧ decode .cmd [0b11110111] = .ok (.readId 15) ∧
  decode .cmd [0b01011010] = .ok (.reservedOpsel8To15 10 5) ∧
  decode .w1 [0b11110011] = .ok .wireMeasureT ∧
  decode .w2 [0b11111010, 0b00001111] = .ok .wireIdA ∧
  decode .w2 [0b11111100, 0b11001001] = .ok .wireIdB ∧
  decode .w1 [0b11110100] = .error .unknownWireCommand ∧
  decode (.host .write) [0x08, 0x67] = .ok (.hw 0x08 0x67)

/-! ## HOST's side -/

/-- 30_encoding R87: what each pseudo-instruction expands to, and the value of RD64. The rule does not say
what RD64 of a base above 0xF8 reads; that its offsets wrap is the model's choice (log 20). -/
def Obligations.ListingsExpand : Prop :=
  (∀ d0 d1 : Byte, listCrc8 d0 d1 =
    [hostWrite 0x08 d0, hostWrite 0x09 d1, hostWrite 0x00 0x01, .waitIdle]) ∧
  (∀ d0 d1 c : Byte, listVerify d0 d1 c =
    [hostWrite 0x08 d0, hostWrite 0x09 d1, hostWrite 0x0A c, hostWrite 0x00 0x02, .waitIdle]) ∧
  (∀ bs : List Byte, 1 ≤ bs.length → bs.length ≤ 8 → listPack bs =
    (List.range bs.length).map (fun i => hostWrite (BitVec.ofNat 8 (0x08 + i)) (bs.getD i 0)) ++
      [hostWrite 0x00 (BitVec.ofNat 8 ((bs.length <<< 4) ||| 0x03)), .waitIdle]) ∧
  listMeasT = [hostWrite 0x00 0x04, .waitIdle] ∧ listMeasRh = [hostWrite 0x00 0x05, .waitIdle] ∧
  listSreset = [hostWrite 0x00 0x06, .waitIdle] ∧ listReadId = [hostWrite 0x00 0x07, .waitIdle] ∧
  (∀ base : Byte, listRd64 base =
    (List.range 8).map (fun i => hostRead (base + BitVec.ofNat 8 i))) ∧
  (∀ (d : Dev) (base : Byte) (bs : List Byte), bs.length = 8 →
    (∀ i, i < 8 → peek d (base + BitVec.ofNat 8 i) = some (bs.getD i 0)) →
      rd64 d base = some (pack bs))

/-- 42_unit R141 to R144: the exact forms (that they go on above the domains that R141 and R143 give is the
model's choice, log 21), and the ranges over 16-bit raw values with the values at their ends, unclamped. -/
def Obligations.ConverterFormsAndRanges : Prop :=
  (∀ raw : Nat, rawToCelsius raw = raw * 4393 / 1638400 - 937 / 20) ∧
  (∀ c : Rat, celsiusToFahrenheit c = c * 9 / 5 + 32) ∧
  (∀ raw : Nat, rawToRelativeHumidity raw = raw * 125 / 65536 - 6) ∧
  rawToCelsius 65536 = 12887 / 100 ∧
  rawToCelsius 0 = -937 / 20 ∧ rawToCelsius 65535 = 42227243 / 327680 ∧
  rawToRelativeHumidity 0 = -6 ∧ rawToRelativeHumidity 65535 = 7798659 / 65536 ∧
  ∀ raw : Nat, raw ≤ 65535 →
    -937 / 20 ≤ rawToCelsius raw ∧ rawToCelsius raw ≤ 42227243 / 327680 ∧
    -6 ≤ rawToRelativeHumidity raw ∧ rawToRelativeHumidity raw ≤ 7798659 / 65536 ∧
    (rawToRelativeHumidity raw < 0 ↔ raw ≤ 3145) ∧
    (100 < rawToRelativeHumidity raw ↔ 55575 ≤ raw)

/-- 42_unit R146 to R148: the reading functions convert exactly where ERR is NONE, and otherwise fail with
the error's own payload, whatever the host's floating point is. -/
def Obligations.ReadingContracts : Prop :=
  ∀ (hf : HostFloat) (d : Dev),
    (d.err = .transportError →
      readTemperature hf d = some (.error .transportError) ∧
      readTemperatureFahrenheit hf d = some (.error .transportError) ∧
      readHumidity hf d = some (.error .transportError)) ∧
    (d.err = .checksumError →
      readTemperature hf d = some (.error (.checksumError d.crcObs d.crcExp)) ∧
      readTemperatureFahrenheit hf d = some (.error (.checksumError d.crcObs d.crcExp)) ∧
      readHumidity hf d = some (.error (.checksumError d.crcObs d.crcExp))) ∧
    (∀ v : Word64, d.err = .noError → d.resValid = true → d.res = some v →
      readTemperature hf d = some (.ok (hf.rawToCelsius (v.extractLsb' 0 16).toNat)) ∧
      readTemperatureFahrenheit hf d =
        some (.ok (hf.celsiusToFahrenheit (hf.rawToCelsius (v.extractLsb' 0 16).toNat))) ∧
      readHumidity hf d = some (.ok (hf.rawToRelativeHumidity (v.extractLsb' 0 16).toNat)))
end

