-- ==== Sys2Proof/Laws/Functions.lean ====
section
/-! SUPPORT. The spec lemmas of the pure functions: fields of a CMD byte, the packer, optional values, the
register map, response buffers. -/

namespace Sys2Proof.Machine

/-! ## The CMD byte -/

theorem extract_append_low (len op : Nibble) : (len ++ op).extractLsb' 0 4 = op := by
  revert len op; decide

theorem extract_append_high (len op : Nibble) : (len ++ op).extractLsb' 4 4 = len := by
  revert len op; decide

@[simp] theorem cmdWord_low (len op : Nibble) : (cmdWord len op).extractLsb' 0 4 = op :=
  extract_append_low len op

@[simp] theorem cmdWord_high (len op : Nibble) : (cmdWord len op).extractLsb' 4 4 = len :=
  extract_append_high len op

/-- A CMD byte is its two fields put together. -/
theorem cmdWord_of_extract (b : Byte) : cmdWord (b.extractLsb' 4 4) (b.extractLsb' 0 4) = b := by
  revert b; decide

/-- The decoder on the byte latched in CMD, by CUROP. -/
theorem decodeCmd_cmdByte (d : Dev) :
    decodeCmd d.cmdByte = match d.curop.toNat with
      | 0 => .reservedOpsel0 d.lenL
      | 1 => .crc8 d.lenL
      | 2 => .verify d.lenL
      | 3 => .pack d.lenL
      | 4 => .measT d.lenL
      | 5 => .measRh d.lenL
      | 6 => .sreset d.lenL
      | 7 => .readId d.lenL
      | _ => .reservedOpsel8To15 d.curop d.lenL := by
  have hl := extract_append_low d.lenL d.curop
  have hh := extract_append_high d.lenL d.curop
  unfold decodeCmd Dev.cmdByte
  generalize (d.lenL ++ d.curop).extractLsb' 0 4 = op at hl ⊢
  generalize (d.lenL ++ d.curop).extractLsb' 4 4 = len at hh ⊢
  subst hl hh
  rfl

/-- The first phase is WR1 exactly for the operations that touch the bus (44_session R181). -/
theorem firstPhase_eq_wr1 (op : Nibble) (idValid : Bool) :
    firstPhase op idValid = .wr1 ↔ op = 4 ∨ op = 5 ∨ op = 6 ∨ (op = 7 ∧ idValid = false) := by
  revert op idValid; decide

/-- The first phase is WR1 or EVAL (44_session R181). -/
theorem firstPhase_cases (op : Nibble) (idValid : Bool) :
    firstPhase op idValid = .wr1 ∨ firstPhase op idValid = .eval := by
  revert op idValid; decide

/-! ## The packer -/

theorem shiftLeft_or_byte (v : Nat) (b : Byte) : (v <<< 8) ||| b.toNat = v * 256 + b.toNat := by
  rw [Nat.shiftLeft_eq, Nat.mul_comm, ← Nat.two_pow_add_eq_or_of_lt b.isLt v, Nat.mul_comm]

/-- One more byte at the end (41_packer R122 item 2). -/
theorem pack_snoc (bs : List Byte) (b : Byte) : pack (bs ++ [b]) = pack bs * 256 + b.toNat := by
  simp only [pack, List.foldl_append, List.foldl_cons, List.foldl_nil, shiftLeft_or_byte]

/-- The model's choice for the empty sequence, which the spec leaves open (93 U1; log 18). -/
@[simp] theorem pack_nil : pack [] = 0 := rfl

/-- The value fits in the bytes packed (41_packer R120). -/
theorem pack_lt (bs : List Byte) : pack bs < 2 ^ (8 * bs.length) := by
  induction bs using List.reverseRecOn with
  | nil => simp
  | append_singleton bs b ih =>
    have hp : 2 ^ (8 * (bs ++ [b]).length) = 2 ^ (8 * bs.length) * 256 := by
      rw [List.length_append, List.length_singleton, Nat.mul_add, Nat.pow_add]
    have hb : b.toNat < 256 := b.isLt
    rw [pack_snoc, hp]
    omega

theorem pack_pair (hi lo : Byte) : pack [hi, lo] = hi.toNat * 256 + lo.toNat := by
  rw [show [hi, lo] = ([] ++ [hi]) ++ [lo] from rfl, pack_snoc, pack_snoc, pack_nil, Nat.zero_mul,
    Nat.zero_add]

/-! ## Optional values -/

/-- `allSome` answers the values exactly where every field has one. -/
theorem allSome_eq_some {α : Type} (l : List (Option α)) (r : List α) :
    allSome l = some r ↔ l = r.map some := by
  induction l generalizing r with
  | nil => cases r <;> simp [allSome]
  | cons x l ih =>
    cases x with
    | none => cases r <;> simp [allSome]
    | some x =>
      simp only [allSome, Option.map_eq_some_iff]
      cases r with
      | nil => simp
      | cons y r => simp [ih, and_comm]

theorem allSome_eq_none {α : Type} (l : List (Option α)) : allSome l = none ↔ none ∈ l := by
  induction l with
  | nil => simp [allSome]
  | cons x l ih => cases x <;> simp [allSome, ih]

theorem allSome_isSome {α : Type} (l : List (Option α)) :
    (allSome l).isSome = true ↔ ∀ b ∈ l, b.isSome = true := by
  rw [← Option.ne_none_iff_isSome, Ne, allSome_eq_none]
  constructor
  · intro h b hb
    cases b with
    | none => exact absurd hb h
    | some x => rfl
  · intro h hn
    exact absurd (h none hn) (by simp)

/-! ## Response buffers -/

/-- What a response leaves at each index of a buffer (10_state R36). -/
theorem storeBytes_getElem {n : Nat} (bs : List Byte) (v : Vector (Option Byte) n) (k i : Nat)
    (hi : i < n) :
    (storeBytes v k bs)[i] = if h : k ≤ i ∧ i - k < bs.length then some bs[i - k] else v[i] := by
  induction bs generalizing v k with
  | nil => simp [storeBytes]
  | cons b bs ih =>
    rw [storeBytes, ih]
    by_cases hk : k = i
    · subst hk
      simp [Vector.getElem_setIfInBounds_self]
    · by_cases hlt : k + 1 ≤ i
      · have h1 : i - k = (i - (k + 1)) + 1 := by omega
        have h2 : k ≤ i := by omega
        simp [hlt, h1, h2, Vector.getElem_setIfInBounds_ne, hk]
      · have h2 : ¬ k ≤ i := by omega
        simp [hlt, h2, Vector.getElem_setIfInBounds_ne, hk]

/-- The bytes of an 8-byte answer, one by one. -/
theorem vector8_toList {α : Type} (v : Vector α 8) :
    v.toList = [v[0], v[1], v[2], v[3], v[4], v[5], v[6], v[7]] := by
  apply List.ext_getElem
  · simp
  · intro i h1 h2
    simp only [List.length_cons, List.length_nil] at h2
    rcases i with _ | _ | _ | _ | _ | _ | _ | _ | i <;> first | (exfalso; omega) | simp

theorem vector6_toList {α : Type} (v : Vector α 6) :
    v.toList = [v[0], v[1], v[2], v[3], v[4], v[5]] := by
  apply List.ext_getElem
  · simp
  · intro i h1 h2
    simp only [List.length_cons, List.length_nil] at h2
    rcases i with _ | _ | _ | _ | _ | _ | i <;> first | (exfalso; omega) | simp

end Sys2Proof.Machine
end

