-- ==== Sys2Proof/Laws/State.lean ====
section
/-! SUPPORT. One lemma per field per update of a state: what an update writes and what it leaves. -/

namespace Sys2Proof.Machine

variable (d : Dev) (s : State)

/-! ## Updates of a handle -/

@[simp] theorem Dev.goto_curop (p : Phase) : (d.goto p).curop = d.curop := rfl
@[simp] theorem Dev.goto_lenL (p : Phase) : (d.goto p).lenL = d.lenL := rfl
@[simp] theorem Dev.goto_busy (p : Phase) : (d.goto p).busy = d.busy := rfl
@[simp] theorem Dev.goto_done (p : Phase) : (d.goto p).done = d.done := rfl
@[simp] theorem Dev.goto_resValid (p : Phase) : (d.goto p).resValid = d.resValid := rfl
@[simp] theorem Dev.goto_crcOk (p : Phase) : (d.goto p).crcOk = d.crcOk := rfl
@[simp] theorem Dev.goto_idValid (p : Phase) : (d.goto p).idValid = d.idValid := rfl
@[simp] theorem Dev.goto_err (p : Phase) : (d.goto p).err = d.err := rfl
@[simp] theorem Dev.goto_addr (p : Phase) : (d.goto p).addr = d.addr := rfl
@[simp] theorem Dev.goto_model (p : Phase) : (d.goto p).model = d.model := rfl
@[simp] theorem Dev.goto_crcObs (p : Phase) : (d.goto p).crcObs = d.crcObs := rfl
@[simp] theorem Dev.goto_crcExp (p : Phase) : (d.goto p).crcExp = d.crcExp := rfl
@[simp] theorem Dev.goto_phase (p : Phase) : (d.goto p).phase = p := rfl
@[simp] theorem Dev.goto_opb (p : Phase) : (d.goto p).opb = d.opb := rfl
@[simp] theorem Dev.goto_res (p : Phase) : (d.goto p).res = d.res := rfl
@[simp] theorem Dev.goto_serial (p : Phase) : (d.goto p).serial = d.serial := rfl
@[simp] theorem Dev.goto_rspA (p : Phase) : (d.goto p).rspA = d.rspA := rfl
@[simp] theorem Dev.goto_rspB (p : Phase) : (d.goto p).rspB = d.rspB := rfl
@[simp] theorem Dev.goto_hist (p : Phase) : (d.goto p).hist = d.hist := rfl

@[simp] theorem Dev.record_curop (e : BusEvent) : (d.record e).curop = d.curop := rfl
@[simp] theorem Dev.record_lenL (e : BusEvent) : (d.record e).lenL = d.lenL := rfl
@[simp] theorem Dev.record_busy (e : BusEvent) : (d.record e).busy = d.busy := rfl
@[simp] theorem Dev.record_done (e : BusEvent) : (d.record e).done = d.done := rfl
@[simp] theorem Dev.record_resValid (e : BusEvent) : (d.record e).resValid = d.resValid := rfl
@[simp] theorem Dev.record_crcOk (e : BusEvent) : (d.record e).crcOk = d.crcOk := rfl
@[simp] theorem Dev.record_idValid (e : BusEvent) : (d.record e).idValid = d.idValid := rfl
@[simp] theorem Dev.record_err (e : BusEvent) : (d.record e).err = d.err := rfl
@[simp] theorem Dev.record_addr (e : BusEvent) : (d.record e).addr = d.addr := rfl
@[simp] theorem Dev.record_model (e : BusEvent) : (d.record e).model = d.model := rfl
@[simp] theorem Dev.record_crcObs (e : BusEvent) : (d.record e).crcObs = d.crcObs := rfl
@[simp] theorem Dev.record_crcExp (e : BusEvent) : (d.record e).crcExp = d.crcExp := rfl
@[simp] theorem Dev.record_phase (e : BusEvent) : (d.record e).phase = d.phase := rfl
@[simp] theorem Dev.record_opb (e : BusEvent) : (d.record e).opb = d.opb := rfl
@[simp] theorem Dev.record_res (e : BusEvent) : (d.record e).res = d.res := rfl
@[simp] theorem Dev.record_serial (e : BusEvent) : (d.record e).serial = d.serial := rfl
@[simp] theorem Dev.record_rspA (e : BusEvent) : (d.record e).rspA = d.rspA := rfl
@[simp] theorem Dev.record_rspB (e : BusEvent) : (d.record e).rspB = d.rspB := rfl
@[simp] theorem Dev.record_hist (e : BusEvent) : (d.record e).hist = d.hist ++ [e] := rfl

@[simp] theorem Dev.finish_curop (e : ErrCode) : (d.finish e).curop = d.curop := rfl
@[simp] theorem Dev.finish_lenL (e : ErrCode) : (d.finish e).lenL = d.lenL := rfl
@[simp] theorem Dev.finish_busy (e : ErrCode) : (d.finish e).busy = false := rfl
@[simp] theorem Dev.finish_done (e : ErrCode) : (d.finish e).done = true := rfl
@[simp] theorem Dev.finish_resValid (e : ErrCode) : (d.finish e).resValid = if e = .noError then d.resValid else false := rfl
@[simp] theorem Dev.finish_crcOk (e : ErrCode) : (d.finish e).crcOk = if e = .noError then d.crcOk else false := rfl
@[simp] theorem Dev.finish_idValid (e : ErrCode) : (d.finish e).idValid = d.idValid := rfl
@[simp] theorem Dev.finish_err (e : ErrCode) : (d.finish e).err = e := rfl
@[simp] theorem Dev.finish_addr (e : ErrCode) : (d.finish e).addr = d.addr := rfl
@[simp] theorem Dev.finish_model (e : ErrCode) : (d.finish e).model = d.model := rfl
@[simp] theorem Dev.finish_crcObs (e : ErrCode) : (d.finish e).crcObs = d.crcObs := rfl
@[simp] theorem Dev.finish_crcExp (e : ErrCode) : (d.finish e).crcExp = d.crcExp := rfl
@[simp] theorem Dev.finish_phase (e : ErrCode) : (d.finish e).phase = .idle := rfl
@[simp] theorem Dev.finish_opb (e : ErrCode) : (d.finish e).opb = d.opb := rfl
@[simp] theorem Dev.finish_res (e : ErrCode) : (d.finish e).res = if e = .noError then d.res else none := rfl
@[simp] theorem Dev.finish_serial (e : ErrCode) : (d.finish e).serial = d.serial := rfl
@[simp] theorem Dev.finish_rspA (e : ErrCode) : (d.finish e).rspA = d.rspA := rfl
@[simp] theorem Dev.finish_rspB (e : ErrCode) : (d.finish e).rspB = d.rspB := rfl
@[simp] theorem Dev.finish_hist (e : ErrCode) : (d.finish e).hist = d.hist := rfl

@[simp] theorem Dev.begin_curop (v : Byte) : (d.begin v).curop = v.extractLsb' 0 4 := rfl
@[simp] theorem Dev.begin_lenL (v : Byte) : (d.begin v).lenL = v.extractLsb' 4 4 := rfl
@[simp] theorem Dev.begin_busy (v : Byte) : (d.begin v).busy = true := rfl
@[simp] theorem Dev.begin_done (v : Byte) : (d.begin v).done = false := rfl
@[simp] theorem Dev.begin_resValid (v : Byte) : (d.begin v).resValid = false := rfl
@[simp] theorem Dev.begin_crcOk (v : Byte) : (d.begin v).crcOk = false := rfl
@[simp] theorem Dev.begin_idValid (v : Byte) : (d.begin v).idValid = d.idValid := rfl
@[simp] theorem Dev.begin_err (v : Byte) : (d.begin v).err = .noError := rfl
@[simp] theorem Dev.begin_addr (v : Byte) : (d.begin v).addr = d.addr := rfl
@[simp] theorem Dev.begin_model (v : Byte) : (d.begin v).model = d.model := rfl
@[simp] theorem Dev.begin_crcObs (v : Byte) : (d.begin v).crcObs = 0 := rfl
@[simp] theorem Dev.begin_crcExp (v : Byte) : (d.begin v).crcExp = 0 := rfl
@[simp] theorem Dev.begin_phase (v : Byte) : (d.begin v).phase = firstPhase (v.extractLsb' 0 4) d.idValid := rfl
@[simp] theorem Dev.begin_opb (v : Byte) : (d.begin v).opb = d.opb := rfl
@[simp] theorem Dev.begin_res (v : Byte) : (d.begin v).res = none := rfl
@[simp] theorem Dev.begin_serial (v : Byte) : (d.begin v).serial = d.serial := rfl
@[simp] theorem Dev.begin_rspA (v : Byte) : (d.begin v).rspA = Vector.replicate 8 none := rfl
@[simp] theorem Dev.begin_rspB (v : Byte) : (d.begin v).rspB = Vector.replicate 6 none := rfl
@[simp] theorem Dev.begin_hist (v : Byte) : (d.begin v).hist = d.hist := rfl

@[simp] theorem Dev.storeA_curop (bs : List Byte) : (d.storeA bs).curop = d.curop := rfl
@[simp] theorem Dev.storeA_lenL (bs : List Byte) : (d.storeA bs).lenL = d.lenL := rfl
@[simp] theorem Dev.storeA_busy (bs : List Byte) : (d.storeA bs).busy = d.busy := rfl
@[simp] theorem Dev.storeA_done (bs : List Byte) : (d.storeA bs).done = d.done := rfl
@[simp] theorem Dev.storeA_resValid (bs : List Byte) : (d.storeA bs).resValid = d.resValid := rfl
@[simp] theorem Dev.storeA_crcOk (bs : List Byte) : (d.storeA bs).crcOk = d.crcOk := rfl
@[simp] theorem Dev.storeA_idValid (bs : List Byte) : (d.storeA bs).idValid = d.idValid := rfl
@[simp] theorem Dev.storeA_err (bs : List Byte) : (d.storeA bs).err = d.err := rfl
@[simp] theorem Dev.storeA_addr (bs : List Byte) : (d.storeA bs).addr = d.addr := rfl
@[simp] theorem Dev.storeA_model (bs : List Byte) : (d.storeA bs).model = d.model := rfl
@[simp] theorem Dev.storeA_crcObs (bs : List Byte) : (d.storeA bs).crcObs = d.crcObs := rfl
@[simp] theorem Dev.storeA_crcExp (bs : List Byte) : (d.storeA bs).crcExp = d.crcExp := rfl
@[simp] theorem Dev.storeA_phase (bs : List Byte) : (d.storeA bs).phase = d.phase := rfl
@[simp] theorem Dev.storeA_opb (bs : List Byte) : (d.storeA bs).opb = d.opb := rfl
@[simp] theorem Dev.storeA_res (bs : List Byte) : (d.storeA bs).res = d.res := rfl
@[simp] theorem Dev.storeA_serial (bs : List Byte) : (d.storeA bs).serial = d.serial := rfl
@[simp] theorem Dev.storeA_rspA (bs : List Byte) : (d.storeA bs).rspA = storeBytes d.rspA 0 bs := rfl
@[simp] theorem Dev.storeA_rspB (bs : List Byte) : (d.storeA bs).rspB = d.rspB := rfl
@[simp] theorem Dev.storeA_hist (bs : List Byte) : (d.storeA bs).hist = d.hist := rfl

@[simp] theorem Dev.storeB_curop (bs : List Byte) : (d.storeB bs).curop = d.curop := rfl
@[simp] theorem Dev.storeB_lenL (bs : List Byte) : (d.storeB bs).lenL = d.lenL := rfl
@[simp] theorem Dev.storeB_busy (bs : List Byte) : (d.storeB bs).busy = d.busy := rfl
@[simp] theorem Dev.storeB_done (bs : List Byte) : (d.storeB bs).done = d.done := rfl
@[simp] theorem Dev.storeB_resValid (bs : List Byte) : (d.storeB bs).resValid = d.resValid := rfl
@[simp] theorem Dev.storeB_crcOk (bs : List Byte) : (d.storeB bs).crcOk = d.crcOk := rfl
@[simp] theorem Dev.storeB_idValid (bs : List Byte) : (d.storeB bs).idValid = d.idValid := rfl
@[simp] theorem Dev.storeB_err (bs : List Byte) : (d.storeB bs).err = d.err := rfl
@[simp] theorem Dev.storeB_addr (bs : List Byte) : (d.storeB bs).addr = d.addr := rfl
@[simp] theorem Dev.storeB_model (bs : List Byte) : (d.storeB bs).model = d.model := rfl
@[simp] theorem Dev.storeB_crcObs (bs : List Byte) : (d.storeB bs).crcObs = d.crcObs := rfl
@[simp] theorem Dev.storeB_crcExp (bs : List Byte) : (d.storeB bs).crcExp = d.crcExp := rfl
@[simp] theorem Dev.storeB_phase (bs : List Byte) : (d.storeB bs).phase = d.phase := rfl
@[simp] theorem Dev.storeB_opb (bs : List Byte) : (d.storeB bs).opb = d.opb := rfl
@[simp] theorem Dev.storeB_res (bs : List Byte) : (d.storeB bs).res = d.res := rfl
@[simp] theorem Dev.storeB_serial (bs : List Byte) : (d.storeB bs).serial = d.serial := rfl
@[simp] theorem Dev.storeB_rspA (bs : List Byte) : (d.storeB bs).rspA = d.rspA := rfl
@[simp] theorem Dev.storeB_rspB (bs : List Byte) : (d.storeB bs).rspB = storeBytes d.rspB 0 bs := rfl
@[simp] theorem Dev.storeB_hist (bs : List Byte) : (d.storeB bs).hist = d.hist := rfl

/-! ## Updates of the machine -/

@[simp] theorem State.onDev_dev (f : Dev → Dev) : (s.onDev f).dev = f s.dev := rfl
@[simp] theorem State.onDev_others (f : Dev → Dev) : (s.onDev f).others = s.others := rfl
@[simp] theorem State.onDev_faulted (f : Dev → Dev) : (s.onDev f).faulted = s.faulted := rfl
@[simp] theorem State.onDev_refused (f : Dev → Dev) : (s.onDev f).refused = s.refused := rfl
@[simp] theorem State.onDev_faultNames (f : Dev → Dev) : (s.onDev f).faultNames = s.faultNames := rfl
@[simp] theorem State.onDev_inbox (f : Dev → Dev) : (s.onDev f).inbox = s.inbox := rfl
@[simp] theorem State.onDev_answers (f : Dev → Dev) : (s.onDev f).answers = s.answers := rfl
@[simp] theorem State.onDev_draws (f : Dev → Dev) : (s.onDev f).draws = s.draws := rfl
@[simp] theorem State.onDev_reads (f : Dev → Dev) : (s.onDev f).reads = s.reads := rfl
@[simp] theorem State.onDev_frees (f : Dev → Dev) : (s.onDev f).frees = s.frees := rfl
@[simp] theorem State.onDev_rotor (f : Dev → Dev) : (s.onDev f).rotor = s.rotor := rfl

@[simp] theorem State.markRefused_dev : (s.markRefused).dev = s.dev := rfl
@[simp] theorem State.markRefused_others : (s.markRefused).others = s.others := rfl
@[simp] theorem State.markRefused_faulted : (s.markRefused).faulted = s.faulted := rfl
@[simp] theorem State.markRefused_refused : (s.markRefused).refused = true := rfl
@[simp] theorem State.markRefused_faultNames : (s.markRefused).faultNames = s.faultNames := rfl
@[simp] theorem State.markRefused_inbox : (s.markRefused).inbox = s.inbox := rfl
@[simp] theorem State.markRefused_answers : (s.markRefused).answers = s.answers := rfl
@[simp] theorem State.markRefused_draws : (s.markRefused).draws = s.draws := rfl
@[simp] theorem State.markRefused_reads : (s.markRefused).reads = s.reads := rfl
@[simp] theorem State.markRefused_frees : (s.markRefused).frees = s.frees := rfl
@[simp] theorem State.markRefused_rotor : (s.markRefused).rotor = s.rotor := rfl

@[simp] theorem State.markFault_dev (f : ModelFault) : (s.markFault f).dev = s.dev := rfl
@[simp] theorem State.markFault_others (f : ModelFault) : (s.markFault f).others = s.others := rfl
@[simp] theorem State.markFault_faulted (f : ModelFault) : (s.markFault f).faulted = true := rfl
@[simp] theorem State.markFault_refused (f : ModelFault) : (s.markFault f).refused = s.refused := rfl
@[simp] theorem State.markFault_faultNames (f : ModelFault) : (s.markFault f).faultNames = s.faultNames ++ [f] := rfl
@[simp] theorem State.markFault_inbox (f : ModelFault) : (s.markFault f).inbox = s.inbox := rfl
@[simp] theorem State.markFault_answers (f : ModelFault) : (s.markFault f).answers = s.answers := rfl
@[simp] theorem State.markFault_draws (f : ModelFault) : (s.markFault f).draws = s.draws := rfl
@[simp] theorem State.markFault_reads (f : ModelFault) : (s.markFault f).reads = s.reads := rfl
@[simp] theorem State.markFault_frees (f : ModelFault) : (s.markFault f).frees = s.frees := rfl
@[simp] theorem State.markFault_rotor (f : ModelFault) : (s.markFault f).rotor = s.rotor := rfl

@[simp] theorem State.popAnswer_dev : s.popAnswer.dev = s.dev := by
  unfold State.popAnswer; split <;> rfl
@[simp] theorem State.popAnswer_others : s.popAnswer.others = s.others := by
  unfold State.popAnswer; split <;> rfl
@[simp] theorem State.popAnswer_faulted : s.popAnswer.faulted = s.faulted := by
  unfold State.popAnswer; split <;> rfl
@[simp] theorem State.popAnswer_refused : s.popAnswer.refused = s.refused := by
  unfold State.popAnswer; split <;> rfl
@[simp] theorem State.popAnswer_faultNames : s.popAnswer.faultNames = s.faultNames := by
  unfold State.popAnswer; split <;> rfl
@[simp] theorem State.popAnswer_inbox : s.popAnswer.inbox = s.inbox := by
  unfold State.popAnswer; split <;> rfl
@[simp] theorem State.popAnswer_reads : s.popAnswer.reads = s.reads := by
  unfold State.popAnswer; split <;> rfl
@[simp] theorem State.popAnswer_frees : s.popAnswer.frees = s.frees := by
  unfold State.popAnswer; split <;> rfl
@[simp] theorem State.popAnswer_rotor : s.popAnswer.rotor = s.rotor := by
  unfold State.popAnswer; split <;> rfl

/-- Using an answer up leaves the state a function of the other fields: it commutes with a handle's update. -/
theorem State.popAnswer_onDev (f : Dev → Dev) :
    s.popAnswer.onDev f = (s.onDev f).popAnswer := by
  unfold State.popAnswer State.onDev; cases s with | mk => simp only; split <;> rfl

/-- With an answer at hand, that answer is next and is used up. -/
theorem State.answers_cons {a : Answer} {rest : List Answer} (h : s.answers = a :: rest) :
    s.nextAnswer = a ∧ s.popAnswer = { s with answers := rest } := by
  simp [State.nextAnswer, State.popAnswer, h]

/-! ## Changes of the addressed handle -/

@[simp] theorem build_dev (a : BusAddr) : (build a s).dev = s.dev := rfl
@[simp] theorem build_others (a : BusAddr) : (build a s).others = s.others ++ [Dev.reset a] := rfl
@[simp] theorem build_faulted (a : BusAddr) : (build a s).faulted = s.faulted := rfl
@[simp] theorem build_refused (a : BusAddr) : (build a s).refused = s.refused := rfl
@[simp] theorem build_faultNames (a : BusAddr) : (build a s).faultNames = s.faultNames := rfl
@[simp] theorem build_inbox (a : BusAddr) : (build a s).inbox = s.inbox := rfl
@[simp] theorem build_answers (a : BusAddr) : (build a s).answers = s.answers := rfl
@[simp] theorem build_draws (a : BusAddr) : (build a s).draws = s.draws := rfl
@[simp] theorem build_reads (a : BusAddr) : (build a s).reads = s.reads := rfl
@[simp] theorem build_frees (a : BusAddr) : (build a s).frees = s.frees := rfl
@[simp] theorem build_rotor (a : BusAddr) : (build a s).rotor = s.rotor := rfl

@[simp] theorem blockReset_dev (a : BusAddr) : (blockReset a s).dev = Dev.reset a := rfl
@[simp] theorem blockReset_others (a : BusAddr) : (blockReset a s).others = s.others := by
  unfold blockReset; split <;> simp
@[simp] theorem blockReset_faulted (a : BusAddr) : (blockReset a s).faulted = s.faulted := by
  unfold blockReset; split <;> simp
@[simp] theorem blockReset_refused (a : BusAddr) : (blockReset a s).refused = s.refused := by
  unfold blockReset; split <;> simp
@[simp] theorem blockReset_faultNames (a : BusAddr) : (blockReset a s).faultNames = s.faultNames := by
  unfold blockReset; split <;> simp
@[simp] theorem blockReset_inbox (a : BusAddr) : (blockReset a s).inbox = s.inbox := by
  unfold blockReset; split <;> simp
@[simp] theorem blockReset_reads (a : BusAddr) : (blockReset a s).reads = s.reads := by
  unfold blockReset; split <;> simp
@[simp] theorem blockReset_frees (a : BusAddr) : (blockReset a s).frees = s.frees := by
  unfold blockReset; split <;> simp
@[simp] theorem blockReset_rotor (a : BusAddr) : (blockReset a s).rotor = s.rotor := by
  unfold blockReset; split <;> simp

@[simp] theorem select_faulted (k : Nat) : (select k s).faulted = s.faulted := by
  unfold select; split <;> rfl
@[simp] theorem select_refused (k : Nat) : (select k s).refused = s.refused := by
  unfold select; split <;> rfl
@[simp] theorem select_faultNames (k : Nat) : (select k s).faultNames = s.faultNames := by
  unfold select; split <;> rfl
@[simp] theorem select_inbox (k : Nat) : (select k s).inbox = s.inbox := by
  unfold select; split <;> rfl
@[simp] theorem select_answers (k : Nat) : (select k s).answers = s.answers := by
  unfold select; split <;> rfl
@[simp] theorem select_draws (k : Nat) : (select k s).draws = s.draws := by
  unfold select; split <;> rfl
@[simp] theorem select_reads (k : Nat) : (select k s).reads = s.reads := by
  unfold select; split <;> rfl
@[simp] theorem select_frees (k : Nat) : (select k s).frees = s.frees := by
  unfold select; split <;> rfl
@[simp] theorem select_rotor (k : Nat) : (select k s).rotor = s.rotor := by
  unfold select; split <;> rfl

/-- Selecting a handle that exists exchanges it with the addressed one. -/
theorem select_of_some {k : Nat} {d : Dev} (h : s.others[k]? = some d) :
    select k s = { s with dev := d, others := s.others.set k s.dev } := by
  simp [select, h]

/-- Selecting where there is no handle does nothing. -/
theorem select_of_none {k : Nat} (h : s.others[k]? = none) : select k s = s := by
  simp [select, h]

/-- Selecting does nothing, or exchanges the addressed handle with the one selected. -/
theorem select_cases (k : Nat) :
    select k s = s ∨ ∃ d, s.others[k]? = some d ∧
      select k s = { s with dev := d, others := s.others.set k s.dev } := by
  cases h : s.others[k]? with
  | none => exact .inl (select_of_none s h)
  | some d => exact .inr ⟨d, rfl, select_of_some s h⟩

end Sys2Proof.Machine
end

