-- ==== Sys2Proof/Laws/Turn.lean ====
section
/-! SUPPORT. Said once: what starting an operation can do, what one phase of an operation can do, and what
one step of the machine can do. Every whole-machine rule follows from these. -/

namespace Sys2Proof.Machine

/-! ## Starting -/

/-- A CMD write marks a refusal or starts the operation, and then the transport is free where the operation
needs it (44_session R182, 60_exceptions R221). -/
theorem startOp_cases {v : Byte} {s t : State} (h : startOp v s = .next t) :
    ((s.dev.busy = true ∨ s.busConflict v = true) ∧ t = s.markRefused) ∨
    (s.dev.busy = false ∧ s.busConflict v = false ∧ t = s.onDev fun d => d.begin v) := by
  unfold startOp at h
  split at h
  · next hb =>
    cases h
    exact .inl ⟨by simpa using hb, rfl⟩
  · next hb =>
    cases h
    have : s.dev.busy = false ∧ s.busConflict v = false := by simpa using hb
    exact .inr ⟨this.1, this.2, rfl⟩

/-- A CMD write always answers a next state. -/
theorem startOp_next (v : Byte) (s : State) : ∃ t, startOp v s = .next t := by
  unfold startOp
  split <;> exact ⟨_, rfl⟩

/-- When a CMD write conflicts on the transport (20_memory R64). -/
theorem busConflict_eq_true (s : State) (v : Byte) :
    s.busConflict v = true ↔ s.dev.touchesBus v ∧ ∃ d ∈ s.others, d.midTransfer = true := by
  simp [State.busConflict, Dev.touchesBus, firstPhase_eq_wr1]

theorem busConflict_eq_false (s : State) (v : Byte) :
    s.busConflict v = false ↔ (s.dev.touchesBus v → s.busFree) := by
  rw [← Bool.not_eq_true, busConflict_eq_true, State.busFree]
  constructor
  · intro h ht d hd
    cases hm : d.midTransfer with
    | false => rfl
    | true => exact absurd ⟨ht, d, hd, hm⟩ h
  · rintro h ⟨ht, d, hd, hm⟩
    simp [h ht d hd] at hm

/-! ## One phase -/

/-- The wire command that an operation emits in a write phase, and the phase after it (30_encoding R72,
44_session R181). -/
inductive Emits : Nibble → Phase → List Byte → Phase → Prop
  | measT : Emits 4 .wr1 [0xF3] .dly1
  | measRh : Emits 5 .wr1 [0xF5] .dly1
  | sreset : Emits 6 .wr1 [0xFE] .dly1
  | idA : Emits 7 .wr1 [0xFA, 0x0F] .dly1
  | idB : Emits 7 .wr2 [0xFC, 0xC9] .dly2

/-- The read that an operation makes in a read phase, where its bytes go, and the phase after it (44_session
R181, R185; 43_identity R162, R163). -/
inductive Receives : Nibble → Phase → Nat → (Dev → List Byte → Dev) → Phase → Prop
  | measT : Receives 4 .rd1 3 Dev.storeA .eval
  | measRh : Receives 5 .rd1 3 Dev.storeA .eval
  | idA : Receives 7 .rd1 8 Dev.storeA .wr2
  | idB : Receives 7 .rd2 6 Dev.storeB .eval

/-- The delay of an operation in a delay phase, and the phase after it (44_session R181, R190). -/
inductive Waits : Nibble → Phase → Nat → Phase → Prop
  | measT : Waits 4 .dly1 25 .rd1
  | measRh : Waits 5 .dly1 25 .rd1
  | sreset : Waits 6 .dly1 50 .eval
  | idA : Waits 7 .dly1 25 .rd1
  | idB : Waits 7 .dly2 25 .rd2

theorem emits_iff {op : Nibble} {here after : Phase} {payload : List Byte} :
    Emits op here payload after ↔
      (op = 4 ∧ here = .wr1 ∧ payload = [0xF3] ∧ after = .dly1) ∨
      (op = 5 ∧ here = .wr1 ∧ payload = [0xF5] ∧ after = .dly1) ∨
      (op = 6 ∧ here = .wr1 ∧ payload = [0xFE] ∧ after = .dly1) ∨
      (op = 7 ∧ here = .wr1 ∧ payload = [0xFA, 0x0F] ∧ after = .dly1) ∨
      (op = 7 ∧ here = .wr2 ∧ payload = [0xFC, 0xC9] ∧ after = .dly2) := by
  constructor
  · rintro (_ | _ | _ | _ | _) <;> simp
  · rintro (⟨rfl, rfl, rfl, rfl⟩ | ⟨rfl, rfl, rfl, rfl⟩ | ⟨rfl, rfl, rfl, rfl⟩ | ⟨rfl, rfl, rfl, rfl⟩ |
      ⟨rfl, rfl, rfl, rfl⟩) <;> constructor

theorem receives_iff {op : Nibble} {here after : Phase} {n : Nat} {store : Dev → List Byte → Dev} :
    Receives op here n store after ↔
      (op = 4 ∧ here = .rd1 ∧ n = 3 ∧ store = Dev.storeA ∧ after = .eval) ∨
      (op = 5 ∧ here = .rd1 ∧ n = 3 ∧ store = Dev.storeA ∧ after = .eval) ∨
      (op = 7 ∧ here = .rd1 ∧ n = 8 ∧ store = Dev.storeA ∧ after = .wr2) ∨
      (op = 7 ∧ here = .rd2 ∧ n = 6 ∧ store = Dev.storeB ∧ after = .eval) := by
  constructor
  · rintro (_ | _ | _ | _) <;> simp
  · rintro (⟨rfl, rfl, rfl, rfl, rfl⟩ | ⟨rfl, rfl, rfl, rfl, rfl⟩ | ⟨rfl, rfl, rfl, rfl, rfl⟩ |
      ⟨rfl, rfl, rfl, rfl, rfl⟩) <;> constructor

theorem waits_iff {op : Nibble} {here after : Phase} {ms : Nat} :
    Waits op here ms after ↔
      (op = 4 ∧ here = .dly1 ∧ ms = 25 ∧ after = .rd1) ∨
      (op = 5 ∧ here = .dly1 ∧ ms = 25 ∧ after = .rd1) ∨
      (op = 6 ∧ here = .dly1 ∧ ms = 50 ∧ after = .eval) ∨
      (op = 7 ∧ here = .dly1 ∧ ms = 25 ∧ after = .rd1) ∨
      (op = 7 ∧ here = .dly2 ∧ ms = 25 ∧ after = .rd2) := by
  constructor
  · rintro (_ | _ | _ | _ | _) <;> simp
  · rintro (⟨rfl, rfl, rfl, rfl⟩ | ⟨rfl, rfl, rfl, rfl⟩ | ⟨rfl, rfl, rfl, rfl⟩ | ⟨rfl, rfl, rfl, rfl⟩ |
      ⟨rfl, rfl, rfl, rfl⟩) <;> constructor

/-- What EVAL makes of a handle, where it ends the operation `op` (40_crc R107, R108; 41_packer R123, R124;
30_encoding R83; 44_session R185, R188; 43_identity R164). -/
inductive Ends (op : Nibble) (d : Dev) : Dev → Prop
  | crc8 (d0 d1 : Byte) : op = 1 → d.opb[0] = some d0 → d.opb[1] = some d1 →
      Ends op d ({ d with
        res := some ((crc8 d0 d1).setWidth 64)
        crcExp := crc8 d0 d1
        resValid := true }.finish .noError)
  | verify (d0 d1 r : Byte) : op = 2 → d.opb[0] = some d0 → d.opb[1] = some d1 →
      d.opb[2] = some r →
      Ends op d ({ d with
        crcObs := r
        crcExp := crc8 d0 d1
        res := some ((crc8 d0 d1).setWidth 64)
        resValid := true
        crcOk := verify d0 d1 r }.finish .noError)
  | packIllegal : op = 3 → d.lenL.toNat = 0 ∨ 8 < d.lenL.toNat → Ends op d (d.finish .illegalOperand)
  | pack (bs : List Byte) : op = 3 → ¬ (d.lenL.toNat = 0 ∨ 8 < d.lenL.toNat) →
      d.operands d.lenL.toNat = some bs →
      Ends op d ({ d with res := some (BitVec.ofNat 64 (pack bs)), resValid := true }.finish .noError)
  | illegal : op = 0 ∨ 8 ≤ op.toNat → Ends op d (d.finish .illegalOp)
  | measured (hi lo rcv : Byte) : op = 4 ∨ op = 5 → d.rspA[0] = some hi → d.rspA[1] = some lo →
      d.rspA[2] = some rcv → Machine.crc8 hi lo = rcv →
      Ends op d ({ d with
        crcObs := rcv
        crcExp := Machine.crc8 hi lo
        res := some (BitVec.ofNat 64 (Machine.pack [hi, lo]))
        crcOk := true
        resValid := true }.finish .noError)
  | mismatch (hi lo rcv : Byte) : op = 4 ∨ op = 5 → d.rspA[0] = some hi → d.rspA[1] = some lo →
      d.rspA[2] = some rcv → Machine.crc8 hi lo ≠ rcv →
      Ends op d ({ d with crcObs := rcv, crcExp := Machine.crc8 hi lo }.finish .checksumError)
  | sreset : op = 6 → Ends op d (d.finish .noError)
  | cached (v : Word64) : op = 7 → d.idValid = true → d.serial = some v →
      Ends op d ({ d with res := some v, resValid := true }.finish .noError)
  | resolved (a b : List Byte) : op = 7 → d.idValid = false → allSome d.rspA.toList = some a →
      allSome d.rspB.toList = some b →
      Ends op d ({ d with
        serial := some (serialOf a b)
        model := some (modelOf (rspByte b 0))
        idValid := true
        res := some (serialOf a b)
        resValid := true }.finish .noError)

/-- An operand byte that EVAL of the operation `op` reads has no value (60_exceptions R222). -/
def Missing (op : Nibble) (d : Dev) : Prop :=
  (op = 1 ∧ (d.opb[0] = none ∨ d.opb[1] = none)) ∨
  (op = 2 ∧ (d.opb[0] = none ∨ d.opb[1] = none ∨ d.opb[2] = none)) ∨
  (op = 3 ∧ 1 ≤ d.lenL.toNat ∧ d.lenL.toNat ≤ 8 ∧ d.operands d.lenL.toNat = none)

/-- One BLOCK step of operation `op` (44_session R183). -/
inductive Move (op : Nibble) (s : State) : State → Prop
  | hang : s.nextAnswer = .noAnswer →
      (∃ payload p, Emits op s.dev.phase payload p) ∨
        (∃ n store p, Receives op s.dev.phase n store p) → Move op s s
  | wrote {payload : List Byte} {p : Phase} (data : Vector Byte 8) : s.nextAnswer = .ok data →
      Emits op s.dev.phase payload p →
      Move op s (s.popAnswer.onDev fun d => (d.record (.write d.addr payload .ok)).goto p)
  | writeFailed {payload : List Byte} {p : Phase} : s.nextAnswer = .transportError →
      Emits op s.dev.phase payload p →
      Move op s (s.popAnswer.onDev fun d =>
        (d.record (.write d.addr payload .transportError)).finish .transportError)
  | received {n : Nat} {store : Dev → List Byte → Dev} {p : Phase} (data : Vector Byte 8) :
      s.nextAnswer = .ok data → Receives op s.dev.phase n store p →
      Move op s (s.popAnswer.onDev fun d =>
        (store (d.record (.read d.addr n (.ok (data.toList.take n)))) (data.toList.take n)).goto p)
  | readFailed {n : Nat} {store : Dev → List Byte → Dev} {p : Phase} :
      s.nextAnswer = .transportError → Receives op s.dev.phase n store p →
      Move op s (s.popAnswer.onDev fun d =>
        (d.record (.read d.addr n .transportError)).finish .transportError)
  | waited {ms : Nat} {p : Phase} : Waits op s.dev.phase ms p →
      Move op s (s.onDev fun d => (d.record (.delay ms)).goto p)
  | noOperand : s.dev.phase = .eval → Missing op s.dev → Move op s (s.markFault .operandNoValue)
  | ended {d : Dev} : s.dev.phase = .eval → Ends op s.dev d → Move op s { s with dev := d }

variable {s t : State} {len : Nibble}

/-- A MemWrite, by what the transport does (00_scope R14). -/
theorem memWrite_move {op : Nibble} {payload : List Byte} {p : Phase}
    (h : Emits op s.dev.phase payload p) : Move op s (memWrite payload p s) := by
  unfold memWrite
  split
  · next ha => exact .hang ha (.inl ⟨_, _, h⟩)
  · next ha => exact .writeFailed ha h
  · next ha => exact .wrote _ ha h

/-- A MemRead, by what the transport does (00_scope R14). -/
theorem memRead_move {op : Nibble} {n : Nat} {store : Dev → List Byte → Dev} {p : Phase}
    (h : Receives op s.dev.phase n store p) : Move op s (memRead n store p s) := by
  unfold memRead
  split
  · next ha => exact .hang ha (.inr ⟨_, _, _, h⟩)
  · next ha => exact .readFailed ha h
  · next ha => exact .received _ ha h

theorem wireCommand_move {op : Nibble} {payload : List Byte} {here p : Phase}
    (he : Emits op here payload p) (h : wireCommand here payload p s = .next t) : Move op s t := by
  unfold wireCommand at h
  split at h
  · next hp => cases h; exact memWrite_move (hp ▸ he)
  · cases h

theorem measEval_move {op : Nibble} (hop : op = 4 ∨ op = 5) (hp : s.dev.phase = .eval)
    (h : measEval s = .next t) : Move op s t := by
  unfold measEval at h
  split at h
  · next hi lo rcv h0 h1 h2 =>
    split at h <;> cases h
    · next hc => exact .ended hp (.measured hi lo rcv hop h0 h1 h2 hc)
    · next hc => exact .ended hp (.mismatch hi lo rcv hop h0 h1 h2 hc)
  · cases h

theorem measT_move (hp : s.dev.phase ≠ .idle) (h : execMeasT len s = .next t) : Move 4 s t := by
  simp only [execMeasT, operation, if_neg hp] at h
  unfold measurement at h
  split at h
  · exact wireCommand_move .measT h
  · next hp => cases h; exact .waited (hp ▸ .measT)
  · next hp => cases h; exact memRead_move (hp ▸ .measT)
  · next hp => exact measEval_move (.inl rfl) hp h
  · cases h

theorem measRh_move (hp : s.dev.phase ≠ .idle) (h : execMeasRh len s = .next t) : Move 5 s t := by
  simp only [execMeasRh, operation, if_neg hp] at h
  unfold measurement at h
  split at h
  · exact wireCommand_move .measRh h
  · next hp => cases h; exact .waited (hp ▸ .measRh)
  · next hp => cases h; exact memRead_move (hp ▸ .measRh)
  · next hp => exact measEval_move (.inr rfl) hp h
  · cases h

theorem sreset_move (hp : s.dev.phase ≠ .idle) (h : execSreset len s = .next t) : Move 6 s t := by
  simp only [execSreset, operation, if_neg hp] at h
  unfold sresetBlock at h
  split at h
  · exact wireCommand_move .sreset h
  · next hp => cases h; exact .waited (hp ▸ .sreset)
  · next hp => cases h; exact .ended hp (.sreset rfl)
  · cases h

theorem readId_move (hp : s.dev.phase ≠ .idle) (h : execReadId len s = .next t) : Move 7 s t := by
  simp only [execReadId, operation, if_neg hp] at h
  unfold readIdBlock at h
  split at h
  · exact wireCommand_move .idA h
  · next hp => cases h; exact .waited (hp ▸ .idA)
  · next hp => cases h; exact memRead_move (hp ▸ .idA)
  · exact wireCommand_move .idB h
  · next hp => cases h; exact .waited (hp ▸ .idB)
  · next hp => cases h; exact memRead_move (hp ▸ .idB)
  · next hp =>
    unfold readIdEval at h
    split at h
    · next hv =>
      split at h
      · next v hs => cases h; exact .ended hp (.cached v rfl hv hs)
      · cases h
    · next hv =>
      split at h
      · next a b ha hb => cases h; exact .ended hp (.resolved a b rfl (by simpa using hv) ha hb)
      · cases h
  · cases h

/-- An operation that is EVAL only: what its EVAL does. -/
theorem evalOnly_next {body : State → Result} (h : evalOnly body s = .next t) :
    s.dev.phase = .eval ∧ body s = .next t := by
  unfold evalOnly at h
  split at h
  · next hp => exact ⟨hp, h⟩
  · cases h

theorem crc8_move (hp : s.dev.phase ≠ .idle) (h : execCrc8 len s = .next t) : Move 1 s t := by
  simp only [execCrc8, operation, if_neg hp] at h
  obtain ⟨he, h⟩ := evalOnly_next h
  unfold crc8Eval at h
  split at h <;> cases h
  · next d0 d1 h0 h1 => exact .ended he (.crc8 d0 d1 rfl h0 h1)
  · next hn =>
    refine .noOperand he (.inl ⟨rfl, ?_⟩)
    cases h0 : s.dev.opb[0] with
    | none => exact .inl rfl
    | some d0 => exact .inr (Option.eq_none_iff_forall_ne_some.mpr fun d1 h1 => hn d0 d1 h0 h1)

theorem verify_move (hp : s.dev.phase ≠ .idle) (h : execVerify len s = .next t) : Move 2 s t := by
  simp only [execVerify, operation, if_neg hp] at h
  obtain ⟨he, h⟩ := evalOnly_next h
  unfold verifyEval at h
  split at h <;> cases h
  · next d0 d1 r h0 h1 h2 => exact .ended he (.verify d0 d1 r rfl h0 h1 h2)
  · next hn =>
    refine .noOperand he (.inr (.inl ⟨rfl, ?_⟩))
    cases h0 : s.dev.opb[0] with
    | none => exact .inl rfl
    | some d0 =>
      cases h1 : s.dev.opb[1] with
      | none => exact .inr (.inl rfl)
      | some d1 =>
        exact .inr (.inr (Option.eq_none_iff_forall_ne_some.mpr fun r h2 => hn d0 d1 r h0 h1 h2))

theorem pack_move (hp : s.dev.phase ≠ .idle) (h : execPack len s = .next t) : Move 3 s t := by
  simp only [execPack, operation, if_neg hp] at h
  obtain ⟨he, h⟩ := evalOnly_next h
  unfold packEval at h
  split at h
  · next hl => cases h; exact .ended he (.packIllegal rfl hl)
  · next hl =>
    split at h <;> cases h
    · next bs hb => exact .ended he (.pack bs rfl hl hb)
    · next hb => exact .noOperand he (.inr (.inr ⟨rfl, by omega, by omega, hb⟩))

theorem illegal_move {op : Nibble} (hop : op = 0 ∨ 8 ≤ op.toNat)
    (h : evalOnly illegalEval s = .next t) : Move op s t := by
  obtain ⟨he, h⟩ := evalOnly_next h
  cases h
  exact .ended he (.illegal hop)

/-- What an operation or a wire command can do: from IDLE a start, or one BLOCK step. -/
theorem exec_block_cases {i : Instr} (hi : isBlockRow i = true) (h : exec i s = .next t) :
    (s.dev.phase = .idle ∧ ∃ v, startOp v s = .next t) ∨
    (s.dev.phase ≠ .idle ∧ ∃ op, Move op s t ∧ (isPureRow i = true → op.toNat < 4 ∨ 8 ≤ op.toNat)) := by
  by_cases hp : s.dev.phase = .idle
  · left
    refine ⟨hp, ?_⟩
    cases i <;> simp only [exec, isBlockRow] at h hi <;>
      simp_all [execCrc8, execVerify, execPack, execMeasT, execMeasRh, execSreset, execReadId,
        execReservedOpsel0, execReservedOpsel8To15, operation, execWireMeasureT, execWireMeasureRh,
        execWireReset, execWireIdA, execWireIdB, wireCommand]
    all_goals exact ⟨_, h⟩
  · right
    refine ⟨hp, ?_⟩
    cases i <;> simp only [exec] at h
    case crc8 => exact ⟨1, crc8_move hp h, fun _ => by decide⟩
    case verify => exact ⟨2, verify_move hp h, fun _ => by decide⟩
    case pack => exact ⟨3, pack_move hp h, fun _ => by decide⟩
    case measT => exact ⟨4, measT_move hp h, by simp [isPureRow]⟩
    case measRh => exact ⟨5, measRh_move hp h, by simp [isPureRow]⟩
    case sreset => exact ⟨6, sreset_move hp h, by simp [isPureRow]⟩
    case readId => exact ⟨7, readId_move hp h, by simp [isPureRow]⟩
    case reservedOpsel0 =>
      simp only [execReservedOpsel0, operation, if_neg hp] at h
      exact ⟨0, illegal_move (.inl rfl) h, fun _ => by decide⟩
    case reservedOpsel8To15 =>
      simp only [execReservedOpsel8To15, operation, if_neg hp] at h
      exact ⟨0, illegal_move (.inl rfl) h, fun _ => by decide⟩
    case wireMeasureT => exact ⟨4, wireCommand_move .measT h, by simp [isPureRow]⟩
    case wireMeasureRh => exact ⟨5, wireCommand_move .measRh h, by simp [isPureRow]⟩
    case wireReset => exact ⟨6, wireCommand_move .sreset h, by simp [isPureRow]⟩
    case wireIdA => exact ⟨7, wireCommand_move .idA h, by simp [isPureRow]⟩
    case wireIdB => exact ⟨7, wireCommand_move .idB h, by simp [isPureRow]⟩
    case hw => simp [isBlockRow] at hi
    case hr => simp [isBlockRow] at hi

/-- A turn of the sequencer is one BLOCK step of CUROP (44_session R183). -/
theorem blockTurn_move (hp : s.dev.phase ≠ .idle) (h : blockTurn s = .next t) :
    Move s.dev.curop s t := by
  rw [blockTurn, if_neg hp, decodeCmd_cmdByte] at h
  have hop : ∀ op : Nibble, s.dev.curop.toNat = op.toNat → s.dev.curop = op :=
    fun _ e => BitVec.eq_of_toNat_eq e
  split at h <;> simp only [exec] at h
  · next e =>
    simp only [execReservedOpsel0, operation, if_neg hp] at h
    exact illegal_move (.inl (hop 0 e)) h
  · next e => rw [hop 1 e]; exact crc8_move hp h
  · next e => rw [hop 2 e]; exact verify_move hp h
  · next e => rw [hop 3 e]; exact pack_move hp h
  · next e => rw [hop 4 e]; exact measT_move hp h
  · next e => rw [hop 5 e]; exact measRh_move hp h
  · next e => rw [hop 6 e]; exact sreset_move hp h
  · next e => rw [hop 7 e]; exact readId_move hp h
  · next h0 h1 h2 h3 h4 h5 h6 h7 =>
    simp only [execReservedOpsel8To15, operation, if_neg hp] at h
    refine illegal_move (.inr ?_) h
    by_contra hlt
    have : s.dev.curop.toNat = 0 ∨ s.dev.curop.toNat = 1 ∨ s.dev.curop.toNat = 2 ∨
        s.dev.curop.toNat = 3 ∨ s.dev.curop.toNat = 4 ∨ s.dev.curop.toNat = 5 ∨
        s.dev.curop.toNat = 6 ∨ s.dev.curop.toNat = 7 := by omega
    simp_all

/-! ## The phase after a BLOCK step -/

/-- What EVAL makes of a handle is in IDLE (44_session R181). -/
theorem ends_phase {op : Nibble} {d e : Dev} (h : Ends op d e) : e.phase = .idle := by
  cases h <;> rfl

theorem missing_not_ready {d : Dev} (h : Missing d.curop d) : ¬ d.operandsReady := by
  rintro ⟨h1, h2, h3⟩
  rcases h with ⟨e, h⟩ | ⟨e, h⟩ | ⟨e, hl, hu, h⟩
  · have := h1 e; rcases h with h | h <;> simp [h] at this
  · have := h2 e; rcases h with h | h | h <;> simp [h] at this
  · have := h3 e hl hu; simp [h] at this

/-- A BLOCK step leads to another phase, or it leaves the handle as it is: a call that never answers, or
an operand byte without a value (60_exceptions R216, R222). -/
theorem move_phase (h : Move s.dev.curop s t) :
    t.dev.phase ≠ s.dev.phase ∨ (t.dev = s.dev ∧ s.stalled) := by
  cases h with
  | hang ha hc =>
    refine .inr ⟨rfl, .inr (.inl ⟨?_, ha⟩)⟩
    rcases hc with ⟨_, _, h⟩ | ⟨_, _, _, h⟩
    · rcases emits_iff.mp h with h | h | h | h | h <;> simp [h.2.1]
    · rcases receives_iff.mp h with h | h | h | h <;> simp [h.2.1]
  | wrote data ha h => rcases emits_iff.mp h with h | h | h | h | h <;> simp [h]
  | writeFailed ha h => rcases emits_iff.mp h with h | h | h | h | h <;> simp [h]
  | received data ha h => rcases receives_iff.mp h with h | h | h | h <;> simp [h]
  | readFailed ha h => rcases receives_iff.mp h with h | h | h | h <;> simp [h]
  | waited h => rcases waits_iff.mp h with h | h | h | h | h <;> simp [h]
  | noOperand hp hm => exact .inr ⟨rfl, .inr (.inr ⟨hp, missing_not_ready hm⟩)⟩
  | ended hp he => left; rw [hp]; simp [ends_phase he]

/-- An EVAL that ends its operation had the operand bytes it reads. -/
theorem ends_ready {d e : Dev} (h : Ends d.curop d e) : d.operandsReady := by
  refine ⟨fun e => ?_, fun e => ?_, fun e hl hu => ?_⟩ <;> cases h <;> simp_all
  all_goals omega

/-- A stalled handle is left as it is by its own BLOCK step. -/
theorem move_of_stalled (hp : s.dev.phase ≠ .idle) (hs : s.stalled) (h : Move s.dev.curop s t) :
    t.dev = s.dev := by
  rcases hs with hi | ⟨hc, hn⟩ | ⟨he, hr⟩
  · exact absurd hi hp
  · cases h with
    | waited h => rcases waits_iff.mp h with h | h | h | h | h <;> simp [h] at hc
    | ended h => simp [h] at hc
    | _ => simp_all
  · cases h with
    | wrote _ _ h => rcases emits_iff.mp h with h | h | h | h | h <;> simp [h] at he
    | writeFailed _ h => rcases emits_iff.mp h with h | h | h | h | h <;> simp [h] at he
    | received _ _ h => rcases receives_iff.mp h with h | h | h | h <;> simp [h] at he
    | readFailed _ h => rcases receives_iff.mp h with h | h | h | h <;> simp [h] at he
    | waited h => rcases waits_iff.mp h with h | h | h | h | h <;> simp [h] at he
    | ended _ h => exact absurd (ends_ready h) hr
    | _ => rfl

/-- A BLOCK step leaves the other handles, the inbox and the round robin alone. -/
theorem move_frame {op : Nibble} (h : Move op s t) :
    t.others = s.others ∧ t.inbox = s.inbox ∧ t.reads = s.reads ∧ t.frees = s.frees ∧
    t.refused = s.refused ∧ t.rotor = s.rotor := by
  cases h <;> simp

/-! ## Host actions -/

/-- A host read changes nothing but what HOST holds and, for a field without a value, the mark. -/
theorem execHr_cases {off : Byte} (h : execHr off s = .next t) :
    (∃ b, peek s.dev off = some b ∧ t = { s with reads := s.reads ++ [(off, b)] }) ∨
    (peek s.dev off = none ∧ t = { s.markFault .readNoValue with
      reads := s.reads ++ [(off, Config.unspecByte s.frees)], frees := s.frees + 1 }) := by
  unfold execHr at h
  split at h
  · next b hb => cases h; exact .inl ⟨b, hb, rfl⟩
  · next hb => cases h; exact .inr ⟨hb, rfl⟩

/-- A host write starts an operation, marks a refusal, stores an operand byte, or does nothing. -/
theorem execHw_cases {off v : Byte} (h : execHw off v s = .next t) :
    (off.toNat = 0 ∧ startOp v s = .next t) ∨
    t = s.markRefused ∨
    (s.dev.busy = false ∧ 0x08 ≤ off.toNat ∧ off.toNat < 0x10 ∧
      t = s.onDev fun d => { d with opb := d.opb.setIfInBounds (off.toNat - 0x08) (some v) }) ∨
    t = s := by
  unfold execHw at h
  split at h
  · next h0 => exact .inl ⟨h0, h⟩
  · split at h
    · next hr =>
      unfold writeOperand at h
      split at h
      · cases h; exact .inr (.inl rfl)
      · next hb => cases h; exact .inr (.inr (.inl ⟨by simpa using hb, hr.1, hr.2, rfl⟩))
    · cases h; exact .inr (.inr (.inr rfl))

theorem execHr_next (off : Byte) (s : State) : ∃ t, execHr off s = .next t := by
  unfold execHr; split <;> exact ⟨_, rfl⟩

theorem execHw_next (off v : Byte) (s : State) : ∃ t, execHw off v s = .next t := by
  unfold execHw writeOperand
  split
  · exact startOp_next v s
  · split
    · split <;> exact ⟨_, rfl⟩
    · exact ⟨_, rfl⟩

/-! ## One act -/

/-- What BLOCK or HOST can do to the state `s` they act on (the inbox entry taken already gone): a BLOCK
step, nothing, a host read, a host write. -/
inductive Acts : State → State → Prop
  | block {s t : State} : s.dev.phase ≠ .idle → Move s.dev.curop s t → Acts s t
  | nothing {s : State} : Acts s s
  | read {s t : State} {off : Byte} : execHr off s = .next t → Acts s t
  | write {s t : State} {off v : Byte} : execHw off v s = .next t → Acts s t

theorem blockTurn_acts (h : blockTurn s = .next t) : Acts s t := by
  by_cases hp : s.dev.phase = .idle
  · rw [blockTurn, if_pos hp] at h; cases h; exact .nothing
  · exact .block hp (blockTurn_move hp h)

theorem hostTurn_acts {d : Dir} {bytes : List Byte} (h : hostTurn d bytes s = .next t) :
    Acts s t := by
  unfold hostTurn at h
  split at h
  · next i hi =>
    match d, bytes, hi with
    | .write, [off, v], hi => cases hi; exact .write h
    | .read, [off], hi => cases hi; exact .read h
  · cases h

/-! ## One step of some sequencer -/

/-- What a BLOCK step of the `k`-th other handle does: that handle takes its step, on the same transport and
with the same marks, and every other handle stays as it is; in IDLE nothing happens. -/
inductive OtherActs (k : Nat) (s : State) : State → Prop
  | nothing : (∀ d, s.others[k]? = some d → d.phase = .idle) → OtherActs k s s
  | block {d : Dev} {u : State} : s.others[k]? = some d → d.phase ≠ .idle →
      blockTurn { s with dev := d, others := s.others.set k s.dev } = .next u →
      OtherActs k s { u with dev := s.dev, others := s.others.set k u.dev }

theorem otherTurn_acts {k : Nat} (h : otherTurn k s = .next t) : OtherActs k s t := by
  unfold otherTurn at h
  split at h
  · next hn => cases h; exact .nothing (by simp [hn])
  · next d hd =>
    split at h <;> cases h
    next u hu =>
    by_cases hp : d.phase = .idle
    · rw [blockTurn, if_pos hp] at hu
      cases hu
      obtain ⟨hk, rfl⟩ := List.getElem?_eq_some_iff.mp hd
      simpa using OtherActs.nothing (s := s) (k := k) (by simp [hk, hp])
    · exact .block hd hp hu

/-- The handle whose turn it is takes its BLOCK step. -/
theorem roundRobin_cases (h : roundRobin s = .next t) :
    (s.rotor % (s.others.length + 1) = 0 ∧ blockTurn { s with rotor := s.rotor + 1 } = .next t) ∨
    ∃ k, s.rotor % (s.others.length + 1) = k + 1 ∧ OtherActs k { s with rotor := s.rotor + 1 } t := by
  unfold roundRobin at h
  split at h
  · next e => exact .inl ⟨e, h⟩
  · next k e => exact .inr ⟨k, e, otherTurn_acts h⟩

/-- A turn of a stalled handle leaves it as it is. -/
theorem blockTurn_of_stalled (hs : s.stalled) (h : blockTurn s = .next t) : t.dev = s.dev := by
  by_cases hp : s.dev.phase = .idle
  · rw [blockTurn, if_pos hp] at h; cases h; rfl
  · exact move_of_stalled hp hs (blockTurn_move hp h)

/-- The addressed handle has its step where that leads to another phase or the others are in IDLE. -/
theorem fairTurn_of_free (h : ¬ s.stalled ∨ s.othersIdle) : fairTurn s = blockTurn s := by
  unfold fairTurn
  split
  · next u hu =>
    rw [hu, if_pos]
    refine h.imp_left fun hs => ?_
    have hp : s.dev.phase ≠ .idle := fun hi => hs (.inl hi)
    exact (move_phase (blockTurn_move hp hu)).resolve_right fun h => hs h.2
  · next f hf => rw [hf]
  · next r hr => rw [hr]

/-- A stalled handle leaves the step to the next one in turn. -/
theorem fairTurn_of_stalled {u : State} (hs : s.stalled) (ho : ¬ s.othersIdle)
    (hu : blockTurn s = .next u) : fairTurn s = roundRobin s := by
  have hd := blockTurn_of_stalled hs hu
  simp [fairTurn, hu, hd, ho]

/-- What a step left to BLOCK does: the addressed handle's BLOCK step, where that leads to another phase or
the others are in IDLE; otherwise the BLOCK step of the handle whose turn it is. -/
theorem fairTurn_cases (h : fairTurn s = .next t) :
    ((¬ s.stalled ∨ s.othersIdle) ∧ blockTurn s = .next t) ∨
    (s.stalled ∧ ¬ s.othersIdle ∧
      ((s.rotor % (s.others.length + 1) = 0 ∧ blockTurn { s with rotor := s.rotor + 1 } = .next t) ∨
      ∃ k, s.rotor % (s.others.length + 1) = k + 1 ∧
        OtherActs k { s with rotor := s.rotor + 1 } t)) := by
  by_cases hf : ¬ s.stalled ∨ s.othersIdle
  · rw [fairTurn_of_free hf] at h
    exact .inl ⟨hf, h⟩
  · rw [not_or, not_not] at hf
    refine .inr ⟨hf.1, hf.2, roundRobin_cases ?_⟩
    cases hu : blockTurn s with
    | next u => rw [← fairTurn_of_stalled hf.1 hf.2 hu, h]
    | fault f => simp [fairTurn, hu] at h
    | refused r => simp [fairTurn, hu] at h

/-! ## One step -/

/-- The inversion lemma of the step: it leaves the inbox or takes its first entry, and then BLOCK or HOST
acts on the addressed handle, or BLOCK on another one while the addressed one is stalled, or the entry taken
resets the handle, builds one or selects one. -/
theorem step_cases (h : step s = .next t) :
    (∃ inbox rotor, (inbox = s.inbox ∨ inbox = s.inbox.tail) ∧
      Acts { s with inbox := inbox, rotor := rotor } t) ∨
    (s.leftToBlock ∧ s.stalled ∧ ∃ k, OtherActs k { s with rotor := s.rotor + 1 } t) ∨
    (∃ a, s.inbox.head? = some (.blockReset a) ∧ t = blockReset a { s with inbox := s.inbox.tail }) ∨
    (∃ a, s.inbox.head? = some (.build a) ∧ t = build a { s with inbox := s.inbox.tail }) ∨
    (∃ k, s.inbox.head? = some (.select k) ∧ t = select k { s with inbox := s.inbox.tail }) := by
  have left : s.leftToBlock → fairTurn s = .next t →
      (∃ inbox rotor, (inbox = s.inbox ∨ inbox = s.inbox.tail) ∧
        Acts { s with inbox := inbox, rotor := rotor } t) ∨
      (s.leftToBlock ∧ s.stalled ∧ ∃ k, OtherActs k { s with rotor := s.rotor + 1 } t) := by
    intro hl hf
    rcases fairTurn_cases hf with ⟨-, hb⟩ | ⟨hs, -, ⟨-, hb⟩ | ⟨k, -, ho⟩⟩
    · exact .inl ⟨s.inbox, s.rotor, .inl rfl, blockTurn_acts hb⟩
    · exact .inl ⟨s.inbox, s.rotor + 1, .inl rfl, blockTurn_acts hb⟩
    · exact .inr ⟨hl, hs, k, ho⟩
  unfold step nextStep at h
  split at h
  · next e => exact (left (.inl e) h).imp_right .inl
  · next e => exact .inl ⟨_, s.rotor, .inr (by rw [e]; rfl), hostTurn_acts h⟩
  · next e =>
    split at h
    · next hb => exact (left (.inr ⟨by rw [e]; rfl, hb⟩) h).imp_right .inl
    · cases h; exact .inl ⟨_, s.rotor, .inr (by rw [e]; rfl), .nothing⟩
  · next e => exact .inl ⟨_, s.rotor, .inr (by rw [e]; rfl), blockTurn_acts h⟩
  · next a rest e => cases h; exact .inr (.inr (.inl ⟨a, by simp [e]⟩))
  · next a rest e => cases h; exact .inr (.inr (.inr (.inl ⟨a, by simp [e]⟩)))
  · next k rest e => cases h; exact .inr (.inr (.inr (.inr ⟨k, by simp [e]⟩)))

/-- HOST and BLOCK leave the other handles alone. -/
theorem acts_others (h : Acts s t) : t.others = s.others := by
  cases h with
  | block hp hm => exact (move_frame hm).1
  | nothing => rfl
  | read hr => rcases execHr_cases hr with ⟨b, -, rfl⟩ | ⟨-, rfl⟩ <;> rfl
  | write hw =>
    rcases execHw_cases hw with ⟨-, hv⟩ | rfl | ⟨-, -, -, rfl⟩ | rfl
    · rcases startOp_cases hv with ⟨-, rfl⟩ | ⟨-, -, rfl⟩ <;> rfl
    all_goals rfl

/-- BLOCK or HOST acts on the handle `d` and leaves it `e`. -/
def ActsOn (d e : Dev) : Prop := ∃ u v, Acts u v ∧ u.dev = d ∧ v.dev = e

theorem ActsOn.refl (s : State) (d : Dev) : ActsOn d d :=
  ⟨{ s with dev := d }, { s with dev := d }, .nothing, rfl, rfl⟩

theorem otherActs_handle {j : Nat} (h : OtherActs j s t) {k : Nat} {d : Dev} (hd : s.handle k = some d) :
    ∃ e, t.handle k = some e ∧ ActsOn d e := by
  cases h with
  | nothing => exact ⟨d, hd, .refl s d⟩
  | @block c u hc hp hu =>
    cases k with
    | zero => exact ⟨d, hd, .refl s d⟩
    | succ k =>
      simp only [State.handle] at hd ⊢
      by_cases hk : j = k
      · subst hk
        obtain rfl : c = d := by simpa using hc.symm.trans hd
        exact ⟨u.dev, by simp [(List.getElem?_eq_some_iff.mp hd).1],
          { s with dev := c, others := s.others.set j s.dev }, u, blockTurn_acts hu, rfl, rfl⟩
      · exact ⟨d, by simpa [hk] using hd, .refl s d⟩

/-- Every handle, in a step that resets and selects none: BLOCK or HOST acts on it. -/
theorem step_handle (hs : s.staysOnDev) (h : step s = .next t) {k : Nat} {d : Dev}
    (hd : s.handle k = some d) : ∃ e, t.handle k = some e ∧ ActsOn d e := by
  obtain ⟨inbox, rotor, -, hc⟩ | ⟨-, -, j, ho⟩ | ⟨a, ha, -⟩ | ⟨a, -, rfl⟩ | ⟨j, hj, -⟩ := step_cases h
  · cases k with
    | zero => cases hd; exact ⟨t.dev, rfl, _, _, hc, rfl, rfl⟩
    | succ k => exact ⟨d, by simpa [State.handle, acts_others hc] using hd, .refl s d⟩
  · exact otherActs_handle ho (by cases k <;> exact hd)
  · exact absurd ha (hs.1 a)
  · refine ⟨d, ?_, .refl s d⟩
    cases k with
    | zero => exact hd
    | succ k =>
      simp only [State.handle, build_others] at hd ⊢
      rw [List.getElem?_append_left (List.getElem?_eq_some_iff.mp hd).1, hd]
  · exact absurd hj (hs.2 j)

end Sys2Proof.Machine
end

