-- ==== Sys2Proof/Laws/HostMap.lean ====
section
/-! SUPPORT. The register map, region by region (10_state R24): what HOST sees at an offset. -/

namespace Sys2Proof.Machine

variable (d : Dev) (off : Byte)

theorem peek_model (h : off.toNat = 0x03) :
    peek d off = if d.idValid then d.model.map (fun m => m.code.setWidth 8) else none := by
  simp [peek, h]

theorem peek_operand (i : Fin 8) (h : off.toNat = 0x08 + i.val) : peek d off = d.opb[i] := by
  have hi := i.isLt
  simp only [peek, h]
  repeat rw [if_neg (by omega)]
  rw [if_pos (by omega)]
  simp

theorem peek_res (h : 0x10 ≤ off.toNat) (h' : off.toNat < 0x18) :
    peek d off = if d.resValid then d.res.map (byteOf · (off.toNat - 0x10)) else none := by
  simp only [peek]
  repeat rw [if_neg (by omega)]
  rw [if_pos (by omega)]

theorem peek_serial (h : 0x18 ≤ off.toNat) (h' : off.toNat < 0x20) :
    peek d off = if d.idValid then d.serial.map (byteOf · (off.toNat - 0x18)) else none := by
  simp only [peek]
  repeat rw [if_neg (by omega)]
  rw [if_pos (by omega)]

theorem peek_reserved (h : off.toNat = 0x07 ∨ 0x20 ≤ off.toNat) : peek d off = some 0x00 := by
  rcases h with h | h
  · simp [peek, h]
  · simp only [peek]
    repeat rw [if_neg (by omega)]

/-- Every other offset has a value, whatever the operand bytes are. -/
theorem peek_fixed (h : off.toNat < 0x07) (h' : off.toNat ≠ 0x03) :
    ∃ b, ∀ buf, peek { d with opb := buf } off = some b := by
  have : off.toNat = 0 ∨ off.toNat = 1 ∨ off.toNat = 2 ∨ off.toNat = 4 ∨ off.toNat = 5 ∨
      off.toNat = 6 := by omega
  rcases this with h | h | h | h | h | h
  · exact ⟨d.cmdByte, fun buf => by simp [peek, h, Dev.cmdByte]⟩
  · exact ⟨d.statusByte, fun buf => by simp [peek, h, Dev.statusByte]⟩
  · exact ⟨d.addr.setWidth 8, fun buf => by simp [peek, h]⟩
  · exact ⟨d.crcObs, fun buf => by simp [peek, h]⟩
  · exact ⟨d.crcExp, fun buf => by simp [peek, h]⟩
  · exact ⟨d.seqByte, fun buf => by simp [peek, h, Dev.seqByte]⟩

/-- The regions of the map. -/
theorem offset_cases :
    (off.toNat < 0x07 ∧ off.toNat ≠ 0x03) ∨ off.toNat = 0x03 ∨
    (off.toNat = 0x07 ∨ 0x20 ≤ off.toNat) ∨ (∃ i : Fin 8, off.toNat = 0x08 + i.val) ∨
    (0x10 ≤ off.toNat ∧ off.toNat < 0x18) ∨ (0x18 ≤ off.toNat ∧ off.toNat < 0x20) := by
  by_cases h : 0x08 ≤ off.toNat ∧ off.toNat < 0x10
  · exact .inr (.inr (.inr (.inl ⟨⟨off.toNat - 8, by omega⟩, by simp; omega⟩)))
  · omega

end Sys2Proof.Machine
end

