-- ==== Sys2Proof/Laws/PerInstr.lean ====
section
/-! SUPPORT. Statements about every instruction, one lemma per constructor. EncodedWidth: the encoding of an
instruction has exactly the bytes of its format (30_encoding R85). -/

namespace Sys2Proof.Laws.EncodedWidth

/-- The encoding of an instruction is as long as its format says. -/
def Statement (i : Instr) : Prop := (encode i).2.length = (encode i).1.width

theorem crc8 (len : Nibble) : Statement (.crc8 len) := rfl
theorem verify (len : Nibble) : Statement (.verify len) := rfl
theorem pack (len : Nibble) : Statement (.pack len) := rfl
theorem measT (len : Nibble) : Statement (.measT len) := rfl
theorem measRh (len : Nibble) : Statement (.measRh len) := rfl
theorem sreset (len : Nibble) : Statement (.sreset len) := rfl
theorem readId (len : Nibble) : Statement (.readId len) := rfl
theorem reservedOpsel0 (len : Nibble) : Statement (.reservedOpsel0 len) := rfl
theorem reservedOpsel8To15 (sel len : Nibble) : Statement (.reservedOpsel8To15 sel len) := rfl
theorem wireMeasureT : Statement .wireMeasureT := rfl
theorem wireMeasureRh : Statement .wireMeasureRh := rfl
theorem wireReset : Statement .wireReset := rfl
theorem wireIdA : Statement .wireIdA := rfl
theorem wireIdB : Statement .wireIdB := rfl
theorem hw (off v : Byte) : Statement (.hw off v) := rfl
theorem hr (off : Byte) : Statement (.hr off) := rfl

end Sys2Proof.Laws.EncodedWidth
end

