-- ==== Sys2Proof/Laws/Run.lean ====
section
/-! SUPPORT. Running several steps: one step at a time, the step of a CMD write, the step of a turn; then,
what every step keeps every run keeps. -/

namespace Sys2Proof.Machine

variable {s t : State}

@[simp] theorem runs_zero (s : State) : runs 0 s = .next s := rfl

/-- A run goes on from the state that its first step answers. -/
theorem runs_succ_of_step {k : Nat} (h : step s = .next t) : runs (k + 1) s = runs k t := by
  simp only [runs, Host.Core.run, core, h]

/-- A run that answers a next state took a first step and went on. -/
theorem runs_succ_next {k : Nat} (h : runs (k + 1) s = .next t) :
    ∃ u, step s = .next u ∧ runs k u = .next t := by
  cases hs : step s with
  | next u => exact ⟨u, rfl, by rw [← runs_succ_of_step hs, h]⟩
  | fault r => simp [runs, Host.Core.run, core, hs] at h
  | refused r => simp [runs, Host.Core.run, core, hs] at h

/-- What every step keeps, every run keeps. -/
theorem runs_keeps {P : State → Prop} (hP : ∀ s t, P s → step s = .next t → P t) {k : Nat}
    (hs : P s) (h : runs k s = .next t) : P t := by
  induction k generalizing s with
  | zero => cases h; exact hs
  | succ k ih =>
    obtain ⟨u, hu, ht⟩ := runs_succ_next h
    exact ih (hP _ _ hs hu) ht

/-- The step of a CMD write that is not refused (44_session R182). -/
theorem step_command {v : Byte} {rest : List Stim} (hi : s.inbox = hostWrite 0x00 v :: rest)
    (hb : s.dev.busy = false) (hf : s.dev.touchesBus v → s.busFree) :
    step s = .next { s with inbox := rest, dev := s.dev.begin v } := by
  have hc : ({ s with inbox := rest } : State).busConflict v = false := (busConflict_eq_false _ v).mpr hf
  simp only [step, nextStep, hi, hostWrite, hostTurn, decode, exec, execHw]
  rw [if_pos (by decide), startOp]
  simp only [hb, hc]
  rfl

/-- The step of a turn asked for: the operation latched in CMD executes (44_session R183). -/
theorem step_turn {rest : List Stim} (hi : s.inbox = .turn :: rest) (hp : s.dev.phase ≠ .idle) :
    step s = exec (decodeCmd s.dev.cmdByte) { s with inbox := rest } := by
  simp [step, nextStep, hi, blockTurn, hp]

/-- A step left to BLOCK goes to some sequencer (30_encoding R86). -/
theorem step_leftToBlock (h : s.leftToBlock) : step s = fairTurn s := by
  unfold step nextStep
  obtain hi | ⟨hi, hb⟩ := h
  · simp only [hi]
  · obtain ⟨rest, hi⟩ := List.head?_eq_some_iff.mp hi
    simp only [hi, hb, if_pos]

/-- A step left to BLOCK is the addressed handle's, where that leads to another phase or the others are in
IDLE (44_session R183). -/
theorem step_free (hl : s.leftToBlock) (hp : s.dev.phase ≠ .idle) (hf : ¬ s.stalled ∨ s.othersIdle) :
    step s = exec (decodeCmd s.dev.cmdByte) s := by
  rw [step_leftToBlock hl, fairTurn_of_free hf, blockTurn, if_neg hp]

/-- With every turn given taken, what is left of the inbox is `rest`. -/
@[simp] theorem givesTurns_zero {next rest : List Stim} :
    givesTurns 0 next rest ↔ next = rest := by
  simp only [givesTurns, List.replicate_zero, List.nil_append]
  exact ⟨fun h => h.elim id fun h => h.1, .inl⟩

/-- The step of a turn given: the operation latched in CMD executes, and one turn fewer is given. Left to
BLOCK, that needs a step that leads to another phase, or the others in IDLE. -/
theorem step_given {k : Nat} {rest : List Stim} (hg : givesTurns (k + 1) s.inbox rest)
    (hp : s.dev.phase ≠ .idle) (hb : s.dev.busy = true)
    (hf : ¬ s.stalled ∨ (s.inbox = rest → s.othersIdle)) :
    ∃ next, givesTurns k next rest ∧
      step s = exec (decodeCmd s.dev.cmdByte) { s with inbox := next } := by
  rcases hg with hi | ⟨hi, hr⟩
  · exact ⟨_, .inl rfl, step_turn (by rw [hi, List.replicate_succ, List.cons_append]) hp⟩
  · have hl : s.leftToBlock := by
      rcases hr with hr | ⟨more, hr⟩
      · exact .inl (hi.trans hr)
      · exact .inr ⟨by rw [hi, hr]; rfl, hb⟩
    exact ⟨s.inbox, .inr ⟨hi, hr⟩, step_free hl hp (hf.imp_right fun h => h hi)⟩

/-- With every handle in IDLE and nothing to do, a step changes nothing. -/
theorem step_idle (hl : s.leftToBlock) (hp : s.dev.phase = .idle) (ho : s.othersIdle) :
    step s = .next s := by
  rw [step_leftToBlock hl, fairTurn_of_free (.inr ho), blockTurn, if_pos hp]

end Sys2Proof.Machine
end

