-- ==== Sys2Proof/Tests/Slice0.lean ====
section
/-! SUPPORT. Small tests, each with its source in spec/, and one witness theorem for every statement with
hypotheses: concrete states and operands that meet them, clause by clause, at the ends of their ranges. -/

-- Sixteen CRC bit steps nest a little deeper than the default of 512.
set_option maxRecDepth 1000

namespace Sys2Proof.Tests

open Sys2Proof Sys2Proof.Machine

/-! ## Helpers -/

/-- The outcome is a next state of which `p` holds. -/
def leads (r : Result) (p : State → Bool) : Bool :=
  match r with
  | .next t => p t
  | .fault _ => false
  | .refused _ => false

/-- An answer whose first bytes are `bs`, the rest 0x00. -/
def answer (bs : List Byte) : Answer :=
  .ok (Vector.ofFn fun i : Fin 8 => bs.getD i.val 0x00)

/-- The state after reset with the operand bytes `bs` written. -/
def written (bs : List Byte) : State :=
  { State.reset with dev := { State.reset.dev with opb := storeBytes State.reset.dev.opb 0 bs } }

/-- `s` with the operation of CMD byte `v` just started. -/
def begun (v : Byte) (s : State) : State := { s with dev := s.dev.begin v }

/-- After reset: the operation of `v` in phase `p`, with the transport's next answers given. -/
def inPhase (v : Byte) (p : Phase) (answers : List Answer) : State :=
  { State.reset with dev := (State.reset.dev.begin v).goto p, answers := answers }

/-- The operation of `v` in EVAL with the response bytes `a` and `b`. -/
def received (v : Byte) (a b : List Byte) : State :=
  let s := inPhase v .eval []
  { s with dev := (s.dev.storeA a).storeB b }

/-- A handle with the identity of 95_test_vectors I1 cached. -/
def identified : Dev :=
  { Dev.reset 0x40 with idValid := true, serial := some 0x1122334415556677, model := some .modelC }

/-- The machine whose handle has its identity cached. -/
def resolved : State := { State.reset with dev := identified }

/-- Responses A and B of 95_test_vectors 2.8. -/
def halfA : List Byte := [0x11, 0xA1, 0x22, 0xA2, 0x33, 0xA3, 0x44, 0xA4]

def halfB : List Byte := [0x15, 0x55, 0xB2, 0x66, 0x77, 0xB5]

/-- Another handle that is reading its first response. -/
def reading : Dev := (((Dev.reset 0x41).begin 0x05).goto .rd1)

/-! ## Well-formed instructions (30_encoding R81, R83) -/

theorem test_wellFormed_reserved : (Instr.reservedOpsel8To15 8 0).wellFormed = true := by decide

theorem test_illFormed_reserved : (Instr.reservedOpsel8To15 7 0).wellFormed = false := by decide

/-! ## Decoding: words written out from 30_encoding R72, R80 to R82 -/

theorem test_decode_crc8 : decode .cmd [0b10100001] = .ok (.crc8 10) := by decide

theorem test_decode_verify : decode .cmd [0b00000010] = .ok (.verify 0) := by decide

theorem test_decode_pack : decode .cmd [0b10000011] = .ok (.pack 8) := by decide

theorem test_decode_measT : decode .cmd [0b11110100] = .ok (.measT 15) := by decide

theorem test_decode_measRh : decode .cmd [0b00000101] = .ok (.measRh 0) := by decide

theorem test_decode_sreset : decode .cmd [0b00010110] = .ok (.sreset 1) := by decide

theorem test_decode_readId : decode .cmd [0b00000111] = .ok (.readId 0) := by decide

theorem test_decode_reserved0 : decode .cmd [0b00110000] = .ok (.reservedOpsel0 3) := by decide

theorem test_decode_reserved8 : decode .cmd [0b01011010] = .ok (.reservedOpsel8To15 10 5) := by decide

theorem test_decode_wireMeasureT : decode .w1 [0b11110011] = .ok .wireMeasureT := by decide

theorem test_decode_wireMeasureRh : decode .w1 [0b11110101] = .ok .wireMeasureRh := by decide

theorem test_decode_wireReset : decode .w1 [0b11111110] = .ok .wireReset := by decide

theorem test_decode_wireIdA : decode .w2 [0b11111010, 0b00001111] = .ok .wireIdA := by decide

theorem test_decode_wireIdB : decode .w2 [0b11111100, 0b11001001] = .ok .wireIdB := by decide

theorem test_decode_wireId_order :
    decode .w2 [0b00001111, 0b11111010] = .error .unknownWireCommand := by decide

theorem test_decode_hw : decode (.host .write) [0b00001000, 0b01100111] = .ok (.hw 0x08 0x67) := by
  decide

theorem test_decode_hr : decode (.host .read) [0b00000001] = .ok (.hr 0x01) := by decide

theorem test_decode_length : decode .w1 [] = .error .wrongLength := by decide

/-- The numbering of the opcode table, one word of each format (log 12). -/
theorem test_table_words :
    decodeTableWord 8 0x83 = some (.pack 8) ∧ decodeTableWord 8 0xFE = some .wireReset ∧
    decodeTableWord 16 0xFA0F = some .wireIdA ∧ decodeTableWord 16 0xFCC9 = some .wireIdB ∧
    decodeTableWord 16 0x06 = some (.hr 0x06) ∧ decodeTableWord 24 0x0867 = some (.hw 0x08 0x67) := by
  decide

/-! ## Fetching: the next step runs the placed word (log 12) -/

/-- 95_test_vectors 2.9: CMD 0x08 ends with STATUS 0x62. -/
theorem test_fetch_cmd :
    leads (step (State.reset.withFetchWord 8 0x08)) (fun t => t.dev.statusByte == 0x62) = true := by
  decide

/-- HW 0x08, 0x67 stores OPB[0]. -/
theorem test_fetch_host_write :
    leads (step (State.reset.withFetchWord 24 0x0867)) (fun t => t.dev.opb[0] == some 0x67) = true := by
  decide

/-- FC C9 is sent in WR2. -/
theorem test_fetch_wire :
    leads (step { State.reset.withFetchWord 16 0xFCC9 with answers := [answer []] })
      (fun t => t.dev.hist == [.write 0x40 [0xFC, 0xC9] .ok] && t.dev.phase == .dly2) = true := by
  decide

/-! ## The checksum and the packer -/

/-- 95_test_vectors W1. -/
theorem test_crc_W1 : crc8 0x67 0x8C = 0xFC := by decide

/-- 95_test_vectors 2.2. -/
theorem test_crc_ones : crc8 0xFF 0xFF = 0x2D := by decide

/-- 95_test_vectors W2, k = 0 and 7. -/
theorem test_verify_W2 : verify 0x67 0x8C 0xFD = false ∧ verify 0x67 0x8C 0x7C = false := by decide

/-- 95_test_vectors W4. -/
theorem test_pack_W4 :
    pack [0xFF, 0xFF, 0xFF, 0xFF, 0x00, 0x00, 0x00, 0x01] = 0xFFFFFFFF00000001 := by decide

/-- 95_test_vectors W7. -/
theorem test_serial_W7 : serialOf halfA halfB = 0x1122334415556677 := by decide

/-- 95_test_vectors 2.8, selectors. -/
theorem test_models :
    [0x00, 0xFF, 0x0D, 0x14, 0x15, 0x16].map modelOf =
      [.engineeringSample, .engineeringSample, .modelA, .modelB, .modelC, .unknown] := by decide

/-! ## Operations -/

/-- 95_test_vectors 2.3, row 1. -/
theorem test_crc8_status :
    leads (exec (.crc8 0) (begun 0x01 (written [0x67, 0x8C])))
      (fun t => t.dev.statusByte == 0x06 && t.dev.res == some 0xFC && t.dev.crcObs == 0x00 &&
        t.dev.crcExp == 0xFC) = true := by decide

/-- 95_test_vectors 2.3, last row. -/
theorem test_crc8_noValue :
    leads (exec (.crc8 0) (begun 0x01 State.reset))
      (fun t => t.faulted && t.dev.statusByte == 0x01) = true := by decide

/-- 95_test_vectors 2.4, row 1. -/
theorem test_verify_match :
    leads (exec (.verify 0) (begun 0x02 (written [0x67, 0x8C, 0xFC])))
      (fun t => t.dev.statusByte == 0x0E && t.dev.crcObs == 0xFC) = true := by decide

/-- 95_test_vectors 2.4, row 3. -/
theorem test_verify_mismatch :
    leads (exec (.verify 0) (begun 0x02 (written [0x66, 0x1E, 0x4B])))
      (fun t => t.dev.statusByte == 0x06 && t.dev.crcObs == 0x4B && t.dev.crcExp == 0x53) = true := by
  decide

/-- 95_test_vectors 2.5, LEN 5. -/
theorem test_pack_len5 :
    leads (exec (.pack 5) (begun 0x53 (written [0xFF, 0xFF, 0xFF, 0xFF, 0x00, 0x00, 0x00, 0x01])))
      (fun t => t.dev.statusByte == 0x06 && t.dev.res == some 0x000000FFFFFFFF00) = true := by decide

/-- 95_test_vectors 2.5: LEN 0 with OPB never written is ILLEGAL_OPERAND. -/
theorem test_pack_len0 :
    leads (exec (.pack 0) (begun 0x03 State.reset))
      (fun t => t.dev.statusByte == 0x82 && !t.faulted) = true := by decide

/-- 95_test_vectors S1, the EVAL phase. -/
theorem test_measT_S1 :
    leads (exec (.measT 0) (received 0x04 [0x67, 0x8C, 0xFC] []))
      (fun t => t.dev.statusByte == 0x0E && t.dev.res == some 0x678C) = true := by decide

/-- 95_test_vectors S3 (W5 as printed), the EVAL phase. -/
theorem test_measT_S3 :
    leads (exec (.measT 0) (received 0x04 [0x66, 0x1E, 0x4B] []))
      (fun t => t.dev.statusByte == 0x42 && t.dev.crcObs == 0x4B && t.dev.crcExp == 0x53 &&
        t.dev.res == none) = true := by decide

/-- 95_test_vectors S12, the read. -/
theorem test_measRh_read :
    leads (exec (.measRh 0) (inPhase 0x05 .rd1 [answer [0x80, 0x00, 0x23]]))
      (fun t => t.dev.hist == [.read 0x40 3 (.ok [0x80, 0x00, 0x23])] && t.dev.phase == .eval) = true := by
  decide

/-- 95_test_vectors S14. -/
theorem test_measRh_S14 :
    leads (exec (.measRh 0) (received 0x05 [0x81, 0x00, 0x23] []))
      (fun t => t.dev.statusByte == 0x42 && t.dev.crcExp == 0xD7) = true := by decide

/-- 95_test_vectors R1, the delay. -/
theorem test_sreset_delay :
    leads (exec (.sreset 0) (inPhase 0x06 .dly1 []))
      (fun t => t.dev.hist == [.delay 50] && t.dev.phase == .eval) = true := by decide

/-- 95_test_vectors R3: the identity stays. -/
theorem test_sreset_keeps :
    leads (exec (.sreset 0) { resolved with dev := (identified.begin 0x06).goto .eval })
      (fun t => t.dev.statusByte == 0x12 && t.dev.serial == some 0x1122334415556677) = true := by decide

/-- 95_test_vectors I1, the EVAL phase. -/
theorem test_readId_I1 :
    leads (exec (.readId 0) (received 0x07 halfA halfB))
      (fun t => t.dev.statusByte == 0x16 && t.dev.serial == some 0x1122334415556677 &&
        t.dev.res == t.dev.serial && t.dev.model == some .modelC) = true := by decide

/-- 95_test_vectors I2: cached, no traffic. -/
theorem test_readId_I2 :
    leads (exec (.readId 0) (begun 0x07 resolved))
      (fun t => t.dev.statusByte == 0x16 && t.dev.hist == []) = true := by decide

/-- 95_test_vectors 2.9, CMD 0x30. -/
theorem test_reserved0 :
    leads (exec (.reservedOpsel0 3) (begun 0x30 State.reset))
      (fun t => t.dev.statusByte == 0x62 && t.dev.seqByte == 0x00 && t.dev.cmdByte == 0x30) = true := by
  decide

/-- 95_test_vectors 2.9, CMD 0x5A. -/
theorem test_reserved8 :
    leads (exec (.reservedOpsel8To15 10 5) (begun 0x5A State.reset))
      (fun t => t.dev.statusByte == 0x62 && t.dev.seqByte == 0xA0) = true := by decide

/-- 95_test_vectors S5: no delay after a failed write. -/
theorem test_wireMeasureT_S5 :
    leads (exec .wireMeasureT (inPhase 0x04 .wr1 [.transportError]))
      (fun t => t.dev.statusByte == 0x22 && t.dev.hist == [.write 0x40 [0xF3] .transportError]) = true := by
  decide

/-- 95_test_vectors S12, the write. -/
theorem test_wireMeasureRh :
    leads (exec .wireMeasureRh (inPhase 0x05 .wr1 [answer []]))
      (fun t => t.dev.hist == [.write 0x40 [0xF5] .ok] && t.dev.phase == .dly1) = true := by decide

/-- 95_test_vectors R4: no answer, nothing changes. -/
theorem test_wireReset_hangs :
    leads (exec .wireReset (inPhase 0x06 .wr1 [.noAnswer]))
      (fun t => t == inPhase 0x06 .wr1 [.noAnswer]) = true := by decide

/-- 95_test_vectors I1, the first write. -/
theorem test_wireIdA :
    leads (exec .wireIdA (inPhase 0x07 .wr1 [answer []]))
      (fun t => t.dev.hist == [.write 0x40 [0xFA, 0x0F] .ok] && t.dev.phase == .dly1) = true := by decide

/-- 95_test_vectors I5. -/
theorem test_wireIdB_I5 :
    leads (exec .wireIdB (inPhase 0x07 .wr2 [.transportError]))
      (fun t => t.dev.statusByte == 0x22 && t.dev.idValid == false) = true := by decide

/-! ## Host actions -/

/-- 95_test_vectors X2: ADDR ignores a write. -/
theorem test_hw_X2 :
    leads (exec (.hw 0x02 0x41) State.reset) (fun t => t == State.reset) = true := by decide

/-- 95_test_vectors X8. -/
theorem test_hw_X8 :
    leads (exec (.hw 0x00 0x05) (inPhase 0x04 .wr1 []))
      (fun t => t == { inPhase 0x04 .wr1 [] with refused := true }) = true := by decide

/-- 95_test_vectors X5. -/
theorem test_hr_X5 :
    leads (exec (.hr 0x10) State.reset) (fun t => t.faulted && t.faultNames == [.readNoValue]) = true := by
  decide

/-- 95_test_vectors X10. -/
theorem test_hr_X10 :
    leads (exec (.hr 0x06) (inPhase 0x04 .rd1 [])) (fun t => t.reads == [(0x06, 0x43)]) = true := by decide

/-! ## Steps left to BLOCK (70_reset R245, R252; log 19) -/

/-- Another handle in EVAL of a reserved selector. -/
def evaluating : Dev := (Dev.reset 0x41).begin 0x08

/-- 70_reset R245, 44_session R181: the delay of a handle that is not addressed ends, and RD1 follows. -/
theorem test_other_handle_delay_ends :
    leads (step { State.reset with others := [((Dev.reset 0x41).begin 0x04).goto .dly1], rotor := 1 })
      (fun t => t.others.length == 1 &&
        t.others.all fun d => d.phase == .rd1 && d.hist == [.delay 25]) = true := by decide

/-- 70_reset R252, 95_test_vectors 2.9: while the addressed handle hangs another one ends with STATUS 0x62. -/
theorem test_hung_handle_starves_no_other :
    leads (step { inPhase 0x04 .rd1 [.noAnswer] with others := [evaluating], rotor := 1 })
      (fun t => t.dev.phase == .rd1 && t.others.length == 1 &&
        t.others.all fun d => d.statusByte == 0x62) = true := by decide

/-- 42_unit R150, three rows. -/
theorem test_converter :
    rawToCelsius 0x678C = 9922651 / 409600 ∧ rawToRelativeHumidity 0x8000 = 113 / 2 ∧
    celsiusToFahrenheit 0 = 32 := by
  norm_num [rawToCelsius, rawToRelativeHumidity, celsiusToFahrenheit]

/-! ## Witnesses -/

/-- A machine whose other handle, at the end of a list, is mid-transfer. -/
def shared : State := { State.reset with others := [Dev.reset 0x42, reading] }

/-- A sound state with an operation in progress. -/
def measuring : State := inPhase 0x04 .wr1 [answer [], answer [0x67, 0x8C, 0xFC], answer [], answer []]

theorem measuring_sound : measuring.Sound := by
  refine ⟨⟨⟨?_, ?_, ?_, ?_⟩, ?_, ?_, ?_, ?_, ?_, ?_, ?_, ?_⟩, ?_⟩
  all_goals
    simp [measuring, inPhase, State.reset, Dev.reset, Dev.begin, Dev.goto, Dev.phaseLegal, firstPhase]

/-- The addressed handle's call never answers; another handle is in EVAL. -/
def hung : State := { inPhase 0x04 .wr1 [.noAnswer] with others := [evaluating] }

theorem evaluating_sound : evaluating.Sound := by
  refine ⟨⟨?_, ?_, ?_, ?_⟩, ?_, ?_, ?_, ?_, ?_, ?_, ?_, ?_⟩
  all_goals simp [evaluating, Dev.reset, Dev.begin, Dev.phaseLegal, firstPhase]

theorem evaluating_ready : evaluating.operandsReady := by
  simp [Dev.operandsReady, evaluating, Dev.begin]

theorem hung_sound : hung.Sound := ⟨measuring_sound.1, by simp [hung, evaluating_sound]⟩

/-- Two handles in progress, with answers for both. -/
def busyPair : State :=
  { measuring with others := [evaluating], answers := List.replicate 8 (answer []) }

theorem busyPair_sound : busyPair.Sound := ⟨measuring_sound.1, by simp [busyPair, evaluating_sound]⟩

theorem reset_busFree : State.reset.busFree := by simp [State.busFree, State.reset]

theorem resolved_busFree : resolved.busFree := by simp [State.busFree, resolved, State.reset]

/-- 0x07 touches the bus after reset, and 0x07 with the identity cached does not. -/
theorem readId_touchesBus : State.reset.dev.touchesBus 0x07 ∧ ¬ resolved.dev.touchesBus 0x07 := by
  simp [Dev.touchesBus, State.reset, Dev.reset, resolved, identified]

theorem witness_WideAccumulatorsGiveCrc8 :
    8 ≤ 8 ∧ (0x131 = 0x131 ∨ 0x131 = 0x31) ∧ (0x31 = 0x131 ∨ 0x31 = 0x31) := by decide

theorem witness_CrcLaws :
    7 < 8 ∧ verify 0x00 0x00 0x00 = true ∧
    (∃ i, i < 24 ∧ (0x800000 : BitVec 24) = (1 : BitVec 24) <<< i) ∧
    (∃ i j, i < 24 ∧ j < 24 ∧ i ≠ j ∧
      (0x800001 : BitVec 24) = ((1 : BitVec 24) <<< i) ^^^ ((1 : BitVec 24) <<< j)) :=
  ⟨by decide, by decide, ⟨23, by decide⟩, ⟨23, 0, by decide⟩⟩

theorem witness_PackIsPositionalSum :
    1 ≤ [(0xFF : Byte)].length ∧ [(0xFF : Byte)].length ≤ 8 ∧ 1 ≤ halfA.length ∧ halfA.length ≤ 8 ∧
    0 < [(0xFF : Byte)].length ∧ 7 < halfA.length := by decide

theorem witness_PackLaws :
    halfA.length = 8 ∧ halfA.length ≤ 8 ∧ pack halfA = pack halfA ∧ 2 ^ (8 * 8) - 1 ≤ 2 ^ (8 * 8) - 1 := by
  decide

theorem witness_IdentityOfResponses : halfA.length = 8 ∧ halfB.length = 6 := by decide

theorem witness_HostReadCompletes :
    peek State.reset.dev 0xFF = some 0x00 ∧ peek State.reset.dev 0x08 = none := by decide

/-- A turn given in each of the three ways: asked for, left to BLOCK, and left to it by a waiting HOST. -/
theorem turns_given (k : Nat) :
    givesTurns k (List.replicate k .turn ++ [hostRead 0x01]) [hostRead 0x01] ∧ givesTurns k [] [] ∧
    givesTurns k [.waitIdle, hostRead 0x01] [.waitIdle, hostRead 0x01] :=
  ⟨.inl rfl, .inr ⟨rfl, .inl rfl⟩, .inr ⟨rfl, .inr ⟨_, rfl⟩⟩⟩

/-- The premise of the clauses on an operand byte without a value, with a turn asked for and without. -/
theorem turn_or_othersIdle (s : State) :
    ([Stim.turn] = [] → s.othersIdle) ∧ ((([] : List Stim) = [] → s.othersIdle) ↔ s.othersIdle) :=
  ⟨fun h => absurd h (by decide), fun h => h rfl, fun h _ => h⟩

theorem witness_HostVisibleFields : identified.idValid = true ∧ identified.model = some .modelC := by decide

theorem witness_EightReadsGiveTheValue :
    { identified with resValid := true, res := some 0xFFFFFFFF00000001 }.resValid = true ∧
    { identified with resValid := true, res := some 0xFFFFFFFF00000001 }.res =
      some 0xFFFFFFFF00000001 ∧
    identified.idValid = true ∧ identified.serial = some 0x1122334415556677 := by decide

theorem witness_OffsetsWithoutValue :
    measuring.dev.Sound ∧ peek measuring.dev 0x17 = none ∧ peek measuring.dev 0x1F = none ∧
    peek measuring.dev 0x03 = none ∧ peek measuring.dev 0x0F = none ∧
    peek measuring.dev 0x20 = some 0x00 :=
  ⟨measuring_sound.1, by decide, by decide, by decide, by decide, by decide⟩

theorem witness_OperandWriteStores :
    State.reset.dev.busy = false ∧ (0x00 : Byte) ≠ 0x08 + BitVec.ofNat 8 (0 : Fin 8).val ∧
    (0x10 : Byte) ≠ 0x08 + BitVec.ofNat 8 (7 : Fin 8).val := by decide

theorem witness_IgnoredWritesChangeNothing :
    (0x07 : Byte).toNat = 0x07 ∧ 0x20 ≤ (0x20 : Byte).toNat ∧ 0x20 ≤ (0xFF : Byte).toNat ∧
    1 ≤ (0x06 : Byte).toNat ∧ (0x06 : Byte).toNat ≤ 0x06 ∧
    0x10 ≤ (0x1F : Byte).toNat ∧ (0x1F : Byte).toNat ≤ 0x1F := by decide

/-- Both first phases and the refusal: 0x07 after reset starts in WR1, with the identity cached in EVAL. -/
theorem witness_CommandWriteStarts :
    State.reset.dev.busy = false ∧ State.reset.dev.touchesBus 0x07 ∧
    (State.reset.dev.touchesBus 0x07 → State.reset.busFree) ∧
    resolved.dev.busy = false ∧ ¬ resolved.dev.touchesBus 0x07 ∧ measuring.dev.busy = true :=
  ⟨by decide, readId_touchesBus.1, fun _ => reset_busFree, by decide, readId_touchesBus.2, by decide⟩

theorem witness_HostWritesRefused :
    measuring.dev.busy = true ∧ 0x08 ≤ (0x08 : Byte).toNat ∧ (0x0F : Byte).toNat < 0x10 ∧
    shared.dev.touchesBus 0x07 ∧ reading ∈ shared.others ∧
    reading.phase ∈ [Phase.wr1, .dly1, .rd1, .wr2, .dly2, .rd2] :=
  ⟨by decide, by decide, by decide, readId_touchesBus.1, by simp [shared], by decide⟩

theorem witness_OperationRowsStartFromIdle :
    (Instr.reservedOpsel8To15 15 15).wellFormed = true ∧
    encode (.reservedOpsel8To15 15 15) = (.cmd, [0xFF]) ∧ State.reset.dev.phase = .idle := by decide

theorem witness_Crc8Evaluates :
    (begun 0x01 (written [0x67, 0x8C])).dev.phase = .eval ∧
    (begun 0x01 (written [0x67, 0x8C])).dev.opb[0] = some 0x67 ∧
    (begun 0x01 (written [0x67, 0x8C])).dev.opb[1] = some 0x8C ∧
    (begun 0x01 (written [0x67])).dev.phase = .eval ∧
    (begun 0x01 (written [0x67])).dev.opb[1] = none := by decide

theorem witness_VerifyEvaluates :
    (begun 0x02 (written [0x67, 0x8C, 0xFC])).dev.phase = .eval ∧
    (begun 0x02 (written [0x67, 0x8C, 0xFC])).dev.opb[0] = some 0x67 ∧
    (begun 0x02 (written [0x67, 0x8C, 0xFC])).dev.opb[1] = some 0x8C ∧
    (begun 0x02 (written [0x67, 0x8C, 0xFC])).dev.opb[2] = some 0xFC ∧
    (begun 0x02 (written [0x67, 0x8C])).dev.opb[2] = none := by decide

/-- LEN 0, 9, 1 and 8 with the operands written, 8 with the last one not written. -/
theorem witness_PackEvaluates :
    (begun 0x03 State.reset).dev.phase = .eval ∧ (begun 0x03 State.reset).dev.lenL.toNat = 0 ∧
    9 ≤ (begun 0x93 State.reset).dev.lenL.toNat ∧
    1 ≤ (begun 0x13 (written halfA)).dev.lenL.toNat ∧
    (begun 0x13 (written halfA)).dev.opb.toList.take 1 = [(0x11 : Byte)].map some ∧
    (begun 0x83 (written halfA)).dev.lenL.toNat ≤ 8 ∧
    (begun 0x83 (written halfA)).dev.opb.toList.take 8 = halfA.map some ∧
    none ∈ (begun 0x83 (written (halfA.take 7))).dev.opb.toList.take 8 := by decide

theorem witness_ReservedSelectorsAreIllegal :
    (begun 0x00 State.reset).dev.phase = .eval ∧ State.reset.dev.busy = false ∧
    8 ≤ (8 : Nibble).toNat ∧ 8 ≤ (15 : Nibble).toNat ∧
    givesTurns 1 [.turn, hostRead 0x01] [hostRead 0x01] ∧ givesTurns 1 [] [] :=
  ⟨by decide, by decide, by decide, by decide, (turns_given 1).1, (turns_given 1).2.1⟩

theorem witness_Crc8Operation :
    (written [0x67, 0x8C]).dev.busy = false ∧ (written [0x67, 0x8C]).dev.opb[0] = some 0x67 ∧
    (written [0x67, 0x8C]).dev.opb[1] = some 0x8C ∧ (written [0x67]).dev.busy = false ∧
    (written [0x67]).dev.opb[1] = none ∧ (written [0x67]).othersIdle ∧
    ([Stim.turn] = [] → (written [0x67]).othersIdle) ∧ givesTurns 1 [.turn] [] ∧
    givesTurns 1 [.waitIdle, hostRead 0x01] [.waitIdle, hostRead 0x01] :=
  ⟨by decide, by decide, by decide, by decide, by decide, by decide, (turn_or_othersIdle _).1, .inl rfl,
    (turns_given 1).2.2⟩

theorem witness_VerifyOperation :
    (written [0x67, 0x8C, 0xFC]).dev.busy = false ∧
    (written [0x67, 0x8C, 0xFC]).dev.opb[0] = some 0x67 ∧
    (written [0x67, 0x8C, 0xFC]).dev.opb[1] = some 0x8C ∧
    (written [0x67, 0x8C, 0xFC]).dev.opb[2] = some 0xFC ∧
    (written [0x67, 0x8C]).dev.busy = false ∧ (written [0x67, 0x8C]).dev.opb[2] = none ∧
    (written [0x67, 0x8C]).othersIdle ∧ ([Stim.turn] = [] → (written [0x67, 0x8C]).othersIdle) ∧
    givesTurns 1 [.turn] [] ∧ givesTurns 1 [] [] :=
  ⟨by decide, by decide, by decide, by decide, by decide, by decide, by decide,
    (turn_or_othersIdle _).1, .inl rfl, (turns_given 1).2.1⟩

theorem witness_PackOperation :
    (written halfA).dev.busy = false ∧ 1 ≤ (1 : Nibble).toNat ∧ (8 : Nibble).toNat ≤ 8 ∧
    (written halfA).dev.opb.toList.take (8 : Nibble).toNat = halfA.map some ∧
    (written [0x11]).dev.opb.toList.take (1 : Nibble).toNat = [(0x11 : Byte)].map some ∧
    none ∈ (written (halfA.take 7)).dev.opb.toList.take (8 : Nibble).toNat ∧
    (0 : Nibble).toNat = 0 ∧ 9 ≤ (9 : Nibble).toNat ∧ 9 ≤ (15 : Nibble).toNat ∧
    (written (halfA.take 7)).othersIdle ∧ ([Stim.turn] = [] → (written (halfA.take 7)).othersIdle) ∧
    givesTurns 1 [.turn] [] ∧ givesTurns 1 [] [] :=
  ⟨by decide, by decide, by decide, by decide, by decide, by decide, by decide, by decide, by decide,
    by decide, (turn_or_othersIdle _).1, .inl rfl, (turns_given 1).2.1⟩

/-- The phase of each wire command, and the three things the transport can do. -/
theorem witness_WireCommandsComplete :
    (inPhase 0x04 .wr1 [answer []]).dev.phase = .wr1 ∧
    (inPhase 0x04 .wr1 [answer []]).nextAnswer = answer [] ∧
    (inPhase 0x07 .wr2 [.transportError]).dev.phase = .wr2 ∧
    (inPhase 0x07 .wr2 [.transportError]).nextAnswer = .transportError ∧
    (inPhase 0x06 .wr1 [.noAnswer]).nextAnswer = .noAnswer := by decide

theorem witness_DelayPhasesComplete :
    (inPhase 0x06 .dly1 []).dev.phase = .dly1 ∧ (inPhase 0x07 .dly2 []).dev.phase = .dly2 := by decide

theorem witness_FirstReadCompletes :
    (inPhase 0x05 .rd1 [answer [0x80, 0x00, 0x23]]).dev.phase = .rd1 ∧
    (inPhase 0x05 .rd1 [answer [0x80, 0x00, 0x23]]).nextAnswer = answer [0x80, 0x00, 0x23] ∧
    (inPhase 0x07 .rd1 [answer halfA]).nextAnswer = answer halfA ∧
    (inPhase 0x04 .rd1 [.transportError]).nextAnswer = .transportError ∧
    (inPhase 0x04 .rd1 [.noAnswer]).nextAnswer = .noAnswer := by decide

theorem witness_SecondReadCompletes :
    (inPhase 0x07 .rd2 [answer halfB]).dev.phase = .rd2 ∧
    (inPhase 0x07 .rd2 [answer halfB]).nextAnswer = answer halfB ∧
    (inPhase 0x07 .rd2 [.transportError]).nextAnswer = .transportError ∧
    (inPhase 0x07 .rd2 [.noAnswer]).nextAnswer = .noAnswer := by decide

theorem witness_MeasurementEvaluates :
    (received 0x04 [0x00, 0x00, 0x00] []).dev.phase = .eval ∧
    (received 0x04 [0x00, 0x00, 0x00] []).dev.rspA[0] = some 0x00 ∧
    (received 0x04 [0x00, 0x00, 0x00] []).dev.rspA[1] = some 0x00 ∧
    (received 0x04 [0x00, 0x00, 0x00] []).dev.rspA[2] = some 0x00 ∧ crc8 0x00 0x00 = 0x00 ∧
    (received 0x05 [0x81, 0x00, 0x23] []).dev.phase = .eval ∧
    (received 0x05 [0x81, 0x00, 0x23] []).dev.rspA[0] = some 0x81 ∧
    (received 0x05 [0x81, 0x00, 0x23] []).dev.rspA[2] = some 0x23 ∧ crc8 0x81 0x00 ≠ 0x23 := by
  decide

theorem witness_ReadIdEvaluates :
    (received 0x07 halfA halfB).dev.phase = .eval ∧ (received 0x07 halfA halfB).dev.idValid = false ∧
    (received 0x07 halfA halfB).dev.rspA.toList = halfA.map some ∧
    (received 0x07 halfA halfB).dev.rspB.toList = halfB.map some ∧
    (begun 0x07 resolved).dev.phase = .eval ∧ (begun 0x07 resolved).dev.idValid = true ∧
    (begun 0x07 resolved).dev.serial = some 0x1122334415556677 := by decide

/-- The hypotheses of the whole measurements, answered and failing, and of SRESET. -/
theorem witness_MeasurementRuns :
    State.reset.dev.busy = false ∧ State.reset.busFree ∧ crc8 0xFF 0xFF = 0x2D ∧
    crc8 0x66 0x1E ≠ 0x4B ∧ givesTurns 4 [.turn, .turn, .turn, .turn] [] ∧ givesTurns 4 [] [] ∧
    givesTurns 4 [.waitIdle, hostRead 0x01] [.waitIdle, hostRead 0x01] :=
  ⟨by decide, reset_busFree, by decide, by decide, .inl rfl, (turns_given 4).2.1, (turns_given 4).2.2⟩

theorem witness_MeasurementTransportFailures :
    State.reset.dev.busy = false ∧ State.reset.busFree ∧ ((5 : Nibble) = 5 ∧ (0xF5 : Byte) = 0xF5) ∧
    givesTurns 1 [.turn] [] ∧ givesTurns 3 [.turn, .turn, .turn] [] ∧ givesTurns 3 [] [] :=
  ⟨by decide, reset_busFree, by decide, .inl rfl, .inl rfl, (turns_given 3).2.1⟩

theorem witness_SresetRuns :
    (inPhase 0x06 .eval []).dev.phase = .eval ∧ resolved.dev.busy = false ∧ resolved.busFree ∧
    givesTurns 3 [.turn, .turn, .turn] [] ∧ givesTurns 1 [] [] :=
  ⟨by decide, by decide, resolved_busFree, .inl rfl, (turns_given 1).2.1⟩

theorem witness_ReadIdRuns :
    State.reset.dev.busy = false ∧ State.reset.dev.idValid = false ∧ State.reset.busFree ∧
    givesTurns 7 (List.replicate 7 .turn) [] ∧ givesTurns 7 [] [] :=
  ⟨by decide, by decide, reset_busFree, .inl rfl, (turns_given 7).2.1⟩

theorem witness_CachedReadIdRuns :
    resolved.dev.busy = false ∧ resolved.dev.idValid = true ∧
    resolved.dev.serial = some 0x1122334415556677 ∧ givesTurns 1 [.turn] [] ∧ givesTurns 1 [] [] :=
  ⟨by decide, by decide, by decide, .inl rfl, (turns_given 1).2.1⟩

/-- The first and the last failure of READ_ID. -/
theorem witness_ReadIdFailures :
    State.reset.dev.busy = false ∧ State.reset.dev.idValid = false ∧ State.reset.busFree ∧
    [Answer.transportError] = [.transportError] ∧
    (∃ w da w' : Vector Byte 8, [answer [], answer halfA, answer [], Answer.transportError] =
      [.ok w, .ok da, .ok w', .transportError]) ∧
    givesTurns (2 - 1) [.turn] [] ∧ givesTurns (7 - 1) (List.replicate 6 .turn) [] ∧ givesTurns (7 - 1) [] [] :=
  ⟨by decide, by decide, reset_busFree, rfl, ⟨_, _, _, rfl⟩, .inl rfl, .inl rfl, (turns_given _).2.1⟩

/-- Two machines with the same answers and another past: operand bytes, status and history; the turns of one
are left to BLOCK and those of the other asked for. -/
theorem witness_MeasurementIgnoresThePast :
    ∃ s s' t t' : State, s.dev ≠ s'.dev ∧ s.dev.busy = false ∧ s.busFree ∧ s'.dev.busy = false ∧
      s'.busFree ∧ s.dev.idValid = s'.dev.idValid ∧ s.answers = s'.answers ∧ 2 ≤ s.answers.length ∧
      runs 5 { s with inbox := [hostWrite 0x00 0x04] } = .next t ∧
      runs 5 { s' with inbox := hostWrite 0x00 0x04 :: (List.replicate 4 .turn ++ []) } = .next t' :=
  ⟨{ State.reset with answers := [answer [], .transportError] },
    { written halfA with answers := [answer [], .transportError] }, _, _, by decide, by decide,
    by simp [State.busFree, State.reset], by decide, by simp [State.busFree, written, State.reset],
    by decide, by decide, by decide, rfl, rfl⟩

/-- A call that never answers, with an empty inbox and with a waiting HOST, alone and beside another handle. -/
theorem witness_UnansweredCallHangs :
    (inPhase 0x07 .rd2 [.noAnswer]).leftToBlock ∧ (inPhase 0x07 .rd2 [.noAnswer]).dev.phaseLegal ∧
    (inPhase 0x07 .rd2 [.noAnswer]).dev.phase ∈ [Phase.wr1, .rd1, .wr2, .rd2] ∧
    (inPhase 0x07 .rd2 [.noAnswer]).nextAnswer = .noAnswer ∧
    (inPhase 0x07 .rd2 [.noAnswer]).othersIdle ∧
    { hung with inbox := [.waitIdle] }.leftToBlock ∧
    hung.dev.phase ∈ [Phase.wr1, .rd1, .wr2, .rd2] ∧ hung.nextAnswer = .noAnswer ∧ hung.Sound ∧
    hung.others[0]? = some evaluating ∧ evaluating.phase = .eval ∧ evaluating.operandsReady :=
  ⟨.inl rfl, by simp [Dev.phaseLegal, inPhase, State.reset, Dev.reset, Dev.begin, Dev.goto],
    by decide, by decide, by decide, .inr (by decide), by decide, by decide, hung_sound, rfl, by decide,
    evaluating_ready⟩

/-- One handle in progress, and two with answers for both. -/
theorem witness_OperationsFinish :
    measuring.Sound ∧ measuring.inbox = [] ∧ measuring.dev.phase ≠ .idle ∧
    measuring.dev.operandsReady ∧ 4 ≤ measuring.answers.length ∧ .noAnswer ∉ measuring.answers ∧
    busyPair.Sound ∧ busyPair.inbox = [] ∧
    4 * (busyPair.others.length + 1) ≤ busyPair.answers.length ∧ .noAnswer ∉ busyPair.answers ∧
    busyPair.handle 1 = some evaluating ∧ evaluating.operandsReady ∧ evaluating.phase ≠ .idle :=
  ⟨measuring_sound, by decide, by decide,
    by simp [Dev.operandsReady, measuring, inPhase, Dev.begin, Dev.goto], by decide, by decide,
    busyPair_sound, by decide, by decide, by decide, rfl, evaluating_ready, by decide⟩

/-- A start, a call, and the end of an operation. -/
theorem witness_OperationFrame :
    isBlockRow (.measT 0) = true ∧ (∃ t, exec (.measT 0) State.reset = .next t) ∧
    (∃ t, exec .wireMeasureT measuring = .next t) ∧ measuring.dev.phase ≠ .idle :=
  ⟨by decide, ⟨_, rfl⟩, ⟨_, rfl⟩, by decide⟩

theorem witness_PureOperationFrame :
    isPureRow (.pack 0) = true ∧ (∃ t, exec (.pack 0) (begun 0x03 State.reset) = .next t) ∧
    (begun 0x03 State.reset).dev.phase ≠ .idle :=
  ⟨by decide, ⟨_, rfl⟩, by decide⟩

theorem witness_ReadIdChecksNothing :
    (received 0x07 halfA halfB).dev.phase ≠ .idle ∧
    (received 0x07 halfA halfB).dev.err ≠ .checksumError ∧
    (∃ t, exec (.readId 0) (received 0x07 halfA halfB) = .next t) :=
  ⟨by decide, by decide, ⟨_, rfl⟩⟩

theorem resolved_staysOnDev : resolved.staysOnDev := by
  simp [State.staysOnDev, resolved, State.reset]

theorem measuring_staysOnDev : measuring.staysOnDev := by
  simp [State.staysOnDev, measuring, inPhase, State.reset]

/-- The addressed handle with its identity cached, and another one. -/
theorem witness_IdentityAndAddressKept :
    resolved.staysOnDev ∧ (∃ t, step resolved = .next t) ∧ resolved.handle 0 = some identified ∧
    identified.idValid = true ∧ busyPair.handle 1 = some evaluating :=
  ⟨resolved_staysOnDev, ⟨_, rfl⟩, rfl, by decide, rfl⟩

theorem witness_TrafficIsTheTable :
    measuring.staysOnDev ∧ (∃ t, step measuring = .next t) ∧ measuring.handle 0 = some measuring.dev :=
  ⟨measuring_staysOnDev, ⟨_, rfl⟩, rfl⟩

theorem witness_FailedCallEndsOperation :
    (inPhase 0x07 .rd2 [.transportError]).staysOnDev ∧
    (BusEvent.read 0x40 6 .transportError).failed = true ∧
    ∃ t e, step (inPhase 0x07 .rd2 [.transportError]) = .next t ∧ t.handle 0 = some e ∧
      (inPhase 0x07 .rd2 [.transportError]).handle 0 =
        some (inPhase 0x07 .rd2 [.transportError]).dev ∧
      e.hist = (inPhase 0x07 .rd2 [.transportError]).dev.hist ++ [.read 0x40 6 .transportError] :=
  ⟨by simp [State.staysOnDev, inPhase, State.reset], by decide, _, _, rfl, rfl, rfl, rfl⟩

/-- An empty inbox, and a turn asked for; a call that is answered and one that fails. -/
theorem witness_PhaseSuccession :
    measuring.inbox = [] ∧ { measuring with inbox := [.turn] }.inbox.head? = some .turn ∧
    measuring.dev.phaseLegal ∧ measuring.dev.phase ≠ .idle ∧ (∃ t, step measuring = .next t) ∧
    measuring.nextAnswer = answer [] ∧
    { measuring with answers := [.transportError] }.nextAnswer = .transportError ∧
    ∃ t, step { measuring with answers := [.transportError] } = .next t ∧ t.dev.err = .transportError :=
  ⟨by decide, by decide, measuring_sound.1.phase_legal, by decide, ⟨_, rfl⟩, by decide, by decide, _, rfl,
    by decide⟩

/-- The same operation with a first call that fails. -/
def failing : State := { measuring with answers := [.transportError] }

/-- The addressed handle fails; another one ends with ILLEGAL_OP while the addressed one hangs. -/
theorem witness_ErrorsArePrecise :
    failing.Sound ∧ failing.staysOnDev ∧ failing.handle 0 = some failing.dev ∧
    failing.dev.phase ≠ .idle ∧
    (∃ t e, step failing = .next t ∧ t.handle 0 = some e ∧ e.err ≠ .noError) ∧
    hung.Sound ∧ hung.handle 1 = some evaluating ∧
    (∃ t e, step { hung with rotor := 1 } = .next t ∧ t.handle 1 = some e ∧ e.err ≠ .noError) :=
  ⟨measuring_sound, measuring_staysOnDev, rfl, by decide, ⟨_, _, rfl, rfl, by decide⟩, hung_sound, rfl,
    ⟨_, _, rfl, rfl, by decide⟩⟩

theorem witness_MarksAreNeverCleared :
    { measuring with faulted := true, refused := true, inbox := [.blockReset 0x40] }.faulted = true ∧
    ∃ t, step { measuring with faulted := true, refused := true, inbox := [.blockReset 0x40] } =
      .next t :=
  ⟨by decide, _, rfl⟩

theorem witness_OtherHandlesUntouched :
    (∀ a, shared.inbox.head? ≠ some (.build a)) ∧ (∀ k, shared.inbox.head? ≠ some (.select k)) ∧
    (∃ t, step shared = .next t) ∧ hung.leftToBlock ∧ hung.stalled ∧
    ∃ t, step { hung with rotor := 1 } = .next t ∧ t.others ≠ hung.others :=
  ⟨by simp [shared, State.reset], by simp [shared, State.reset], ⟨_, rfl⟩, .inl rfl,
    .inr (.inl (by decide)), _, rfl, by decide⟩

theorem witness_HandlesBuiltSelectedReset :
    { shared with inbox := [.build 0x7F] }.inbox = [.build 0x7F] ∧
    { shared with inbox := [.select 1] }.inbox = [.select 1] ∧ shared.others[1]? = some reading ∧
    { shared with inbox := [.blockReset 0x00] }.inbox = [.blockReset 0x00] := by decide

theorem witness_SoundnessKept : measuring.Sound ∧ ∃ t, step measuring = .next t :=
  ⟨measuring_sound, _, rfl⟩

theorem witness_StatusInvariantsReachable :
    ∃ t, runs 3 { State.reset with
      dev := Dev.reset 0x41, inbox := [hostWrite 0x00 0x07, .turn, .turn]
      answers := [answer []], draws := 0, frees := 0, rotor := 1 } = .next t ∧ t.dev ∈ t.dev :: t.others :=
  ⟨_, rfl, List.mem_cons_self ..⟩

theorem witness_TransportUseStaysExclusive :
    measuring.Sound ∧ measuring.BusExclusive ∧ ∃ t, step measuring = .next t :=
  ⟨measuring_sound, Nat.le_refl 1, _, rfl⟩

theorem witness_SoundStatesStep :
    { measuring with inbox := [hostWrite 0xFF 0xFF, hostRead 0xFF] }.Sound ∧
    { measuring with inbox := [hostWrite 0xFF 0xFF, hostRead 0xFF] }.inboxFormed :=
  ⟨measuring_sound, by
    intro d bytes h
    simp only [List.mem_cons, hostWrite, hostRead, Stim.act.injEq, List.not_mem_nil, or_false] at h
    rcases h with ⟨rfl, rfl⟩ | ⟨rfl, rfl⟩ <;> rfl⟩

theorem witness_ResetVisible : 0x08 ≤ (0x08 : Byte).toNat ∧ (0x1F : Byte).toNat < 0x20 := by decide

/-- Each clause: an action, a turn asked for, a waiting HOST, a turn left to BLOCK, IDLE, and the turns of a
hung handle and of another one. -/
theorem witness_StepRunsDecodedInstruction :
    decode (.host .write) [0xFF, 0xFF] = .ok (.hw 0xFF 0xFF) ∧
    { measuring with inbox := [.turn] }.inbox = [.turn] ∧ measuring.dev.phase ≠ .idle ∧
    decode .cmd [measuring.dev.lenL ++ measuring.dev.curop] = .ok (.measT 0) ∧
    { State.reset with inbox := [.waitIdle] }.dev.busy = false ∧
    measuring.leftToBlock ∧ measuring.othersIdle ∧ { measuring with inbox := [.waitIdle] }.leftToBlock ∧
    State.reset.leftToBlock ∧ State.reset.dev.phase = .idle ∧ State.reset.othersIdle ∧
    hung.leftToBlock ∧ hung.stalled ∧ hung.dev.phaseLegal ∧ ¬ hung.othersIdle ∧
    hung.rotor % (hung.others.length + 1) = 0 ∧
    { hung with rotor := 1 }.rotor % (hung.others.length + 1) = 0 + 1 ∧
    hung.others[0]? = some evaluating ∧ evaluating.phase ≠ .idle ∧
    decode .cmd [evaluating.lenL ++ evaluating.curop] = .ok (.reservedOpsel8To15 8 0) :=
  ⟨by decide, by decide, by decide, by decide, by decide, .inl rfl, by decide, .inr (by decide), .inl rfl,
    by decide, by decide, .inl rfl, .inr (.inl (by decide)), hung_sound.1.phase_legal, by decide, by decide,
    by decide, by decide, by decide, by decide⟩

theorem witness_DecodeOfEncode : (Instr.reservedOpsel8To15 15 15).wellFormed = true := by decide

theorem witness_EncodeOfDecode :
    decode .cmd [0xFF] = .ok (.reservedOpsel8To15 15 15) ∧ decode .w2 [0xFC, 0xC9] = .ok .wireIdB := by
  decide

theorem witness_ListingsExpand :
    1 ≤ [(0xFF : Byte)].length ∧ halfA.length ≤ 8 ∧ halfA.length = 8 ∧
    ∀ i, i < 8 → peek (written halfA).dev (0x08 + BitVec.ofNat 8 i) = some (halfA.getD i 0) := by decide

theorem witness_ConverterFormsAndRanges : 65535 ≤ 65535 ∧ 3145 ≤ 65535 ∧ 55575 ≤ 65535 := by decide

/-- A handle that has ended in each of the three ways. -/
theorem witness_ReadingContracts :
    { identified with err := .transportError }.err = .transportError ∧
    { identified with err := .checksumError }.err = .checksumError ∧
    { identified with resValid := true, res := some 0xFFFF }.err = .noError ∧
    { identified with resValid := true, res := some 0xFFFF }.resValid = true ∧
    { identified with resValid := true, res := some 0xFFFF }.res = some 0xFFFF := by decide

end Sys2Proof.Tests
end

section
/-! PROOFS. What every step keeps: soundness of every handle (10_state R40), and from it the status
invariants of every reachable state. -/

namespace Sys2Proof.Machine

/-! ## The updates of a handle keep it sound -/

/-- A handle right after block reset is sound (10_state R45). -/
theorem Dev.reset_sound (a : BusAddr) : (Dev.reset a).Sound where
  status := ⟨by simp [Dev.reset], by simp [Dev.reset], by simp [Dev.reset], by simp [Dev.reset]⟩
  busy_crc := by simp [Dev.reset]
  res_valid := rfl
  serial_valid := rfl
  model_valid := rfl
  phase_legal := trivial
  measured := by simp [Dev.reset]
  half_a := by simp [Dev.reset]
  halves := by simp [Dev.reset]

/-- In IDLE a sound handle is one whose status and validity bits are right: nothing is asked of the response
buffers. -/
theorem Dev.sound_of_idle {d : Dev} (hp : d.phase = .idle) (status : d.StatusSound)
    (res : d.resValid = d.res.isSome) (serial : d.idValid = d.serial.isSome)
    (model : d.idValid = d.model.isSome) : d.Sound where
  status := status
  busy_crc hb := absurd hp (status.busy_iff.mp hb)
  res_valid := res
  serial_valid := serial
  model_valid := model
  phase_legal := by simp [Dev.phaseLegal, hp]
  measured := by simp [hp]
  half_a := by simp [hp]
  halves := by simp [hp]

/-- `finish` leaves a sound handle where the validity bits are right and, without an error, a set CRC_OK
stands for equal checksums (60_exceptions R214). -/
theorem Dev.finish_sound {d : Dev} {e : ErrCode} (res : d.resValid = d.res.isSome)
    (serial : d.idValid = d.serial.isSome) (model : d.idValid = d.model.isSome)
    (crc : e = .noError → d.crcOk = true → d.crcObs = d.crcExp) : (d.finish e).Sound := by
  refine sound_of_idle rfl ⟨by simp, fun he => ?_, by simp, ?_⟩ ?_ serial model
  · rw [Dev.finish_err] at he
    simp [he]
  · by_cases he : e = .noError
    · simpa [he] using crc he
    · simp [he]
  · by_cases he : e = .noError <;> simp [he, res]

/-- A sound handle stays sound when only its phase, its byte buffers and HIST change: in progress it goes to
a phase of its operation, and the response bytes that the phases to come read are there. -/
theorem Dev.Sound.update {d e : Dev} (h : d.Sound)
    (he : e = { d with phase := e.phase, opb := e.opb, rspA := e.rspA, rspB := e.rspB, hist := e.hist })
    (idle : e.phase = .idle ↔ d.phase = .idle) (legal : e.phaseLegal)
    (measured : e.phase = .eval → d.curop = 4 ∨ d.curop = 5 →
      e.rspA[0].isSome = true ∧ e.rspA[1].isSome = true ∧ e.rspA[2].isSome = true)
    (half_a : e.phase = .wr2 ∨ e.phase = .dly2 ∨ e.phase = .rd2 → ∀ b ∈ e.rspA.toList, b.isSome = true)
    (halves : e.phase = .eval → d.curop = 7 → d.idValid = false →
      (∀ b ∈ e.rspA.toList, b.isSome = true) ∧ ∀ b ∈ e.rspB.toList, b.isSome = true) : e.Sound := by
  have hb : d.busy = true ↔ e.phase ≠ .idle := h.status.busy_iff.trans (not_congr idle.symm)
  rw [he] at legal ⊢
  exact ⟨⟨hb, h.status.err_clears, h.status.busy_clears, h.status.crc_equal⟩, h.busy_crc, h.res_valid,
    h.serial_valid, h.model_valid, legal, measured, half_a, halves⟩

/-- An event recorded touches nothing that soundness speaks of. -/
theorem Dev.Sound.record {d : Dev} (h : d.Sound) (e : BusEvent) : (d.record e).Sound :=
  h.update rfl .rfl h.phase_legal h.measured h.half_a h.halves

/-- Nor does an operand byte stored. -/
theorem Dev.Sound.storeOperand {d : Dev} (h : d.Sound) (opb : Vector (Option Byte) 8) :
    { d with opb := opb }.Sound :=
  h.update rfl .rfl h.phase_legal h.measured h.half_a h.halves

/-- In RD1 the response buffer A is being filled, and nothing is asked of it. -/
theorem Dev.Sound.storeA {d : Dev} (h : d.Sound) (hp : d.phase = .rd1) (bs : List Byte) :
    (d.storeA bs).Sound :=
  h.update rfl .rfl h.phase_legal (by simp [hp]) (by simp [hp]) (by simp [hp])

/-- In RD2 the response buffer B is being filled, and nothing is asked of it. -/
theorem Dev.Sound.storeB {d : Dev} (h : d.Sound) (hp : d.phase = .rd2) (bs : List Byte) :
    (d.storeB bs).Sound :=
  h.update rfl .rfl h.phase_legal (by simp [hp]) h.half_a (by simp [hp])

/-- A sound handle ends with an error as a sound handle. -/
theorem Dev.Sound.finish_error {d : Dev} (h : d.Sound) {e : ErrCode} (he : e ≠ .noError) :
    (d.finish e).Sound :=
  finish_sound h.res_valid h.serial_valid h.model_valid fun hn => absurd hn he

/-- A sound handle starts an operation as a sound handle: its first phase is WR1 or EVAL, and EVAL is
first only for the operations that read no response byte (44_session R181). -/
theorem Dev.Sound.begin {d : Dev} (h : d.Sound) (v : Byte) : (d.begin v).Sound := by
  have hf := firstPhase_cases (v.extractLsb' 0 4) d.idValid
  have hw := firstPhase_eq_wr1 (v.extractLsb' 0 4) d.idValid
  refine ⟨⟨?_, by simp, by simp, by simp⟩, by simp, rfl, h.serial_valid, h.model_valid, ?_, ?_, ?_, ?_⟩
  · rcases hf with hf | hf <;> simp [hf]
  · rcases hf with hf | hf <;> simp [Dev.phaseLegal, hf]
  · rintro he (hc | hc) <;> simp_all
  · rcases hf with hf | hf <;> simp [hf]
  · intro he hc hv
    simp_all

/-! ## A response in its buffer -/

/-- The first `n` bytes of an answer stand in the response buffer, and its other bytes are as they
were (10_state R36). -/
theorem storeBytes_take_getElem {m : Nat} (v : Vector (Option Byte) m) (data : Vector Byte 8) {n i : Nat}
    (hi : i < m) (hm : m ≤ 8) (hn : n ≤ 8) :
    (storeBytes v 0 (data.toList.take n))[i] = if i < n then some data[i] else v[i] := by
  rw [storeBytes_getElem]
  by_cases h : i < n
  · simp [h, hn]
  · simp [h, hn]

/-- With a whole answer stored, every byte of the buffer has a value. -/
theorem storeBytes_take_isSome {m : Nat} (v : Vector (Option Byte) m) (data : Vector Byte 8) (hm : m ≤ 8) :
    ∀ b ∈ (storeBytes v 0 (data.toList.take m)).toList, b.isSome = true := by
  intro b hb
  obtain ⟨i, hi, rfl⟩ := Vector.mem_iff_getElem.mp (Vector.mem_toList_iff.mp hb)
  rw [storeBytes_take_getElem v data hi hm hm, if_pos hi]
  rfl

/-! ## A BLOCK step keeps the handle sound -/

/-- CRC_OK of a sound handle is clear while an operation is in progress. -/
theorem Dev.Sound.crcOk_of_phase {d : Dev} (h : d.Sound) (hp : d.phase ≠ .idle) : d.crcOk = false :=
  h.busy_crc (h.status.busy_iff.mpr hp)

/-- EVAL ends an operation with a sound handle. -/
theorem ends_sound {op : Nibble} {d e : Dev} (h : d.Sound) (hp : d.phase ≠ .idle) (he : Ends op d e) :
    e.Sound := by
  have hc := h.crcOk_of_phase hp
  cases he with
  | crc8 | pack | cached => exact Dev.finish_sound rfl h.serial_valid h.model_valid (by simp [hc])
  | verify d0 d1 r =>
    refine Dev.finish_sound rfl h.serial_valid h.model_valid fun _ hv => ?_
    exact (beq_iff_eq.mp hv).symm
  | packIllegal | illegal => exact h.finish_error (by simp)
  | measured _ _ _ _ _ _ _ hv =>
    exact Dev.finish_sound rfl h.serial_valid h.model_valid fun _ _ => hv.symm
  | mismatch => exact Dev.finish_sound h.res_valid h.serial_valid h.model_valid (by simp)
  | sreset => exact Dev.finish_sound h.res_valid h.serial_valid h.model_valid (by simp [hc])
  | resolved => exact Dev.finish_sound rfl rfl rfl (by simp [hc])

/-- After a wire command sent, the handle is sound in the delay phase. -/
theorem emits_sound {d : Dev} {payload : List Byte} {p : Phase} (h : d.Sound)
    (he : Emits d.curop d.phase payload p) : (d.goto p).Sound := by
  have legal := h.phase_legal
  have hA := h.half_a
  obtain ⟨ho, hp, -, rfl⟩ | ⟨ho, hp, -, rfl⟩ | ⟨ho, hp, -, rfl⟩ | ⟨ho, hp, -, rfl⟩ | ⟨ho, hp, -, rfl⟩ :=
    emits_iff.mp he
  all_goals
    simp only [Dev.phaseLegal, hp] at legal
    refine h.update rfl (by simp [hp]) (by simpa [Dev.phaseLegal] using legal) (by simp) ?_ (by simp)
  case inr.inr.inr.inr => exact fun _ => hA (.inl hp)
  all_goals simp

/-- After a delay, the handle is sound in the phase that the delay leads to. -/
theorem waits_sound {d : Dev} {ms : Nat} {p : Phase} (h : d.Sound) (hw : Waits d.curop d.phase ms p) :
    (d.goto p).Sound := by
  have legal := h.phase_legal
  have hA := h.half_a
  obtain ⟨ho, hp, -, rfl⟩ | ⟨ho, hp, -, rfl⟩ | ⟨ho, hp, -, rfl⟩ | ⟨ho, hp, -, rfl⟩ | ⟨ho, hp, -, rfl⟩ :=
    waits_iff.mp hw
  all_goals
    simp only [Dev.phaseLegal, hp] at legal
    refine h.update rfl (by simp [hp]) (by simp_all [Dev.phaseLegal]) (by simp [ho]) ?_ (by simp [ho])
  case inr.inr.inr.inr => exact fun _ => hA (.inr (.inl hp))
  all_goals simp

/-- After the bytes of a response are stored, the handle is sound in the phase that the read leads to: the
bytes that a coming EVAL reads are there. -/
theorem receives_sound {d : Dev} {n : Nat} {store : Dev → List Byte → Dev} {p : Phase} (h : d.Sound)
    (hr : Receives d.curop d.phase n store p) (data : Vector Byte 8) :
    ((store d (data.toList.take n)).goto p).Sound := by
  have legal := h.phase_legal
  have hA := h.half_a
  have h3 : ∀ i (hi : i < 3), (storeBytes d.rspA 0 (data.toList.take 3))[i].isSome = true := fun i hi => by
    rw [storeBytes_take_getElem d.rspA data (by omega) (by omega) (by omega), if_pos hi]
    rfl
  have measurement (hp : d.phase = .rd1) (ho : d.curop ≠ 7) :
      ((d.storeA (data.toList.take 3)).goto .eval).Sound :=
    (h.storeA hp _).update rfl (by simp [hp]) trivial
      (fun _ _ => ⟨h3 0 (by omega), h3 1 (by omega), h3 2 (by omega)⟩) (by simp)
      fun _ h7 => absurd h7 ho
  obtain ⟨ho, hp, rfl, rfl, rfl⟩ | ⟨ho, hp, rfl, rfl, rfl⟩ | ⟨ho, hp, rfl, rfl, rfl⟩ |
    ⟨ho, hp, rfl, rfl, rfl⟩ := receives_iff.mp hr
  · exact measurement hp (by simp [ho])
  · exact measurement hp (by simp [ho])
  · simp only [Dev.phaseLegal, hp] at legal
    have hv : d.idValid = false := by simpa [firstPhase_eq_wr1, ho] using legal.1
    exact (h.storeA hp _).update rfl (by simp [hp]) ⟨ho, hv⟩ (by simp)
      (fun _ => storeBytes_take_isSome d.rspA data (by omega)) (by simp)
  · exact (h.storeB hp _).update rfl (by simp [hp]) trivial (by simp [ho]) (by simp)
      fun _ _ _ => ⟨hA (.inr (.inr hp)), storeBytes_take_isSome d.rspB data (by omega)⟩

/-! ## A step keeps every handle sound -/

/-- A BLOCK step keeps the handle that takes it sound. -/
theorem move_sound {s t : State} (h : s.dev.Sound) (hp : s.dev.phase ≠ .idle)
    (hm : Move s.dev.curop s t) : t.dev.Sound := by
  cases hm with
  | hang | noOperand => exact h
  | wrote data ha he => simpa using emits_sound (h.record _) he
  | writeFailed ha he => simpa using (h.record _).finish_error (e := .transportError) (by simp)
  | received data ha hr => simpa using receives_sound (h.record _) hr data
  | readFailed ha hr => simpa using (h.record _).finish_error (e := .transportError) (by simp)
  | waited hw => exact waits_sound (h.record _) hw
  | ended _ he => exact ends_sound h hp he

/-- BLOCK and HOST keep the handle they act on sound. -/
theorem acts_sound {s t : State} (h : s.dev.Sound) (ha : Acts s t) : t.dev.Sound := by
  cases ha with
  | block hp hm => exact move_sound h hp hm
  | nothing => exact h
  | read hr => rcases execHr_cases hr with ⟨b, -, rfl⟩ | ⟨-, rfl⟩ <;> exact h
  | write hw =>
    rcases execHw_cases hw with ⟨-, hv⟩ | rfl | ⟨-, -, -, rfl⟩ | rfl
    · rcases startOp_cases hv with ⟨-, rfl⟩ | ⟨-, -, rfl⟩
      · exact h
      · exact h.begin _
    · exact h
    · exact h.storeOperand _
    · exact h

/-- A BLOCK step of another handle keeps every handle sound. -/
theorem otherActs_sound {s t : State} {k : Nat} (h : s.Sound) (ho : OtherActs k s t) : t.Sound := by
  cases ho with
  | nothing => exact h
  | @block d u hd hp hu =>
    refine ⟨h.1, fun e he => ?_⟩
    rcases List.mem_or_eq_of_mem_set he with he | rfl
    · exact h.2 e he
    · exact acts_sound (h.2 d (List.mem_of_getElem? hd)) (blockTurn_acts hu)

/-- Selecting another handle keeps every handle sound. -/
theorem select_sound {s : State} (h : s.Sound) (k : Nat) : (select k s).Sound := by
  rcases select_cases s k with hs | ⟨d, hd, hs⟩ <;> rw [hs]
  · exact h
  · refine ⟨h.2 d (List.mem_of_getElem? hd), fun e he => ?_⟩
    rcases List.mem_or_eq_of_mem_set he with he | rfl
    · exact h.2 e he
    · exact h.1

/-- Settles O48: BLOCK and HOST keep the handle they act on sound (`acts_sound`), and every other entry of
the inbox leaves, resets, adds or exchanges handles. -/
theorem soundnessKept : Obligations.SoundnessKept := by
  intro s t h hst
  obtain ⟨inbox, rotor, -, ha⟩ | ⟨-, -, k, ho⟩ | ⟨a, -, rfl⟩ | ⟨a, -, rfl⟩ | ⟨k, -, rfl⟩ := step_cases hst
  · exact ⟨acts_sound (s := { s with inbox := inbox, rotor := rotor }) h.1 ha,
      fun d hd => h.2 d (acts_others ha ▸ hd)⟩
  · exact otherActs_sound (s := { s with rotor := s.rotor + 1 }) h ho
  · exact ⟨Dev.reset_sound a, by simpa using h.2⟩
  · refine ⟨h.1, fun d hd => ?_⟩
    rcases List.mem_append.mp hd with hd | hd
    · exact h.2 d hd
    · exact List.mem_singleton.mp hd ▸ Dev.reset_sound a
  · exact select_sound (s := { s with inbox := s.inbox.tail }) h k

/-- With the addressed handle just reset and no other handle, the machine is sound. -/
theorem State.sound_of_reset {s : State} {a : BusAddr} (hd : s.dev = Dev.reset a) (ho : s.others = []) :
    s.Sound :=
  ⟨hd ▸ Dev.reset_sound a, by simp [ho]⟩

/-- Settles O49: the reset handle is sound, and there is no other. -/
theorem resetIsSound : Obligations.ResetIsSound :=
  fun _ _ _ => State.sound_of_reset rfl rfl

/-- Settles O50: soundness holds after reset, and every step keeps it. -/
theorem statusInvariantsReachable : Obligations.StatusInvariantsReachable := by
  intro k a inbox answers draws frees rotor t hr d hd
  obtain ⟨hdev, hothers⟩ : t.Sound := runs_keeps soundnessKept (State.sound_of_reset rfl rfl) hr
  have hd : d.Sound := by
    rcases List.mem_cons.mp hd with rfl | hd
    · exact hdev
    · exact hothers d hd
  exact ⟨hd.status.busy_iff, hd.status.err_clears, hd.status.busy_clears, hd.status.crc_equal⟩

end Sys2Proof.Machine
end

section
/-! PROOFS. What operations and steps leave unchanged (10_state R27, R30, R35, R37), and the two read phases
with their exact frames (44_session R185, 43_identity R162, R163). -/

namespace Sys2Proof.Machine

/-! ## What a BLOCK step leaves of its handle -/

/-- EVAL writes neither ADDR, OPB, CUROP nor LEN_L (10_state R27, R30, R35). -/
theorem ends_frame {op : Nibble} {d e : Dev} (h : Ends op d e) :
    e.addr = d.addr ∧ e.opb = d.opb ∧ e.curop = d.curop ∧ e.lenL = d.lenL := by
  cases h <;> exact ⟨rfl, rfl, rfl, rfl⟩

/-- EVAL does not write an identity once it is cached (43_identity R164). -/
theorem ends_identity {op : Nibble} {d e : Dev} (h : Ends op d e) (hv : d.idValid = true) :
    e.idValid = true ∧ e.serial = d.serial ∧ e.model = d.model := by
  cases h with
  | resolved _ _ _ hn => simp [hv] at hn
  | _ => exact ⟨hv, rfl, rfl⟩

/-- The bytes of a response go to RSP_A or to RSP_B (10_state R36). -/
theorem receives_store {op : Nibble} {here p : Phase} {n : Nat} {store : Dev → List Byte → Dev}
    (h : Receives op here n store p) : store = Dev.storeA ∨ store = Dev.storeB := by
  cases h with
  | idB => exact .inr rfl
  | _ => exact .inl rfl

/-- A BLOCK step writes neither ADDR, OPB, CUROP nor LEN_L of its handle. -/
theorem move_dev_frame {op : Nibble} {s t : State} (h : Move op s t) :
    t.dev.addr = s.dev.addr ∧ t.dev.opb = s.dev.opb ∧ t.dev.curop = s.dev.curop ∧
      t.dev.lenL = s.dev.lenL := by
  cases h with
  | ended _ he => exact ends_frame he
  | received data ha hr => rcases receives_store hr with rfl | rfl <;> simp
  | _ => simp

/-- A BLOCK step does not write an identity once it is cached. -/
theorem move_identity {op : Nibble} {s t : State} (h : Move op s t) (hv : s.dev.idValid = true) :
    t.dev.idValid = true ∧ t.dev.serial = s.dev.serial ∧ t.dev.model = s.dev.model := by
  cases h with
  | ended _ he => exact ends_identity he hv
  | received data ha hr => rcases receives_store hr with rfl | rfl <;> simp [hv]
  | _ => simp [hv]

/-- Neither BLOCK nor HOST writes ADDR of a handle, or its identity once it is cached. -/
theorem actsOn_identity {d e : Dev} (h : ActsOn d e) :
    e.addr = d.addr ∧ (d.idValid = true → e.idValid = true ∧ e.serial = d.serial ∧ e.model = d.model) := by
  obtain ⟨s, t, ha, rfl, rfl⟩ := h
  cases ha with
  | block _ hm => exact ⟨(move_dev_frame hm).1, move_identity hm⟩
  | nothing => simp
  | read hr => rcases execHr_cases hr with ⟨b, -, rfl⟩ | ⟨-, rfl⟩ <;> simp
  | write hw =>
    rcases execHw_cases hw with ⟨-, hv⟩ | rfl | ⟨-, -, -, rfl⟩ | rfl
    · rcases startOp_cases hv with ⟨-, rfl⟩ | ⟨-, -, rfl⟩ <;> simp
    all_goals simp

/-- Settles O37: from IDLE the row starts its operation (`startOp_cases`); past it, it is one BLOCK step. -/
theorem operationFrame : Obligations.OperationFrame := by
  intro i s t hi h
  rcases exec_block_cases hi h with ⟨hp, v, hv⟩ | ⟨hp, op, hm, -⟩
  · rcases startOp_cases hv with ⟨-, rfl⟩ | ⟨-, -, rfl⟩ <;> simp [hp]
  · obtain ⟨haddr, hopb, hcurop, hlen⟩ := move_dev_frame hm
    obtain ⟨hothers, hinbox, hreads, hfrees, hrefused, -⟩ := move_frame hm
    exact ⟨haddr, hopb, hothers, hinbox, hreads, hfrees, fun _ => ⟨hcurop, hlen, hrefused⟩⟩

/-- Settles O40: such a step is an act of BLOCK or HOST on each handle (`step_handle`). -/
theorem identityAndAddressKept : Obligations.IdentityAndAddressKept := by
  intro s t k d hs h hd
  obtain ⟨e, he, ha⟩ := step_handle hs h hd
  exact ⟨e, he, actsOn_identity ha⟩

/-! ## A read, by what the transport answers -/

section
variable {s : State} (n : Nat) (store : Dev → List Byte → Dev) (p : Phase)

theorem memRead_of_ok {data : Vector Byte 8} (h : s.nextAnswer = .ok data) :
    memRead n store p s = { s.popAnswer with
      dev := (store (s.dev.record (.read s.dev.addr n (.ok (data.toList.take n))))
        (data.toList.take n)).goto p } := by
  simp [memRead, h, State.onDev]

theorem memRead_of_transportError (h : s.nextAnswer = .transportError) :
    memRead n store p s = { s.popAnswer with
      dev := (s.dev.record (.read s.dev.addr n .transportError)).finish .transportError } := by
  simp [memRead, h, State.onDev]

theorem memRead_of_noAnswer (h : s.nextAnswer = .noAnswer) : memRead n store p s = s := by
  simp [memRead, h]

end

/-- The first read of a measurement is of 3 bytes, that of READ_ID of 8 (44_session R185, 43_identity
R162). -/
theorem exec_rd1 {len : Nibble} {i : Instr} {n : Nat} {after : Phase} {s : State}
    (hi : ((i = .measT len ∨ i = .measRh len) ∧ n = 3 ∧ after = .eval) ∨
      (i = .readId len ∧ n = 8 ∧ after = .wr2)) (hp : s.dev.phase = .rd1) :
    exec i s = .next (memRead n Dev.storeA after s) := by
  rcases hi with ⟨rfl | rfl, rfl, rfl⟩ | ⟨rfl, rfl, rfl⟩
  · simp [exec, execMeasT, operation, measurement, hp]
  · simp [exec, execMeasRh, operation, measurement, hp]
  · simp [exec, execReadId, operation, readIdBlock, hp]

/-- The second read of READ_ID is of 6 bytes (43_identity R163). -/
theorem exec_readId_rd2 {len : Nibble} {s : State} (hp : s.dev.phase = .rd2) :
    exec (.readId len) s = .next (memRead 6 Dev.storeB .eval s) := by
  simp [exec, execReadId, operation, readIdBlock, hp]

/-- Settles O24: the row is the MemRead of its phase (`exec_rd1`), and the buffer is the one that
`storeBytes` leaves. -/
theorem firstReadCompletes : Obligations.FirstReadCompletes := by
  intro len i n after s hi hp
  rw [exec_rd1 hi hp]
  refine ⟨fun data ha => ⟨storeBytes s.dev.rspA 0 (data.toList.take n), fun k => ?_, ?_⟩,
    fun ha => ?_, fun ha => ?_⟩
  · have hn : n ≤ 8 := by rcases hi with ⟨-, rfl, -⟩ | ⟨-, rfl, -⟩ <;> decide
    exact storeBytes_take_getElem s.dev.rspA data k.isLt le_rfl hn
  · rw [memRead_of_ok n _ _ ha]; rfl
  · rw [memRead_of_transportError n _ _ ha]; rfl
  · rw [memRead_of_noAnswer n _ _ ha]

/-- Settles O25: the row is the MemRead of 6 bytes, which fill RSP_B. -/
theorem secondReadCompletes : Obligations.SecondReadCompletes := by
  intro len s hp
  rw [exec_readId_rd2 hp]
  refine ⟨fun data ha => ⟨storeBytes s.dev.rspB 0 (data.toList.take 6), fun k => ?_, ?_⟩,
    fun ha => ?_, fun ha => ?_⟩
  · exact (storeBytes_take_getElem s.dev.rspB data k.isLt (by decide) (by decide)).trans (if_pos k.isLt)
  · rw [memRead_of_ok 6 _ _ ha]; rfl
  · rw [memRead_of_transportError 6 _ _ ha]; rfl
  · rw [memRead_of_noAnswer 6 _ _ ha]

end Sys2Proof.Machine
end

section
/-! PROOFS. HOST's two actions on the register map (10_state R21 to R34, 30_encoding R82), and building,
selecting and resetting handles (10_state R45, 70_reset R240). -/

namespace Sys2Proof.Machine

/-! ## Host reads -/

/-- Settles O6: a host read goes by what the offset shows. -/
theorem hostReadCompletes : Obligations.HostReadCompletes := by
  intro off s
  refine ⟨fun b hb => ?_, fun hn => ?_⟩
  · simp [exec, execHr, hb]
  · simp [exec, execHr, hn, State.markFault]

/-! ## The bits of the registers -/

/-- STATUS bit by bit (10_state R26): ERR in bits 7:5, then the five flags. -/
theorem status_bits (err : BitVec 3) (idValid crcOk resValid done busy : Bool) :
    let v : Byte := err ++ BitVec.ofBool idValid ++ BitVec.ofBool crcOk ++ BitVec.ofBool resValid
      ++ BitVec.ofBool done ++ BitVec.ofBool busy
    v.getLsbD 0 = busy ∧ v.getLsbD 1 = done ∧ v.getLsbD 2 = resValid ∧ v.getLsbD 3 = crcOk ∧
      v.getLsbD 4 = idValid ∧ v.extractLsb' 5 3 = err := by
  revert err idValid crcOk resValid done busy; decide

/-- SEQ bit by bit (10_state R31): PHASE in bits 2:0, CUROP in bits 7:4, a zero between. -/
theorem seq_bits (curop : Nibble) (phase : BitVec 3) :
    let v : Byte := curop ++ (0 : BitVec 1) ++ phase
    v.extractLsb' 0 3 = phase ∧ v.getLsbD 3 = false ∧ v.extractLsb' 4 4 = curop := by
  revert curop phase; decide

/-- ADDR as a byte (10_state R27): bit 7 is zero. -/
theorem addr_bits (a : BusAddr) :
    (a.setWidth 8).extractLsb' 0 7 = a ∧ (a.setWidth 8).getLsbD 7 = false := by
  revert a; decide

/-- MODEL as a byte (10_state R28): bits 7:3 are zero. -/
theorem model_bits (m : BitVec 3) :
    (m.setWidth 8).extractLsb' 0 3 = m ∧ (m.setWidth 8).extractLsb' 3 5 = 0 := by
  revert m; decide

/-- Settles O7: each register is its fields put together. -/
theorem hostVisibleFields : Obligations.HostVisibleFields := by
  refine ⟨by decide, by decide, fun d => ⟨⟨d.cmdByte, rfl, extract_append_low d.lenL d.curop,
    extract_append_high d.lenL d.curop⟩, ⟨d.statusByte, rfl, status_bits ..⟩,
    ⟨d.addr.setWidth 8, rfl, addr_bits d.addr⟩, fun m hv hm => ⟨m.code.setWidth 8, ?_, model_bits m.code⟩,
    rfl, rfl, ⟨d.seqByte, rfl, seq_bits d.curop d.phase.code⟩⟩⟩
  rw [peek_model d 0x03 rfl, hv, hm]
  rfl

/-! ## Eight-byte fields -/

/-- The `n` most significant bytes of a 64-bit value, put together, are its top `8 * n` bits. -/
theorem pack_byteOf (v : Word64) {n : Nat} (hn : n ≤ 8) :
    pack ((List.range n).map (byteOf v)) = v.toNat / 2 ^ (8 * (8 - n)) := by
  induction n with
  | zero => simp [Nat.div_eq_of_lt v.isLt]
  | succ n ih =>
    have hs : 2 ^ (8 * (8 - n)) = 2 ^ (8 * (7 - n)) * 256 := by
      rw [show 8 * (8 - n) = 8 * (7 - n) + 8 by omega, Nat.pow_add]
    have hb : (byteOf v n).toNat = v.toNat / 2 ^ (8 * (7 - n)) % 256 := by
      rw [byteOf, BitVec.extractLsb'_toNat, Nat.shiftRight_eq_div_pow]
    rw [List.range_succ, List.map_append, List.map_singleton, pack_snoc, ih (by omega), hb, hs,
      ← Nat.div_div_eq_div_mul, show 8 - (n + 1) = 7 - n by omega]
    exact Nat.div_add_mod' _ 256

/-- Eight offsets that show the bytes of a value, most significant first, read as that value (20_memory
R54). -/
theorem rd64_of_bytes {d : Dev} {base : Byte} {v : Word64}
    (h : ∀ k, k < 8 → peek d (base + BitVec.ofNat 8 k) = some (byteOf v k)) :
    rd64 d base = some v.toNat := by
  have hbytes : [peek d base, peek d (base + 1), peek d (base + 2), peek d (base + 3), peek d (base + 4),
      peek d (base + 5), peek d (base + 6), peek d (base + 7)] =
      ((List.range 8).map (byteOf v)).map some := calc
    _ = (List.range 8).map fun k => peek d (base + BitVec.ofNat 8 k) := by simp [List.range_succ]
    _ = (List.range 8).map fun k => some (byteOf v k) :=
      List.map_congr_left fun k hk => h k (List.mem_range.mp hk)
    _ = _ := List.map_map.symm
  rw [rd64, (allSome_eq_some _ _).mpr hbytes, Option.map_some, pack_byteOf v (le_refl 8)]
  simp

/-- Settles O8: the offsets of RES and of SERIAL show the bytes of their values. -/
theorem eightReadsGiveTheValue : Obligations.EightReadsGiveTheValue := by
  intro d v
  refine ⟨fun hv hr => rd64_of_bytes fun k hk => ?_, fun hv hs => rd64_of_bytes fun k hk => ?_⟩
  · have ho : (0x10 + BitVec.ofNat 8 k : Byte).toNat = 0x10 + k := by simp; omega
    rw [peek_res d _ (by omega) (by omega), hv, hr, ho]
    simp
  · have ho : (0x18 + BitVec.ofNat 8 k : Byte).toNat = 0x18 + k := by simp; omega
    rw [peek_serial d _ (by omega) (by omega), hv, hs, ho]
    simp

/-! ## Offsets without a value -/

/-- A field that is shown while its validity bit is set, and has a value exactly then, has none exactly while
the bit is clear (10_state R21). -/
theorem shown_eq_none {α β : Type} {valid : Bool} {x : Option α} {f : α → β} (h : valid = x.isSome) :
    (if valid then x.map f else none) = none ↔ valid = false := by
  subst h
  cases x <;> simp

/-- Settles O9, region by region of the map. -/
theorem offsetsWithoutValue : Obligations.OffsetsWithoutValue := by
  intro d off h
  rcases offset_cases off with ⟨hlo, hne⟩ | ho | ho | ⟨i, ho⟩ | ⟨hlo, hhi⟩ | ⟨hlo, hhi⟩
  · obtain ⟨b, hb⟩ := peek_fixed d off hlo hne
    refine iff_of_false (by simp [hb d.opb]) ?_
    rintro (⟨hx, -⟩ | ⟨hx, -⟩ | ⟨j, hj, -⟩) <;> omega
  · rw [peek_model d off ho, shown_eq_none h.model_valid]
    constructor
    · exact fun hn => .inr (.inl ⟨.inl ho, hn⟩)
    · rintro (⟨hx, -⟩ | ⟨-, hn⟩ | ⟨j, hj, -⟩)
      · omega
      · exact hn
      · omega
  · refine iff_of_false (by simp [peek_reserved d off ho]) ?_
    rintro (⟨hx, hx', -⟩ | ⟨hx, -⟩ | ⟨j, hj, -⟩) <;> omega
  · rw [peek_operand d off i ho]
    have hi := i.isLt
    constructor
    · exact fun hn => .inr (.inr ⟨i, ho, hn⟩)
    · rintro (⟨hlo, -⟩ | ⟨hx, -⟩ | ⟨j, hj, hn⟩)
      · omega
      · omega
      · obtain rfl : i = j := Fin.ext (by omega)
        exact hn
  · rw [peek_res d off hlo hhi, shown_eq_none h.res_valid]
    constructor
    · exact fun hn => .inl ⟨hlo, hhi, hn⟩
    · rintro (⟨-, -, hn⟩ | ⟨hx, -⟩ | ⟨j, hj, -⟩)
      · exact hn
      · omega
      · omega
  · rw [peek_serial d off hlo hhi, shown_eq_none h.serial_valid]
    constructor
    · exact fun hn => .inr (.inl ⟨.inr ⟨hlo, hhi⟩, hn⟩)
    · rintro (⟨-, hx, -⟩ | ⟨-, hn⟩ | ⟨j, hj, -⟩)
      · omega
      · exact hn
      · omega

/-! ## Host writes -/

/-- HW on an operand byte while BUSY = 0 (10_state R30). -/
theorem execHw_operand {off : Byte} (v : Byte) {s : State} (i : Fin 8) (ho : off.toNat = 0x08 + i.val)
    (hb : s.dev.busy = false) :
    execHw off v s = .next (s.onDev fun d => { d with opb := d.opb.setIfInBounds i (some v) }) := by
  have hi := i.isLt
  rw [execHw, if_neg (by omega), if_pos (by omega), writeOperand, hb, ho, Nat.add_sub_cancel_left]
  rfl

/-- An offset that is no operand byte shows the same whatever the operand bytes are. -/
theorem peek_opb (d : Dev) (buf : Vector (Option Byte) 8) {off : Byte}
    (h : ∀ i : Fin 8, off.toNat ≠ 0x08 + i.val) : peek { d with opb := buf } off = peek d off := by
  rcases offset_cases off with ⟨hlo, hne⟩ | ho | ho | ⟨i, ho⟩ | ⟨hlo, hhi⟩ | ⟨hlo, hhi⟩
  · obtain ⟨b, hb⟩ := peek_fixed d off hlo hne
    rw [hb buf, ← hb d.opb]
  · rw [peek_model _ off ho, peek_model _ off ho]
  · rw [peek_reserved _ off ho, peek_reserved _ off ho]
  · exact absurd ho (h i)
  · rw [peek_res _ off hlo hhi, peek_res _ off hlo hhi]
  · rw [peek_serial _ off hlo hhi, peek_serial _ off hlo hhi]

/-- Settles O10: only the byte at the offset written is another. -/
theorem operandWriteStores : Obligations.OperandWriteStores := by
  intro i v s hb
  have ho : (0x08 + BitVec.ofNat 8 i.val : Byte).toNat = 0x08 + i.val := by
    have hi := i.isLt
    simp; omega
  refine ⟨_, execHw_operand v i ho hb, rfl, ?_, fun off hne => ?_⟩
  · rw [peek_operand _ _ i ho]
    simp
  · by_cases h : ∃ j : Fin 8, off.toNat = 0x08 + j.val
    · obtain ⟨j, hj⟩ := h
      have hij : i.val ≠ j.val := fun e => hne (BitVec.eq_of_toNat_eq (by omega))
      rw [peek_operand _ _ j hj, peek_operand _ _ j hj]
      simp [Vector.getElem_setIfInBounds_ne, hij]
    · exact peek_opb s.dev _ (not_exists.mp h)

/-- A host write outside CMD and OPB is ignored (10_state R34). -/
theorem execHw_ignored {off : Byte} (v : Byte) (s : State) (h : off.toNat ≠ 0)
    (h' : off.toNat < 0x08 ∨ 0x10 ≤ off.toNat) : execHw off v s = .next s := by
  rw [execHw, if_neg h, if_neg (by omega)]

/-- Settles O11: the offsets named are outside CMD and OPB (`execHw_ignored`). -/
theorem ignoredWritesChangeNothing : Obligations.IgnoredWritesChangeNothing := by
  intro off v s
  exact ⟨fun h => ⟨peek_reserved s.dev off h, execHw_ignored v s (by omega) (by omega)⟩,
    fun h => execHw_ignored v s (by omega) (by omega)⟩

/-! ## Building, selecting, resetting -/

/-- Settles O47: each of the three is the step of its entry of the inbox. -/
theorem handlesBuiltSelectedReset : Obligations.HandlesBuiltSelectedReset := by
  intro s rest
  refine ⟨fun a hi => ?_, fun k d hi hd => ?_, fun a hi => ?_⟩
  · simp [step, nextStep, hi, build]
  · simp [step, nextStep, hi, select, hd]
  · refine ⟨blockReset a { s with inbox := rest }, by simp [step, nextStep, hi], rfl, ?_⟩
    simp

/-- Settles O53: the offsets from OPB on have no value, since the reset handle is sound (O9) and its operand
bytes and validity bits are clear. -/
theorem resetVisible : Obligations.ResetVisible := by
  refine ⟨rfl, by decide, by decide, by decide, by decide, by decide, by decide, by decide,
    fun off hlo hhi => ?_, rfl, rfl, rfl⟩
  refine (offsetsWithoutValue _ off (Dev.reset_sound Config.defaultAddr)).mpr ?_
  by_cases h : off.toNat < 0x10
  · exact .inr (.inr ⟨⟨off.toNat - 8, by omega⟩, by simp; omega, by simp [Dev.reset]⟩)
  · by_cases h' : off.toNat < 0x18
    · exact .inl ⟨by omega, h', rfl⟩
    · exact .inr (.inl ⟨.inr ⟨by omega, hhi⟩, rfl⟩)

end Sys2Proof.Machine
end

section
/-! PROOFS. The transport: at most one handle uses it (20_memory R64, 70_reset R248), and the traffic on it
is the tables' (20_memory R51, R58). -/

namespace Sys2Proof.Machine

variable {s t : State}

/-! ## Who uses the transport -/

theorem Dev.midTransfer_iff (d : Dev) : d.midTransfer = true ↔ d.phase ≠ .idle ∧ d.phase ≠ .eval := by
  cases hp : d.phase <;> simp [midTransfer, hp]

/-- A handle just reset is in IDLE (10_state R45). -/
@[simp] theorem Dev.reset_midTransfer (a : BusAddr) : (Dev.reset a).midTransfer = false := rfl

/-- Exclusive use as a count over the handles. -/
theorem State.busExclusive_iff (s : State) :
    s.BusExclusive ↔ (s.dev :: s.others).countP Dev.midTransfer ≤ 1 := by
  rw [List.countP_eq_length_filter]
  rfl

/-- A BLOCK step starts no use of the transport: a handle in a WR, DLY or RD phase after it was in one
before it (44_session R181). -/
theorem move_midTransfer (h : Move s.dev.curop s t) (ht : t.dev.midTransfer = true) :
    s.dev.midTransfer = true := by
  cases h with
  | hang | noOperand => exact ht
  | writeFailed | readFailed => simp [Dev.midTransfer_iff] at ht
  | ended _ he => simp [Dev.midTransfer_iff, ends_phase he] at ht
  | wrote _ _ he => rw [Dev.midTransfer_iff]; rcases emits_iff.mp he with h | h | h | h | h <;> simp [h]
  | received _ _ hr => rw [Dev.midTransfer_iff]; rcases receives_iff.mp hr with h | h | h | h <;> simp [h]
  | waited hw => rw [Dev.midTransfer_iff]; rcases waits_iff.mp hw with h | h | h | h | h <;> simp [h]

/-- An operation starts in WR1 exactly where it touches the bus (44_session R181, 60_exceptions R221). -/
theorem Dev.begin_midTransfer (d : Dev) (v : Byte) :
    (d.begin v).midTransfer = true ↔ d.touchesBus v := by
  rw [midTransfer_iff, begin_phase, touchesBus, ← firstPhase_eq_wr1]
  rcases firstPhase_cases (v.extractLsb' 0 4) d.idValid with hf | hf <;> simp [hf]

/-- BLOCK and HOST start a use of the transport only where no other handle uses it (20_memory R64). -/
theorem acts_midTransfer (h : Acts s t) (ht : t.dev.midTransfer = true) :
    s.dev.midTransfer = true ∨ s.busFree := by
  cases h with
  | block _ hm => exact .inl (move_midTransfer hm ht)
  | nothing => exact .inl ht
  | read hr => rcases execHr_cases hr with ⟨b, -, rfl⟩ | ⟨-, rfl⟩ <;> exact .inl ht
  | write hw =>
    rcases execHw_cases hw with ⟨-, hv⟩ | rfl | ⟨-, -, -, rfl⟩ | rfl
    · rcases startOp_cases hv with ⟨-, rfl⟩ | ⟨-, hc, rfl⟩
      · exact .inl ht
      · exact .inr ((busConflict_eq_false s _).mp hc ((Dev.begin_midTransfer s.dev _).mp ht))
    all_goals exact .inl ht

/-! ## Exclusive use is kept -/

theorem acts_busExclusive (h : s.BusExclusive) (ha : Acts s t) : t.BusExclusive := by
  rw [State.busExclusive_iff, List.countP_cons] at h ⊢
  rw [acts_others ha]
  by_cases ht : t.dev.midTransfer = true
  · rcases acts_midTransfer ha ht with hs | hf
    · simpa [hs, ht] using h
    · have h0 : s.others.countP Dev.midTransfer = 0 := by simpa [List.countP_eq_zero, State.busFree] using hf
      simp [h0, ht]
  · rw [if_neg ht]
    omega

/-- Another handle's BLOCK step exchanges that handle, in the count, for what the step makes of it. -/
theorem otherActs_busExclusive {k : Nat} (h : s.BusExclusive) (ho : OtherActs k s t) : t.BusExclusive := by
  cases ho with
  | nothing => exact h
  | @block d u hd hp hu =>
    have hm : u.dev.midTransfer = true → d.midTransfer = true := move_midTransfer (blockTurn_move hp hu)
    have hc := (List.getD_set_perm_cons s.others k u.dev).countP_eq Dev.midTransfer
    rw [hd, Option.getD_some] at hc
    simp only [State.busExclusive_iff, List.countP_cons] at h hc ⊢
    by_cases ht : u.dev.midTransfer = true
    · simp only [ht, hm ht] at hc
      omega
    · rw [if_neg ht] at hc
      omega

/-- Selecting a handle reorders the handles. -/
theorem select_busExclusive (h : s.BusExclusive) (k : Nat) : (select k s).BusExclusive := by
  rcases select_cases s k with hs | ⟨d, hd, hs⟩ <;> rw [hs]
  · exact h
  · have hc := (List.getD_set_perm_cons s.others k s.dev).countP_eq Dev.midTransfer
    rw [hd, Option.getD_some] at hc
    rw [State.busExclusive_iff] at h ⊢
    exact hc.trans_le h

/-- Settles O51: a use of the transport starts only where the transport is free (`acts_midTransfer`), a step
of another handle starts none, and a handle just reset or built is in IDLE. -/
theorem transportUseStaysExclusive : Obligations.TransportUseStaysExclusive := by
  intro s t _ h hst
  obtain ⟨inbox, rotor, -, ha⟩ | ⟨-, -, k, ho⟩ | ⟨a, -, rfl⟩ | ⟨a, -, rfl⟩ | ⟨k, -, rfl⟩ := step_cases hst
  · exact acts_busExclusive (s := { s with inbox := inbox, rotor := rotor }) h ha
  · exact otherActs_busExclusive (s := { s with rotor := s.rotor + 1 }) h ho
  · rw [State.busExclusive_iff, List.countP_cons] at h ⊢
    simp only [blockReset_dev, blockReset_others, Dev.reset_midTransfer, Bool.false_eq_true, if_false]
    omega
  · rw [State.busExclusive_iff] at h ⊢
    simpa [List.countP_cons] using h
  · exact select_busExclusive (s := { s with inbox := s.inbox.tail }) h k

/-! ## What HIST gains -/

/-- EVAL records no event (44_session R190). -/
theorem ends_hist {op : Nibble} {d e : Dev} (h : Ends op d e) : e.hist = d.hist := by
  cases h <;> rfl

/-- The write of a phase is the table's (30_encoding R72). -/
theorem emits_allowed {d : Dev} {payload : List Byte} {p : Phase} (h : Emits d.curop d.phase payload p)
    (o : WriteOutcome) : d.allowsEvent (.write d.addr payload o) := by
  refine ⟨rfl, ?_⟩
  rcases emits_iff.mp h with h | h | h | h | h <;> simp [h]

/-- The read of a phase is the table's, and a response has the bytes asked for (20_memory R53, R58). -/
theorem receives_allowed {d : Dev} {n : Nat} {store : Dev → List Byte → Dev} {p : Phase}
    (h : Receives d.curop d.phase n store p) {o : ReadOutcome}
    (ho : o = .transportError ∨ ∃ data : Vector Byte 8, o = .ok (data.toList.take n)) :
    d.allowsEvent (.read d.addr n o) := by
  refine ⟨rfl, ?_, fun bytes hb => ?_⟩
  · rcases receives_iff.mp h with h | h | h | h <;> simp [h]
  · have hn : n ≤ 8 := by rcases receives_iff.mp h with h | h | h | h <;> simp [h]
    rcases ho with rfl | ⟨data, rfl⟩ <;> cases hb
    simpa using hn

/-- The delay of a phase is the table's (44_session R190). -/
theorem waits_allowed {d : Dev} {ms : Nat} {p : Phase} (h : Waits d.curop d.phase ms p) :
    d.allowsEvent (.delay ms) := by
  rw [Dev.allowsEvent]
  rcases waits_iff.mp h with h | h | h | h | h <;> simp [h]

/-- HIST of the handle `d` grows in `e` by nothing, or by one event that the tables give to `d`. -/
def HistGrows (d e : Dev) : Prop :=
  e.hist = d.hist ∨ ∃ ev, e.hist = d.hist ++ [ev] ∧ d.allowsEvent ev

/-- A BLOCK step records at most the event of its phase (44_session R183). -/
theorem move_hist (h : Move s.dev.curop s t) : HistGrows s.dev t.dev := by
  cases h with
  | hang | noOperand => exact .inl rfl
  | ended _ he => exact .inl (ends_hist he)
  | wrote _ _ he => exact .inr ⟨_, by simp, emits_allowed he .ok⟩
  | writeFailed _ he => exact .inr ⟨_, by simp, emits_allowed he .transportError⟩
  | received data _ hr =>
    refine .inr ⟨_, ?_, receives_allowed hr (.inr ⟨data, rfl⟩)⟩
    rcases receives_store hr with rfl | rfl <;> simp
  | readFailed _ hr => exact .inr ⟨_, by simp, receives_allowed hr (.inl rfl)⟩
  | waited hw => exact .inr ⟨_, rfl, waits_allowed hw⟩

/-- HOST records no event; BLOCK records at most the one of its phase. -/
theorem actsOn_hist {d e : Dev} (h : ActsOn d e) : HistGrows d e := by
  obtain ⟨s, t, ha, rfl, rfl⟩ := h
  cases ha with
  | block _ hm => exact move_hist hm
  | nothing => exact .inl rfl
  | read hr => rcases execHr_cases hr with ⟨b, -, rfl⟩ | ⟨-, rfl⟩ <;> exact .inl rfl
  | write hw =>
    rcases execHw_cases hw with ⟨-, hv⟩ | rfl | ⟨-, -, -, rfl⟩ | rfl
    · rcases startOp_cases hv with ⟨-, rfl⟩ | ⟨-, -, rfl⟩ <;> exact .inl rfl
    all_goals exact .inl rfl

/-- Settles O41: such a step is an act of BLOCK or HOST on each handle (`step_handle`). -/
theorem trafficIsTheTable : Obligations.TrafficIsTheTable := by
  intro s t k d hs h hd
  obtain ⟨e, he, ha⟩ := step_handle hs h hd
  exact ⟨e, he, actsOn_hist ha⟩

end Sys2Proof.Machine
end

section
/-! PROOFS. READ_ID with the identity cached (43_identity R164), and what HOST's pseudo-instructions expand
to (30_encoding R87). -/

namespace Sys2Proof.Machine

/-! ## The identity cached -/

/-- READ_ID's EVAL with the identity cached gives the serial (43_identity R164). -/
theorem exec_readId_cached {len : Nibble} {v : Word64} {s : State} (hp : s.dev.phase = .eval)
    (hv : s.dev.idValid = true) (hs : s.dev.serial = some v) :
    exec (.readId len) s =
      .next (s.onDev fun d => { d with res := some v, resValid := true }.finish .noError) := by
  simp [exec, execReadId, operation, readIdBlock, readIdEval, hp, hv, hs]

/-- An operation in EVAL that reads no operand byte is not stalled. -/
theorem not_stalled_of_eval {s : State} (hp : s.dev.phase = .eval) (hr : s.dev.operandsReady) :
    ¬ s.stalled := by
  simp [State.stalled, hp, hr]

/-- The turn of READ_ID's EVAL with the identity cached. -/
theorem step_readId_cached {v : Word64} {s : State} {left : List Stim} (hg : givesTurns 1 s.inbox left)
    (ho : s.dev.curop = 7) (hb : s.dev.busy = true) (hp : s.dev.phase = .eval)
    (hv : s.dev.idValid = true) (hs : s.dev.serial = some v) :
    step s = .next { s with
      inbox := left, dev := { s.dev with res := some v, resValid := true }.finish .noError } := by
  have hready : s.dev.operandsReady := by simp [Dev.operandsReady, ho]
  obtain ⟨rest, hrest, hturn⟩ := step_given hg (by simp [hp]) hb (.inl (not_stalled_of_eval hp hready))
  obtain rfl : rest = left := givesTurns_zero.mp hrest
  have hdecode : decodeCmd s.dev.cmdByte = .readId s.dev.lenL := by simp [decodeCmd_cmdByte, ho]
  rw [hturn, hdecode]
  exact exec_readId_cached hp hv hs

/-- Settles O32: the start goes straight to EVAL (44_session R181), and the turn given is EVAL's. -/
theorem cachedReadIdRuns : Obligations.CachedReadIdRuns := by
  intro len v s next left hg hb hv hs
  have hstart : step { s with inbox := hostWrite 0x00 (cmdWord len 7) :: next } =
      .next { s with inbox := next, dev := s.dev.begin (cmdWord len 7) } :=
    step_command rfl hb fun ht => by simp [Dev.touchesBus, hv] at ht
  have hp : (s.dev.begin (cmdWord len 7)).phase = .eval := by simp [firstPhase, hv]
  have hturn := step_readId_cached (s := { s with inbox := next, dev := s.dev.begin (cmdWord len 7) })
    hg (cmdWord_low len 7) rfl hp hv hs
  rw [runs_succ_of_step hstart, runs_succ_of_step hturn, runs_zero]
  simp [Dev.finish, Dev.begin]

/-! ## The listings -/

/-- The host writes of operand bytes, one by one. -/
theorem writeOperands_eq_map (off : Byte) (bs : List Byte) :
    writeOperands off bs =
      (List.range bs.length).map fun i => hostWrite (off + BitVec.ofNat 8 i) (bs.getD i 0) := by
  induction bs generalizing off with
  | nil => rfl
  | cons b bs ih =>
    rw [writeOperands, ih, List.length_cons, List.range_succ_eq_map, List.map_cons, List.map_map]
    congr 1
    · simp
    · refine List.map_congr_left fun i _ => ?_
      simp [BitVec.ofNat_add, BitVec.add_assoc, BitVec.add_comm 1#8]

/-- The CMD byte of PACK: LEN in bits 7:4, the selector 3 in bits 3:0 (30_encoding R80). -/
theorem cmdWord_pack {n : Nat} (h : n < 16) :
    cmdWord (BitVec.ofNat 4 n) 3 = BitVec.ofNat 8 ((n <<< 4) ||| 0x03) := by
  revert n; decide

/-- RD64 as a reading of eight offsets in order (30_encoding R87). -/
theorem rd64_eq_range (d : Dev) (base : Byte) :
    rd64 d base = (allSome ((List.range 8).map fun i => peek d (base + BitVec.ofNat 8 i))).map pack := by
  simp [rd64, List.range_succ]

/-- Eight offsets that show eight bytes read as their value, most significant first (20_memory R54). -/
theorem rd64_of_list {d : Dev} {base : Byte} {bs : List Byte} (hl : bs.length = 8)
    (h : ∀ i, i < 8 → peek d (base + BitVec.ofNat 8 i) = some (bs.getD i 0)) :
    rd64 d base = some (pack bs) := by
  have hbytes : ((List.range 8).map fun i => peek d (base + BitVec.ofNat 8 i)) = bs.map some := by
    refine List.ext_getElem (by simp [hl]) fun i hi hi' => ?_
    have h8 : i < 8 := by simpa using hi
    simp [h i h8, hl, h8]
  rw [rd64_eq_range, (allSome_eq_some _ _).mpr hbytes, Option.map_some]

/-- Settles O58: the listings of a fixed length are the table's as they stand; PACK's operand writes are
`writeOperands_eq_map`, and the value of RD64 is `rd64_of_list`. -/
theorem listingsExpand : Obligations.ListingsExpand := by
  refine ⟨fun _ _ => rfl, fun _ _ _ => rfl, fun bs _ hl => ?_, rfl, rfl, rfl, rfl, fun base => ?_,
    fun d base bs => rd64_of_list⟩
  · rw [listPack, writeOperands_eq_map, cmdWord_pack (by omega), runCommand]
    simp only [BitVec.ofNat_add]
    rfl
  · simp [listRd64, List.range_succ]

end Sys2Proof.Machine
end

section
/-! PROOFS. The decoder and the encoder undo each other (30_encoding R72, R80 to R85), and from IDLE a CMD row
is the host write of its byte (R80, R82). -/

namespace Sys2Proof.Machine

/-! ## The CMD format -/

/-- The rows of the CMD format: the selector and LEN of each one's byte, and the BLOCK step that `exec` gives
it past its start (30_encoding R81). -/
theorem exec_eq_operation_of_encode {i : Instr} {b : Byte} (h : encode i = (.cmd, [b])) :
    ∃ opsel len block, b = cmdWord len opsel ∧ exec i = operation opsel len block := by
  cases i <;> cases h <;> exact ⟨_, _, _, rfl, rfl⟩

/-- In IDLE an operation is its start (44_session R182; log 16). -/
theorem operation_of_idle {opsel len : Nibble} {block : State → Result} {s : State}
    (hp : s.dev.phase = .idle) : operation opsel len block s = startOp (cmdWord len opsel) s :=
  if_pos hp

/-- A selector from 8 to 15 is decoded as reserved (30_encoding R81, R83). -/
theorem decodeCmd_cmdWord_reserved {sel : Nibble} (len : Nibble) (h : 8 ≤ sel.toNat) :
    decodeCmd (cmdWord len sel) = .reservedOpsel8To15 sel len := by
  unfold decodeCmd
  rw [cmdWord_low, cmdWord_high]
  split
  case h_9 => rfl
  all_goals omega

/-- The row that a CMD byte decodes to has that byte, and its selector is in the row's range. -/
theorem encode_decodeCmd (b : Byte) :
    encode (decodeCmd b) = (.cmd, [b]) ∧ (decodeCmd b).wellFormed = true := by
  obtain ⟨len, op, rfl⟩ : ∃ len op, b = cmdWord len op := ⟨_, _, (cmdWord_of_extract b).symm⟩
  by_cases h : 8 ≤ op.toNat
  · rw [decodeCmd_cmdWord_reserved len h]
    exact ⟨rfl, decide_eq_true h⟩
  · have hop : op ∈ [0, 1, 2, 3, 4, 5, 6, 7] := by revert op; decide
    simp only [List.mem_cons, List.not_mem_nil, or_false] at hop
    rcases hop with rfl | rfl | rfl | rfl | rfl | rfl | rfl | rfl <;>
      simp [decodeCmd, encode, Instr.wellFormed]

/-! ## The obligations -/

/-- Settles O55: the bytes of a host action are its operands, a wire command has its own, and a CMD byte is
read back field by field. -/
theorem decodeOfEncode : Obligations.DecodeOfEncode := by
  intro i hi
  cases i with
  | reservedOpsel8To15 sel len =>
    exact congrArg Except.ok (decodeCmd_cmdWord_reserved len (of_decide_eq_true hi))
  | wireMeasureT | wireMeasureRh | wireReset | wireIdA | wireIdB | hw | hr => rfl
  | _ => simp [encode, decode, decodeCmd]

/-- Settles O56, format by format. -/
theorem encodeOfDecode : Obligations.EncodeOfDecode := by
  refine ⟨fun f bs i h => ?_, fun b => ⟨decodeCmd b, rfl⟩⟩
  match f, bs, h with
  | .cmd, [b], h => cases h; exact encode_decodeCmd b
  | .w1, [b], h =>
    simp only [decode, decodeW1] at h
    split_ifs at h with h1 h2 h3 <;> cases h <;> subst b <;> exact ⟨rfl, rfl⟩
  | .w2, [hi, lo], h =>
    simp only [decode, decodeW2] at h
    split_ifs at h with h1 h2 <;> cases h
    · obtain ⟨rfl, rfl⟩ := h1; exact ⟨rfl, rfl⟩
    · obtain ⟨rfl, rfl⟩ := h2; exact ⟨rfl, rfl⟩
  | .host .write, [off, v], h => cases h; exact ⟨rfl, rfl⟩
  | .host .read, [off], h => cases h; exact ⟨rfl, rfl⟩

/-- Settles O57: ten closed words. -/
theorem decodedWords : Obligations.DecodedWords := by
  unfold Obligations.DecodedWords
  decide

/-- Settles O14: in IDLE both sides are the start of the row's byte. -/
theorem operationRowsStartFromIdle : Obligations.OperationRowsStartFromIdle := by
  intro i b s _ h hp
  obtain ⟨opsel, len, block, rfl, hexec⟩ := exec_eq_operation_of_encode h
  rw [hexec, operation_of_idle hp]
  rfl

end Sys2Proof.Machine
end

section
/-! PROOFS. What a BLOCK step answers: the row of its phase, wherever 44_session R181 gives the operation that
phase and EVAL has the response bytes that it reads. From it, that no sound state stops (logs 9 and 11), and
which instruction a step runs (30_encoding R82, R86). -/

namespace Sys2Proof.Machine

variable {s : State}

/-! ## The phases before EVAL -/

/-- In IDLE no BLOCK step is enabled (44_session R183). -/
theorem blockTurn_of_idle (hp : s.dev.phase = .idle) : blockTurn s = .next s :=
  if_pos hp

/-- In a write phase the turn is the MemWrite of that phase (30_encoding R72). -/
theorem blockTurn_of_emits {payload : List Byte} {p : Phase} (h : Emits s.dev.curop s.dev.phase payload p) :
    blockTurn s = .next (memWrite payload p s) := by
  rcases emits_iff.mp h with ⟨ho, hp, rfl, rfl⟩ | ⟨ho, hp, rfl, rfl⟩ | ⟨ho, hp, rfl, rfl⟩ |
    ⟨ho, hp, rfl, rfl⟩ | ⟨ho, hp, rfl, rfl⟩ <;> simp only [blockTurn, decodeCmd_cmdByte, ho, hp]
  · simp [exec, execMeasT, operation, measurement, execWireMeasureT, wireCommand, hp]
  · simp [exec, execMeasRh, operation, measurement, execWireMeasureRh, wireCommand, hp]
  · simp [exec, execSreset, operation, sresetBlock, execWireReset, wireCommand, hp]
  · simp [exec, execReadId, operation, readIdBlock, execWireIdA, wireCommand, hp]
  · simp [exec, execReadId, operation, readIdBlock, execWireIdB, wireCommand, hp]

/-- In a read phase the turn is the MemRead of that phase (44_session R185; 43_identity R162, R163). -/
theorem blockTurn_of_receives {n : Nat} {store : Dev → List Byte → Dev} {p : Phase}
    (h : Receives s.dev.curop s.dev.phase n store p) : blockTurn s = .next (memRead n store p s) := by
  rcases receives_iff.mp h with ⟨ho, hp, rfl, rfl, rfl⟩ | ⟨ho, hp, rfl, rfl, rfl⟩ | ⟨ho, hp, rfl, rfl, rfl⟩ |
    ⟨ho, hp, rfl, rfl, rfl⟩ <;> simp only [blockTurn, decodeCmd_cmdByte, ho, hp]
  · exact exec_rd1 (.inl ⟨.inl rfl, rfl, rfl⟩) hp
  · exact exec_rd1 (.inl ⟨.inr rfl, rfl, rfl⟩) hp
  · exact exec_rd1 (.inr ⟨rfl, rfl, rfl⟩) hp
  · exact exec_readId_rd2 hp

/-- In a delay phase the turn is the delay of that phase (44_session R190). -/
theorem blockTurn_of_waits {ms : Nat} {p : Phase} (h : Waits s.dev.curop s.dev.phase ms p) :
    blockTurn s = .next (settle ms p s) := by
  rcases waits_iff.mp h with ⟨ho, hp, rfl, rfl⟩ | ⟨ho, hp, rfl, rfl⟩ | ⟨ho, hp, rfl, rfl⟩ |
    ⟨ho, hp, rfl, rfl⟩ | ⟨ho, hp, rfl, rfl⟩ <;> simp only [blockTurn, decodeCmd_cmdByte, ho, hp]
  · simp [exec, execMeasT, operation, measurement, settleMeas, hp]
  · simp [exec, execMeasRh, operation, measurement, settleMeas, hp]
  · simp [exec, execSreset, operation, sresetBlock, settleReset, hp]
  · simp [exec, execReadId, operation, readIdBlock, settleId, hp]
  · simp [exec, execReadId, operation, readIdBlock, settleId, hp]

/-- An operation that starts in WR1 emits its command there (44_session R181, 30_encoding R72). -/
theorem emits_of_firstPhase {op : Nibble} {idValid : Bool} (h : firstPhase op idValid = .wr1) :
    ∃ payload, Emits op .wr1 payload .dly1 := by
  rcases (firstPhase_eq_wr1 _ _).mp h with rfl | rfl | rfl | ⟨rfl, -⟩
  exacts [⟨_, .measT⟩, ⟨_, .measRh⟩, ⟨_, .sreset⟩, ⟨_, .idA⟩]

/-- An operation that starts in WR1 has the delay DLY1 (44_session R181, R190). -/
theorem waits_of_firstPhase {op : Nibble} {idValid : Bool} (h : firstPhase op idValid = .wr1) :
    ∃ ms p, Waits op .dly1 ms p := by
  rcases (firstPhase_eq_wr1 _ _).mp h with rfl | rfl | rfl | ⟨rfl, -⟩
  exacts [⟨_, _, .measT⟩, ⟨_, _, .measRh⟩, ⟨_, _, .sreset⟩, ⟨_, _, .idA⟩]

/-- An operation that starts in WR1 has the read RD1, SRESET excepted (44_session R181). -/
theorem receives_of_firstPhase {op : Nibble} {idValid : Bool} (h : firstPhase op idValid = .wr1)
    (hop : op ≠ 6) : ∃ n p, Receives op .rd1 n Dev.storeA p := by
  rcases (firstPhase_eq_wr1 _ _).mp h with rfl | rfl | rfl | ⟨rfl, -⟩
  exacts [⟨_, _, .measT⟩, ⟨_, _, .measRh⟩, absurd rfl hop, ⟨_, _, .idA⟩]

/-! ## EVAL -/

/-- The response bytes, or the serial, that EVAL of the operation in progress reads have values (00_scope
R13; log 9). -/
structure Dev.ResponsesReady (d : Dev) : Prop where
  measured : d.curop = 4 ∨ d.curop = 5 →
    d.rspA[0].isSome = true ∧ d.rspA[1].isSome = true ∧ d.rspA[2].isSome = true
  cached : d.curop = 7 → d.idValid = true → d.serial.isSome = true
  halves : d.curop = 7 → d.idValid = false →
    (∀ b ∈ d.rspA.toList, b.isSome = true) ∧ ∀ b ∈ d.rspB.toList, b.isSome = true

/-- In EVAL a sound handle has the responses that EVAL reads. -/
theorem Dev.Sound.responsesReady {d : Dev} (h : d.Sound) (hp : d.phase = .eval) : d.ResponsesReady where
  measured := h.measured hp
  cached _ hv := h.serial_valid.symm.trans hv
  halves := h.halves hp

/-- An operation whose operand bytes are missing reads no response. -/
theorem Dev.responsesReady_of_not_operandsReady {d : Dev} (h : ¬ d.operandsReady) : d.ResponsesReady := by
  have ho : d.curop = 1 ∨ d.curop = 2 ∨ d.curop = 3 := by
    by_contra hn
    simp only [not_or] at hn
    exact h ⟨fun e => absurd e hn.1, fun e => absurd e hn.2.1, fun e => absurd e hn.2.2⟩
  rcases ho with ho | ho | ho <;> exact ⟨by simp [ho], by simp [ho], by simp [ho]⟩

/-- In EVAL an operation that has no other phase is its body (44_session R181). -/
theorem operation_evalOnly_of_eval {opsel len : Nibble} {body : State → Result} (hp : s.dev.phase = .eval) :
    operation opsel len (evalOnly body) s = body s := by
  simp [operation, evalOnly, hp]

theorem crc8Eval_next (s : State) : ∃ t, crc8Eval s = .next t := by
  unfold crc8Eval; split <;> exact ⟨_, rfl⟩

theorem verifyEval_next (s : State) : ∃ t, verifyEval s = .next t := by
  unfold verifyEval; split <;> exact ⟨_, rfl⟩

theorem packEval_next (s : State) : ∃ t, packEval s = .next t := by
  unfold packEval
  split
  · exact ⟨_, rfl⟩
  · split <;> exact ⟨_, rfl⟩

/-- EVAL of a measurement answers where the three bytes it reads have values. -/
theorem measEval_next (h0 : s.dev.rspA[0].isSome = true) (h1 : s.dev.rspA[1].isSome = true)
    (h2 : s.dev.rspA[2].isSome = true) : ∃ t, measEval s = .next t := by
  obtain ⟨hi, h0⟩ := Option.isSome_iff_exists.mp h0
  obtain ⟨lo, h1⟩ := Option.isSome_iff_exists.mp h1
  obtain ⟨rcv, h2⟩ := Option.isSome_iff_exists.mp h2
  simp only [measEval, h0, h1, h2]
  split <;> exact ⟨_, rfl⟩

/-- EVAL of READ_ID answers where the serial, or else both responses, have values. -/
theorem readIdEval_next (hs : s.dev.idValid = true → s.dev.serial.isSome = true)
    (hr : s.dev.idValid = false →
      (∀ b ∈ s.dev.rspA.toList, b.isSome = true) ∧ ∀ b ∈ s.dev.rspB.toList, b.isSome = true) :
    ∃ t, readIdEval s = .next t := by
  unfold readIdEval
  cases hv : s.dev.idValid with
  | true =>
    obtain ⟨v, hs⟩ := Option.isSome_iff_exists.mp (hs hv)
    simp [hs]
  | false =>
    obtain ⟨ha, hb⟩ := hr hv
    obtain ⟨a, ha⟩ := Option.isSome_iff_exists.mp ((allSome_isSome _).mpr ha)
    obtain ⟨b, hb⟩ := Option.isSome_iff_exists.mp ((allSome_isSome _).mpr hb)
    simp [ha, hb]

/-- The turn of EVAL answers where EVAL has the responses that it reads. -/
theorem blockTurn_next_of_eval (hp : s.dev.phase = .eval) (hr : s.dev.ResponsesReady) :
    ∃ t, blockTurn s = .next t := by
  have hop : ∀ op : Nibble, s.dev.curop.toNat = op.toNat → s.dev.curop = op :=
    fun _ e => BitVec.eq_of_toNat_eq e
  rw [blockTurn, if_neg (by simp [hp]), decodeCmd_cmdByte]
  split <;> simp only [exec]
  · exact ⟨_, operation_evalOnly_of_eval hp⟩
  · rw [execCrc8, operation_evalOnly_of_eval hp]; exact crc8Eval_next s
  · rw [execVerify, operation_evalOnly_of_eval hp]; exact verifyEval_next s
  · rw [execPack, operation_evalOnly_of_eval hp]; exact packEval_next s
  · next e =>
    obtain ⟨h0, h1, h2⟩ := hr.measured (.inl (hop 4 e))
    simpa [execMeasT, operation, measurement, hp] using measEval_next h0 h1 h2
  · next e =>
    obtain ⟨h0, h1, h2⟩ := hr.measured (.inr (hop 5 e))
    simpa [execMeasRh, operation, measurement, hp] using measEval_next h0 h1 h2
  · simp [execSreset, operation, sresetBlock, hp]
  · next e =>
    simpa [execReadId, operation, readIdBlock, hp] using
      readIdEval_next (hr.cached (hop 7 e)) (hr.halves (hop 7 e))
  · exact ⟨_, operation_evalOnly_of_eval hp⟩

/-- A turn answers in every phase of the operation, where EVAL has the responses that it reads. -/
theorem blockTurn_next (hl : s.dev.phaseLegal) (hr : s.dev.phase = .eval → s.dev.ResponsesReady) :
    ∃ t, blockTurn s = .next t := by
  unfold Dev.phaseLegal at hl
  split at hl
  · next hp => exact ⟨s, blockTurn_of_idle hp⟩
  · next hp => obtain ⟨_, he⟩ := emits_of_firstPhase hl; exact ⟨_, blockTurn_of_emits (hp ▸ he)⟩
  · next hp => obtain ⟨_, _, hw⟩ := waits_of_firstPhase hl; exact ⟨_, blockTurn_of_waits (hp ▸ hw)⟩
  · next hp =>
    obtain ⟨_, _, hr⟩ := receives_of_firstPhase hl.1 hl.2
    exact ⟨_, blockTurn_of_receives (hp ▸ hr)⟩
  · next hp => exact ⟨_, blockTurn_of_emits (by rw [hl.1, hp]; exact .idB)⟩
  · next hp => exact ⟨_, blockTurn_of_waits (by rw [hl.1, hp]; exact .idB)⟩
  · next hp => exact ⟨_, blockTurn_of_receives (by rw [hl.1, hp]; exact .idB)⟩
  · next hp => exact blockTurn_next_of_eval hp (hr hp)

/-- A sound handle's turn answers. -/
theorem blockTurn_next_of_sound (h : s.dev.Sound) : ∃ t, blockTurn s = .next t :=
  blockTurn_next h.phase_legal h.responsesReady

/-- A stalled handle's turn answers, in a phase of its operation. -/
theorem blockTurn_next_of_stalled (hs : s.stalled) (hl : s.dev.phaseLegal) : ∃ t, blockTurn s = .next t := by
  refine blockTurn_next hl fun hp => ?_
  rcases hs with hi | ⟨hc, -⟩ | ⟨-, hn⟩
  · simp [hp] at hi
  · simp [hp] at hc
  · exact Dev.responsesReady_of_not_operandsReady hn

/-! ## The step that BLOCK is left -/

/-- The turn of another handle in IDLE does nothing. -/
theorem otherTurn_of_idle {k : Nat} {d : Dev} (hd : s.others[k]? = some d) (hp : d.phase = .idle) :
    otherTurn k s = .next s := by
  obtain ⟨hk, rfl⟩ := List.getElem?_eq_some_iff.mp hd
  simp [otherTurn, hk, blockTurn, hp]

/-- The turn of another handle is the turn that it takes as the addressed one. -/
theorem otherTurn_of_next {k : Nat} {d : Dev} {u : State} (hd : s.others[k]? = some d)
    (hu : blockTurn { s with dev := d, others := s.others.set k s.dev } = .next u) :
    otherTurn k s = .next { u with dev := s.dev, others := s.others.set k u.dev } := by
  simp [otherTurn, hd, hu]

theorem otherTurn_next (h : s.Sound) (k : Nat) : ∃ t, otherTurn k s = .next t := by
  cases hd : s.others[k]? with
  | none => exact ⟨s, by simp [otherTurn, hd]⟩
  | some d =>
    obtain ⟨u, hu⟩ := blockTurn_next_of_sound (s := { s with dev := d, others := s.others.set k s.dev })
      (h.2 d (List.mem_of_getElem? hd))
    exact ⟨_, otherTurn_of_next hd hu⟩

theorem roundRobin_next (h : s.Sound) : ∃ t, roundRobin s = .next t := by
  unfold roundRobin
  split
  · exact blockTurn_next_of_sound h.1
  · exact otherTurn_next (s := { s with rotor := s.rotor + 1 }) h _

/-- In a sound state some handle's step answers. -/
theorem fairTurn_next (h : s.Sound) : ∃ t, fairTurn s = .next t := by
  obtain ⟨u, hu⟩ := blockTurn_next_of_sound h.1
  simp only [fairTurn, hu]
  split
  · exact ⟨u, rfl⟩
  · exact roundRobin_next h

/-! ## The step of HOST -/

/-- A host action with the bytes of one of HOST's two answers (30_encoding R82). -/
theorem hostTurn_next {d : Dir} {bytes : List Byte} (h : bytes.length = (Format.host d).width) :
    ∃ t, hostTurn d bytes s = .next t := by
  cases d with
  | write =>
    obtain ⟨off, v, rfl⟩ := List.length_eq_two.mp h
    exact execHw_next off v s
  | read =>
    obtain ⟨off, rfl⟩ := List.length_eq_one_iff.mp h
    exact execHr_next off s

/-- A step of a sound state answers. -/
theorem step_next (h : s.Sound) (hf : s.inboxFormed) : ∃ t, step s = .next t := by
  unfold step nextStep
  split
  · exact fairTurn_next h
  · next e => exact hostTurn_next (hf _ _ (by simp [e]))
  · split
    · exact fairTurn_next h
    · exact ⟨_, rfl⟩
  · exact blockTurn_next_of_sound h.1
  all_goals exact ⟨_, rfl⟩

/-! ## The inbox -/

/-- BLOCK and HOST put nothing into the inbox. -/
theorem acts_inbox {t : State} (h : Acts s t) : t.inbox = s.inbox := by
  cases h with
  | block _ hm => exact (move_frame hm).2.1
  | nothing => rfl
  | read hr => rcases execHr_cases hr with ⟨b, -, rfl⟩ | ⟨-, rfl⟩ <;> rfl
  | write hw =>
    rcases execHw_cases hw with ⟨-, hv⟩ | rfl | ⟨-, -, -, rfl⟩ | rfl
    · rcases startOp_cases hv with ⟨-, rfl⟩ | ⟨-, -, rfl⟩ <;> rfl
    all_goals rfl

theorem otherActs_inbox {t : State} {k : Nat} (h : OtherActs k s t) : t.inbox = s.inbox := by
  cases h with
  | nothing => rfl
  | block _ _ hu => exact (acts_inbox (blockTurn_acts hu) :)

/-- A step leaves the inbox or takes its first entry. -/
theorem step_inbox {t : State} (h : step s = .next t) : t.inbox = s.inbox ∨ t.inbox = s.inbox.tail := by
  obtain ⟨inbox, rotor, hi, ha⟩ | ⟨-, -, k, ho⟩ | ⟨a, -, rfl⟩ | ⟨a, -, rfl⟩ | ⟨k, -, rfl⟩ := step_cases h
  · rw [show t.inbox = inbox from acts_inbox ha]
    exact hi
  · exact .inl (otherActs_inbox (s := { s with rotor := s.rotor + 1 }) ho)
  all_goals exact .inr (by simp)

/-- Settles O52: a sound state's step answers (`step_next`), and it puts nothing into the inbox. -/
theorem soundStatesStep : Obligations.SoundStatesStep := by
  intro s h hf
  obtain ⟨t, ht⟩ := step_next h hf
  refine ⟨t, ht, fun d bytes hb => hf d bytes ?_⟩
  rcases step_inbox ht with hi | hi <;> rw [hi] at hb
  · exact hb
  · exact List.mem_of_mem_tail hb

/-! ## The instruction that a step runs -/

/-- A turn executes what the decoder reads from the byte latched in CMD (44_session R183). -/
theorem blockTurn_of_decode {i : Instr} (hp : s.dev.phase ≠ .idle)
    (hd : decode .cmd [s.dev.lenL ++ s.dev.curop] = .ok i) : blockTurn s = exec i s := by
  obtain rfl : decodeCmd s.dev.cmdByte = i := Except.ok.inj hd
  exact if_neg hp

/-- The turn of another handle executes what the decoder reads from the byte latched in its CMD. -/
theorem otherTurn_of_decode {k : Nat} {d : Dev} {i : Instr} {u : State} (hd : s.others[k]? = some d)
    (hp : d.phase ≠ .idle) (hi : decode .cmd [d.lenL ++ d.curop] = .ok i)
    (hu : exec i { s with dev := d, others := s.others.set k s.dev } = .next u) :
    otherTurn k s = .next { u with dev := s.dev, others := s.others.set k u.dev } :=
  otherTurn_of_next hd
    ((blockTurn_of_decode (s := { s with dev := d, others := s.others.set k s.dev }) hp hi).trans hu)

/-- Where the addressed handle is stalled, a step left to BLOCK is that of the handle whose turn it is
(70_reset R252; log 19). -/
theorem step_of_stalled (hl : s.leftToBlock) (hs : s.stalled) (hp : s.dev.phaseLegal) (ho : ¬ s.othersIdle) :
    step s = roundRobin s := by
  obtain ⟨u, hu⟩ := blockTurn_next_of_stalled hs hp
  rw [step_leftToBlock hl, fairTurn_of_stalled hs ho hu]

theorem roundRobin_of_zero (h : s.rotor % (s.others.length + 1) = 0) :
    roundRobin s = blockTurn { s with rotor := s.rotor + 1 } := by
  simp only [roundRobin, h]

theorem roundRobin_of_succ {k : Nat} (h : s.rotor % (s.others.length + 1) = k + 1) :
    roundRobin s = otherTurn k { s with rotor := s.rotor + 1 } := by
  simp only [roundRobin, h]

/-- Settles O54: a host action, a turn and a wait by the entry of the inbox; a step left to BLOCK by whose
it is. -/
theorem stepRunsDecodedInstruction : Obligations.StepRunsDecodedInstruction := by
  intro s rest
  refine ⟨fun d bytes i hi hd => ?_, fun i hi hp hd => ?_, fun hi hb => ?_, fun i hl hp hf hd => ?_,
    step_idle, fun hl hs hlegal ho => ?_⟩
  · simp [step, nextStep, hi, hostTurn, hd]
  · obtain rfl : decodeCmd s.dev.cmdByte = i := Except.ok.inj hd
    exact step_turn hi hp
  · simp [step, nextStep, hi, hb]
  · obtain rfl : decodeCmd s.dev.cmdByte = i := Except.ok.inj hd
    exact step_free hl hp hf
  · rw [step_of_stalled hl hs hlegal ho]
    refine ⟨fun hz => ?_, fun k d hk hd => ?_⟩
    · rw [roundRobin_of_zero hz]
      exact ⟨fun hp => blockTurn_of_idle (s := { s with rotor := s.rotor + 1 }) hp,
        fun i hp hi => blockTurn_of_decode (s := { s with rotor := s.rotor + 1 }) hp hi⟩
    · rw [roundRobin_of_succ hk]
      exact ⟨fun hp => otherTurn_of_idle (s := { s with rotor := s.rotor + 1 }) hd hp,
        fun i u hp hi hu => otherTurn_of_decode (s := { s with rotor := s.rotor + 1 }) hd hp hi hu⟩

end Sys2Proof.Machine
end

section
/-! PROOFS. The operations without bus traffic: the pure ones and the reserved selectors (30_encoding R83,
44_session R190). -/

namespace Sys2Proof.Machine

variable {s : State} {op : Nibble}

/-! ## No bus traffic -/

/-- The operations without bus traffic have EVAL as their only phase (44_session R181). -/
theorem firstPhase_of_pure (h : op.toNat < 4 ∨ 8 ≤ op.toNat) (idValid : Bool) :
    firstPhase op idValid = .eval := by
  revert op idValid; decide

theorem not_emits_of_pure (h : op.toNat < 4 ∨ 8 ≤ op.toNat) {here p : Phase} {payload : List Byte} :
    ¬ Emits op here payload p := by
  rintro (_ | _ | _ | _ | _) <;> exact absurd h (by decide)

theorem not_receives_of_pure (h : op.toNat < 4 ∨ 8 ≤ op.toNat) {here p : Phase} {n : Nat}
    {store : Dev → List Byte → Dev} : ¬ Receives op here n store p := by
  rintro (_ | _ | _ | _) <;> exact absurd h (by decide)

theorem not_waits_of_pure (h : op.toNat < 4 ∨ 8 ≤ op.toNat) {here p : Phase} {ms : Nat} :
    ¬ Waits op here ms p := by
  rintro (_ | _ | _ | _ | _) <;> exact absurd h (by decide)

/-- EVAL of an operation without bus traffic leaves HIST, the identity and the responses. -/
theorem ends_pure_frame {d e : Dev} (h : Ends op d e) (hop : op.toNat < 4 ∨ 8 ≤ op.toNat) :
    e.hist = d.hist ∧ e.idValid = d.idValid ∧ e.serial = d.serial ∧ e.model = d.model ∧
      e.rspA = d.rspA ∧ e.rspB = d.rspB := by
  cases h with
  | resolved _ _ ho => exact absurd hop (by rw [ho]; decide)
  | _ => exact ⟨rfl, rfl, rfl, rfl, rfl, rfl⟩

/-- A BLOCK step of an operation without bus traffic is its EVAL: it makes no transport call (44_session
R190). -/
theorem move_pure_cases {t : State} (h : Move op s t) (hop : op.toNat < 4 ∨ 8 ≤ op.toNat) :
    t = s.markFault .operandNoValue ∨ ∃ d, Ends op s.dev d ∧ t = { s with dev := d } := by
  cases h with
  | noOperand => exact .inl rfl
  | ended _ he => exact .inr ⟨_, he, rfl⟩
  | hang _ hc =>
    rcases hc with ⟨_, _, he⟩ | ⟨_, _, _, hr⟩
    exacts [absurd he (not_emits_of_pure hop), absurd hr (not_receives_of_pure hop)]
  | wrote _ _ he | writeFailed _ he => exact absurd he (not_emits_of_pure hop)
  | received _ _ hr | readFailed _ hr => exact absurd hr (not_receives_of_pure hop)
  | waited hw => exact absurd hw (not_waits_of_pure hop)

theorem isBlockRow_of_isPureRow {i : Instr} (h : isPureRow i = true) : isBlockRow i = true := by
  cases i with
  | hw | hr => cases h
  | _ => rfl

/-- Settles O38: from IDLE the row starts its operation (`startOp_cases`); past it, it is that operation's
EVAL (`move_pure_cases`). -/
theorem pureOperationFrame : Obligations.PureOperationFrame := by
  intro i s t hi h
  rcases exec_block_cases (isBlockRow_of_isPureRow hi) h with ⟨hp, v, hv⟩ | ⟨hp, op, hm, hop⟩
  · rcases startOp_cases hv with ⟨-, rfl⟩ | ⟨-, -, rfl⟩ <;> simp [hp]
  · rcases move_pure_cases hm (hop hi) with rfl | ⟨d, he, rfl⟩
    · simp
    · obtain ⟨hhist, hid, hserial, hmodel, ha, hb⟩ := ends_pure_frame he (hop hi)
      exact ⟨hhist, rfl, rfl, hid, hserial, hmodel, fun _ => ⟨ha, hb⟩⟩

/-! ## Whole operations without bus traffic -/

/-- Starting an operation without bus traffic is never in conflict on the transport (20_memory R64). -/
theorem Dev.not_touchesBus_of_pure (d : Dev) (len : Nibble) (h : op.toNat < 4 ∨ 8 ≤ op.toNat) :
    ¬ d.touchesBus (cmdWord len op) := by
  rw [touchesBus, ← firstPhase_eq_wr1, cmdWord_low, firstPhase_of_pure h]
  decide

/-- The start of an operation without bus traffic, while BUSY = 0 (44_session R182). -/
theorem step_command_pure {len : Nibble} {rest : List Stim}
    (hi : s.inbox = hostWrite 0x00 (cmdWord len op) :: rest) (hb : s.dev.busy = false)
    (hop : op.toNat < 4 ∨ 8 ≤ op.toNat) :
    step s = .next { s with inbox := rest, dev := s.dev.begin (cmdWord len op) } :=
  step_command hi hb fun ht => absurd ht (s.dev.not_touchesBus_of_pure len hop)

/-- An operation without bus traffic goes straight to EVAL (44_session R181). -/
theorem Dev.begin_phase_of_pure (d : Dev) (len : Nibble) (h : op.toNat < 4 ∨ 8 ≤ op.toNat) :
    (d.begin (cmdWord len op)).phase = .eval := by
  rw [begin_phase, cmdWord_low, firstPhase_of_pure h]

/-! ## The reserved selectors -/

/-- In EVAL a reserved selector finishes with ILLEGAL_OP (30_encoding R83). -/
theorem exec_reserved_of_eval {i : Instr} {sel len : Nibble} (hp : s.dev.phase = .eval)
    (hi : i = .reservedOpsel0 len ∨ i = .reservedOpsel8To15 sel len) :
    exec i s = .next (s.onDev fun d => d.finish .illegalOp) := by
  rcases hi with rfl | rfl <;> exact operation_evalOnly_of_eval hp

/-- The byte latched in CMD decodes to a reserved row where CUROP is a reserved selector (30_encoding R81). -/
theorem decodeCmd_cmdByte_of_reserved {d : Dev} (h : d.curop = 0 ∨ 8 ≤ d.curop.toNat) :
    decodeCmd d.cmdByte = .reservedOpsel0 d.lenL ∨
      decodeCmd d.cmdByte = .reservedOpsel8To15 d.curop d.lenL := by
  rcases h with h | h
  · exact .inl (by simp [decodeCmd_cmdByte, h])
  · exact .inr (decodeCmd_cmdWord_reserved d.lenL h)

/-- A reserved selector reads no operand byte (30_encoding R83). -/
theorem Dev.operandsReady_of_reserved {d : Dev} (h : d.curop = 0 ∨ 8 ≤ d.curop.toNat) : d.operandsReady := by
  refine ⟨fun e => ?_, fun e => ?_, fun e => ?_⟩ <;> exact absurd h (by rw [e]; decide)

/-- The turn of a reserved selector's EVAL. -/
theorem step_reserved {left : List Stim} (hg : givesTurns 1 s.inbox left)
    (ho : s.dev.curop = 0 ∨ 8 ≤ s.dev.curop.toNat) (hb : s.dev.busy = true) (hp : s.dev.phase = .eval) :
    step s = .next { s with inbox := left, dev := s.dev.finish .illegalOp } := by
  obtain ⟨rest, hrest, hturn⟩ := step_given hg (by simp [hp]) hb
    (.inl (not_stalled_of_eval hp (Dev.operandsReady_of_reserved ho)))
  obtain rfl : rest = left := givesTurns_zero.mp hrest
  exact hturn.trans (exec_reserved_of_eval hp (decodeCmd_cmdByte_of_reserved ho))

/-- Settles O18: the start goes straight to EVAL, and the turn given is EVAL's. -/
theorem reservedSelectorsAreIllegal : Obligations.ReservedSelectorsAreIllegal := by
  refine ⟨fun i sel len s hp hi => exec_reserved_of_eval hp hi, fun len op s next left hg hb hop => ?_⟩
  have hpure : op.toNat < 4 ∨ 8 ≤ op.toNat := hop.imp_left (by rintro rfl; decide)
  have hstart := step_command_pure (s := { s with inbox := hostWrite 0x00 (cmdWord len op) :: next })
    rfl hb hpure
  have hturn := step_reserved (s := { s with inbox := next, dev := s.dev.begin (cmdWord len op) }) hg
    (by simpa using hop) rfl (s.dev.begin_phase_of_pure len hpure)
  rw [runs_succ_of_step hstart, runs_succ_of_step hturn, runs_zero]
  simp [Dev.finish, Dev.begin]

end Sys2Proof.Machine
end

section
/-! PROOFS. The checksum: an accumulator of any width gives CRC8 (40_crc R105), and CRC8 is linear, from which
its laws follow (40_crc R106). -/

namespace Sys2Proof.Machine

/-! ## A wider accumulator

The low 8 bits of a wider accumulator go through the same steps as the 8-bit one: nothing above them comes
back down, bit 7 is among them, and the two constants agree on them. -/

/-- A mask to 8 bits or more leaves the low 8 bits. -/
theorem ofNat_mod_two_pow {width : Nat} (h : 8 ≤ width) (acc : Nat) :
    BitVec.ofNat 8 (acc % 2 ^ width) = BitVec.ofNat 8 acc :=
  BitVec.eq_of_toNat_eq (Nat.mod_mod_of_dvd acc (Nat.pow_dvd_pow 2 h))

theorem ofNat_shiftLeft_one (acc : Nat) : BitVec.ofNat 8 (acc <<< 1) = BitVec.ofNat 8 acc <<< 1 :=
  BitVec.eq_of_toNat_eq (by simp [Nat.shiftLeft_eq])

section
variable {width poly : Nat} (early late : Bool) (hw : 8 ≤ width) (hp : poly = 0x131 ∨ poly = 0x31)
include hw hp

/-- One bit step, seen in the low 8 bits. -/
theorem ofNat_wideBit (acc : Nat) :
    BitVec.ofNat 8 (wideBit width poly early late acc) = crcBit (BitVec.ofNat 8 acc) := by
  have hpoly : BitVec.ofNat 8 poly = 0x31 := by rcases hp with rfl | rfl <;> rfl
  have hshift : BitVec.ofNat 8 (if early then (acc <<< 1) % 2 ^ 8 else acc <<< 1) =
      BitVec.ofNat 8 acc <<< 1 := by
    cases early
    · exact ofNat_shiftLeft_one acc
    · exact (ofNat_mod_two_pow le_rfl _).trans (ofNat_shiftLeft_one acc)
  have hmask : ∀ n, BitVec.ofNat 8 (if late then n % 2 ^ 8 else n % 2 ^ width) = BitVec.ofNat 8 n := by
    cases late
    · exact ofNat_mod_two_pow hw
    · exact ofNat_mod_two_pow le_rfl
  have htest : (BitVec.ofNat 8 acc).getLsbD 7 = acc.testBit 7 := by rw [BitVec.getLsbD_ofNat]; rfl
  rw [wideBit, hmask, crcBit, htest]
  split
  · rw [BitVec.ofNat_xor, hshift, hpoly]
  · exact hshift

theorem ofNat_wideBits (n acc : Nat) :
    BitVec.ofNat 8 (wideBits width poly early late n acc) = crcBits n (BitVec.ofNat 8 acc) := by
  induction n generalizing acc with
  | zero => rfl
  | succ n ih => rw [wideBits, crcBits, ih, ofNat_wideBit early late hw hp]

/-- One byte step, seen in the low 8 bits. -/
theorem ofNat_wideBits_xor (acc : Nat) (b : Byte) :
    BitVec.ofNat 8 (wideBits width poly early late 8 (acc ^^^ b.toNat)) = crcByte (BitVec.ofNat 8 acc) b := by
  rw [ofNat_wideBits early late hw hp, BitVec.ofNat_xor, BitVec.ofNat_toNat, BitVec.setWidth_eq, crcByte]

end

/-- Settles O1: the low 8 bits of the accumulator are those of CRC8 after each byte. -/
theorem wideAccumulatorsGiveCrc8 : Obligations.WideAccumulatorsGiveCrc8 := by
  intro width poly early late d0 d1 hw hp
  have h : BitVec.ofNat 8 (wideCrc width poly early late d0 d1) = crc8 d0 d1 := by
    rw [wideCrc, ofNat_wideBits_xor early late hw hp, ofNat_wideBits_xor early late hw hp]
    rfl
  exact congrArg BitVec.toNat h

/-! ## Linearity -/

/-- The bit step as a shift and an XOR (40_crc R101, the masked form). -/
theorem crcBit_eq (c : Byte) : crcBit c = (c <<< 1) ^^^ (if c.getLsbD 7 then 0x31 else 0x00) := by
  unfold crcBit
  split <;> simp

/-- The bit step is linear: so is its shift, and the constant is XORed in by bit 7 alone. -/
theorem crcBit_xor (a b : Byte) : crcBit (a ^^^ b) = crcBit a ^^^ crcBit b := by
  have hconst : ∀ p q : Bool, (if p ^^ q then 0x31 else 0x00 : Byte) =
      (if p then 0x31 else 0x00) ^^^ (if q then 0x31 else 0x00) := by decide
  simp only [crcBit_eq, BitVec.getLsbD_xor, BitVec.shiftLeft_xor_distrib, hconst]
  ac_rfl

theorem crcBits_xor (n : Nat) (a b : Byte) : crcBits n (a ^^^ b) = crcBits n a ^^^ crcBits n b := by
  induction n generalizing a b with
  | zero => rfl
  | succ n ih => rw [crcBits, crcBit_xor, ih]; rfl

@[simp] theorem crcBits_zero (n : Nat) : crcBits n 0 = 0 := by
  induction n with
  | zero => rfl
  | succ n ih => exact ih

theorem crcByte_xor (a a' b b' : Byte) : crcByte (a ^^^ a') (b ^^^ b') = crcByte a b ^^^ crcByte a' b' := by
  rw [crcByte, crcByte, crcByte, ← crcBits_xor]
  congr 1
  ac_rfl

/-- The checksum is linear (40_crc R106 item 1). -/
theorem crc8_xor (a a' b b' : Byte) : crc8 (a ^^^ a') (b ^^^ b') = crc8 a b ^^^ crc8 a' b' := by
  rw [crc8, crc8, crc8, ← crcByte_xor, ← crcByte_xor]
  rfl

/-- A byte step with the accumulator's own value clears it (40_crc R106 item 2). -/
theorem crcByte_self (c : Byte) : crcByte c c = 0 :=
  (congrArg (crcBits 8) BitVec.xor_self).trans (crcBits_zero 8)

theorem crc8_zero : crc8 0 0 = 0 :=
  (congrArg (crcByte · 0) (crcByte_self 0)).trans (crcByte_self 0)

/-- The byte step goes by the XOR of accumulator and byte (40_crc R106 item 6). -/
theorem crcByte_zero_left (c b : Byte) : crcByte 0 (c ^^^ b) = crcByte c b :=
  congrArg (crcBits 8) BitVec.zero_xor

/-! ## Errors in the frame

By linearity a frame with the error pattern `e` verifies exactly where the checksum of the pattern's payload
bytes is the pattern's checksum byte. A single flipped bit leaves there a power of the bit step, and the first
24 of these powers are not zero and all different. -/

/-- What the error pattern of a 3-byte frame, first byte most significant, leaves of its checksum. -/
def crcSyndrome (e : BitVec 24) : Byte :=
  crc8 (e.extractLsb' 16 8) (e.extractLsb' 8 8) ^^^ e.extractLsb' 0 8

theorem crcSyndrome_xor (e e' : BitVec 24) : crcSyndrome (e ^^^ e') = crcSyndrome e ^^^ crcSyndrome e' := by
  simp only [crcSyndrome, BitVec.extractLsb'_xor, crc8_xor]
  ac_rfl

/-- A frame with an error pattern fails to verify where the pattern leaves something. -/
theorem verify_error_eq_false (d0 d1 : Byte) {e : BitVec 24} (h : crcSyndrome e ≠ 0) :
    verify (d0 ^^^ e.extractLsb' 16 8) (d1 ^^^ e.extractLsb' 8 8)
      (crc8 d0 d1 ^^^ e.extractLsb' 0 8) = false := by
  rw [verify, beq_eq_false_iff_ne, crc8_xor, Ne, BitVec.xor_right_inj]
  exact fun he => h (BitVec.xor_eq_zero_iff.mpr he)

-- The two byte steps of `crc8` nest a little deeper than the default of 512.
set_option maxRecDepth 1000 in
/-- Flipped bit `i` leaves the `i`-th power of the bit step. -/
theorem crcSyndrome_bit : ∀ i < 24, crcSyndrome (1 <<< i) = crcBits i 1 := by decide

theorem crcBits_add (m n : Nat) (c : Byte) : crcBits (m + n) c = crcBits n (crcBits m c) := by
  induction m generalizing c with
  | zero => rw [Nat.zero_add]; rfl
  | succ m ih => rw [Nat.succ_add]; exact ih _

theorem crcBit_eq_zero : ∀ c : Byte, crcBit c = 0 → c = 0 := by decide

theorem crcBits_eq_zero {n : Nat} {c : Byte} (h : crcBits n c = 0) : c = 0 := by
  induction n generalizing c with
  | zero => exact h
  | succ n ih => exact crcBit_eq_zero c (ih h)

theorem crcBits_injective (n : Nat) : Function.Injective (crcBits n) := fun a b h =>
  BitVec.xor_eq_zero_iff.mp
    (crcBits_eq_zero ((crcBits_xor n a b).trans (BitVec.xor_eq_zero_iff.mpr h)))

/-- Within the length of a frame the powers of the bit step do not come back to the first. -/
theorem crcBits_ne_one : ∀ k < 24, k ≠ 0 → crcBits k 1 ≠ 1 := by decide

/-- Two flipped bits leave different bytes. -/
theorem crcBits_one_ne {i j : Nat} (hij : i < j) (hj : j < 24) : crcBits i 1 ≠ crcBits j 1 := by
  intro h
  obtain ⟨k, rfl⟩ := Nat.exists_eq_add_of_lt hij
  rw [show i + k + 1 = (k + 1) + i by omega, crcBits_add] at h
  exact crcBits_ne_one (k + 1) (by omega) (by omega) (crcBits_injective i h).symm

theorem crcSyndrome_bit_ne_zero {i : Nat} (hi : i < 24) : crcSyndrome (1 <<< i) ≠ 0 := by
  rw [crcSyndrome_bit i hi]
  exact fun h => absurd (crcBits_eq_zero h) (by decide)

theorem crcSyndrome_two_bits_ne_zero {i j : Nat} (hi : i < 24) (hj : j < 24) (hij : i ≠ j) :
    crcSyndrome ((1 <<< i) ^^^ (1 <<< j)) ≠ 0 := by
  rw [crcSyndrome_xor, crcSyndrome_bit i hi, crcSyndrome_bit j hj]
  intro h
  have heq : crcBits i 1 = crcBits j 1 := BitVec.xor_eq_zero_iff.mp h
  rcases Nat.lt_or_gt_of_ne hij with hlt | hgt
  · exact crcBits_one_ne hlt hj heq
  · exact crcBits_one_ne hgt hi heq.symm

/-- A byte that matches the checksum does not match with a bit flipped (40_crc R106 item 4). -/
theorem verify_flipped_bit {d0 d1 r : Byte} {k : Nat} (hk : k < 8) (h : verify d0 d1 r = true) :
    verify d0 d1 (r ^^^ (1 <<< k)) = false := by
  have hbit : ∀ k < 8, (1 : Byte) <<< k ≠ 0 := by decide
  obtain rfl : crc8 d0 d1 = r := beq_iff_eq.mp h
  rw [verify, beq_eq_false_iff_ne]
  exact fun he => hbit k hk (xor_left_eq_self_iff.mp he.symm)

/-- Settles O2: linearity, a byte XORed with itself, and the powers of the bit step. -/
theorem crcLaws : Obligations.CrcLaws := by
  refine ⟨crc8_xor, crc8_zero, fun d0 d1 => crcByte_self _, fun v => beq_self_eq_true _,
    fun d0 d1 r k hk => verify_flipped_bit hk, fun d0 d1 e he => verify_error_eq_false d0 d1 ?_,
    fun d0 d1 => (crcByte_zero_left _ _).symm⟩
  rcases he with ⟨i, hi, rfl⟩ | ⟨i, j, hi, hj, hij, rfl⟩
  · exact crcSyndrome_bit_ne_zero hi
  · exact crcSyndrome_two_bits_ne_zero hi hj hij

end Sys2Proof.Machine
end

section
/-! PROOFS. The operations CRC8 and VERIFY, in EVAL and whole (40_crc R107, R108). -/

namespace Sys2Proof.Machine

variable {s : State} {len : Nibble}

/-! ## EVAL -/

/-- CRC8 in EVAL, with its operand bytes written (40_crc R107). -/
theorem exec_crc8_of_eval {d0 d1 : Byte} (hp : s.dev.phase = .eval) (h0 : s.dev.opb[0] = some d0)
    (h1 : s.dev.opb[1] = some d1) :
    exec (.crc8 len) s = .next (s.onDev fun d =>
      { d with
        res := some ((crc8 d0 d1).setWidth 64)
        crcExp := crc8 d0 d1
        resValid := true }.finish .noError) := by
  rw [exec, execCrc8, operation_evalOnly_of_eval hp, crc8Eval, h0, h1]

/-- CRC8 in EVAL, with an operand byte never written (60_exceptions R222; log 6). -/
theorem exec_crc8_of_none (hp : s.dev.phase = .eval) (h : s.dev.opb[0] = none ∨ s.dev.opb[1] = none) :
    exec (.crc8 len) s = .next (s.markFault .operandNoValue) := by
  rw [exec, execCrc8, operation_evalOnly_of_eval hp, crc8Eval]
  split
  · next h0 h1 => simp [h0, h1] at h
  · rfl

/-- VERIFY in EVAL, with its operand bytes written (40_crc R108). -/
theorem exec_verify_of_eval {d0 d1 r : Byte} (hp : s.dev.phase = .eval) (h0 : s.dev.opb[0] = some d0)
    (h1 : s.dev.opb[1] = some d1) (h2 : s.dev.opb[2] = some r) :
    exec (.verify len) s = .next (s.onDev fun d =>
      { d with
        crcObs := r
        crcExp := crc8 d0 d1
        res := some ((crc8 d0 d1).setWidth 64)
        resValid := true
        crcOk := verify d0 d1 r }.finish .noError) := by
  rw [exec, execVerify, operation_evalOnly_of_eval hp, verifyEval, h0, h1, h2]

/-- VERIFY in EVAL, with an operand byte never written (60_exceptions R222; log 6). -/
theorem exec_verify_of_none (hp : s.dev.phase = .eval)
    (h : s.dev.opb[0] = none ∨ s.dev.opb[1] = none ∨ s.dev.opb[2] = none) :
    exec (.verify len) s = .next (s.markFault .operandNoValue) := by
  rw [exec, execVerify, operation_evalOnly_of_eval hp, verifyEval]
  split
  · next h0 h1 h2 => simp [h0, h1, h2] at h
  · rfl

/-- Settles O15: EVAL goes by whether both operand bytes have a value. -/
theorem crc8Evaluates : Obligations.Crc8Evaluates :=
  fun _ _ hp => ⟨fun _ _ h0 h1 => exec_crc8_of_eval hp h0 h1, exec_crc8_of_none hp⟩

/-- Settles O16: EVAL goes by whether the three operand bytes have a value; it ends with NONE whatever the
third one is. -/
theorem verifyEvaluates : Obligations.VerifyEvaluates :=
  fun _ _ hp => ⟨fun _ _ _ h0 h1 h2 => exec_verify_of_eval hp h0 h1 h2, exec_verify_of_none hp⟩

/-! ## Whole operations -/

/-- A run of one step is the step. -/
@[simp] theorem runs_one (s : State) : runs 1 s = step s := by
  cases h : step s with
  | next t => exact runs_succ_of_step h
  | fault | refused => simp [runs, Host.Core.run, core, h]

/-- A started operation without bus traffic whose operand bytes are written, or beside which the others are
in IDLE, has its EVAL in the turn given (44_session R181, R183). -/
theorem runs_pure_operation {i : Instr} {op : Nibble} {next rest : List Stim} (hg : givesTurns 1 next rest)
    (hb : s.dev.busy = false) (hi : decodeCmd (cmdWord len op) = i) (hop : op.toNat < 4 ∨ 8 ≤ op.toNat)
    (hf : (s.dev.begin (cmdWord len op)).operandsReady ∨ (next = rest → s.othersIdle)) :
    runs 2 { s with inbox := hostWrite 0x00 (cmdWord len op) :: next } =
      exec i { s with inbox := rest, dev := s.dev.begin (cmdWord len op) } := by
  have hstart := step_command_pure (s := { s with inbox := hostWrite 0x00 (cmdWord len op) :: next })
    rfl hb hop
  have hp := s.dev.begin_phase_of_pure len hop
  obtain ⟨left, hleft, hturn⟩ :=
    step_given (s := { s with inbox := next, dev := s.dev.begin (cmdWord len op) }) hg
      (hp.trans_ne (by decide)) rfl (hf.imp_left fun hr => not_stalled_of_eval hp hr)
  obtain rfl : left = rest := givesTurns_zero.mp hleft
  have hcmd : (s.dev.begin (cmdWord len op)).cmdByte = cmdWord len op := cmdWord_of_extract _
  rw [runs_succ_of_step hstart, runs_one, hturn, hcmd, hi]

theorem decodeCmd_crc8 (len : Nibble) : decodeCmd (cmdWord len 1) = .crc8 len :=
  Except.ok.inj (decodeOfEncode (.crc8 len) rfl)

theorem decodeCmd_verify (len : Nibble) : decodeCmd (cmdWord len 2) = .verify len :=
  Except.ok.inj (decodeOfEncode (.verify len) rfl)

/-- Settles O19: the run is CRC8's EVAL on the handle just started. -/
theorem crc8Operation : Obligations.Crc8Operation := by
  intro len s next rest hg hb
  have hp : (s.dev.begin (cmdWord len 1)).phase = .eval := s.dev.begin_phase_of_pure len (by decide)
  refine ⟨fun d0 d1 h0 h1 => ?_, fun ho hn => ?_⟩
  · have hr : (s.dev.begin (cmdWord len 1)).operandsReady := by simp [Dev.operandsReady, h0, h1]
    rw [runs_pure_operation hg hb (decodeCmd_crc8 len) (by decide) (.inl hr)]
    refine Eq.trans (exec_crc8_of_eval hp h0 h1) ?_
    simp [State.onDev, Dev.finish, Dev.begin]
  · rw [runs_pure_operation hg hb (decodeCmd_crc8 len) (by decide) (.inr ho)]
    exact ⟨_, exec_crc8_of_none hp hn, rfl, rfl, rfl, rfl, rfl, rfl, rfl⟩

/-- Settles O20: the run is VERIFY's EVAL on the handle just started. -/
theorem verifyOperation : Obligations.VerifyOperation := by
  intro len s next rest hg hb
  have hp : (s.dev.begin (cmdWord len 2)).phase = .eval := s.dev.begin_phase_of_pure len (by decide)
  refine ⟨fun d0 d1 r h0 h1 h2 => ?_, fun ho hn => ?_⟩
  · have hr : (s.dev.begin (cmdWord len 2)).operandsReady := by simp [Dev.operandsReady, h0, h1, h2]
    rw [runs_pure_operation hg hb (decodeCmd_verify len) (by decide) (.inl hr)]
    refine Eq.trans (exec_verify_of_eval hp h0 h1 h2) ?_
    simp [State.onDev, Dev.finish, Dev.begin]
  · rw [runs_pure_operation hg hb (decodeCmd_verify len) (by decide) (.inr ho)]
    exact ⟨_, exec_verify_of_none hp hn, rfl, rfl, rfl, rfl, rfl, rfl, rfl⟩

end Sys2Proof.Machine
end

section
/-! PROOFS. The bit packer, PACK in EVAL and whole, and the EVAL of the measurements, which packs two bytes
(41_packer R120 to R124, 44_session R185). -/

namespace Sys2Proof.Machine

variable {s : State} {len : Nibble}

/-! ## The packer -/

/-- Two sequences in a row: the first one is shifted by the length of the second (41_packer R120). -/
theorem pack_append (bs cs : List Byte) : pack (bs ++ cs) = pack bs * 2 ^ (8 * cs.length) + pack cs := by
  induction cs using List.reverseRecOn with
  | nil => simp
  | append_singleton cs c ih =>
    rw [← List.append_assoc, pack_snoc, pack_snoc, ih, List.length_append, List.length_singleton,
      Nat.mul_add, Nat.pow_add, Nat.add_mul, Nat.mul_assoc, Nat.add_assoc]

@[simp] theorem pack_singleton (b : Byte) : pack [b] = b.toNat := by
  simpa using pack_snoc [] b

theorem pack_cons (b : Byte) (bs : List Byte) :
    pack (b :: bs) = b.toNat * 2 ^ (8 * bs.length) + pack bs := by
  simpa using pack_append [b] bs

/-- Each byte is weighted by its place, first byte most significant (41_packer R120). -/
theorem pack_eq_sum (bs : List Byte) :
    pack bs = ∑ i ∈ Finset.range bs.length, (bs.getD i 0).toNat * 2 ^ (8 * (bs.length - 1 - i)) := by
  induction bs with
  | nil => rfl
  | cons b bs ih =>
    rw [pack_cons, ih, List.length_cons, Finset.sum_range_succ', add_comm]
    simp [Nat.sub_sub, Nat.add_comm 1]

theorem pack_append_div (bs cs : List Byte) : pack (bs ++ cs) / 2 ^ (8 * cs.length) = pack bs := by
  rw [pack_append, Nat.mul_comm, Nat.mul_add_div (Nat.two_pow_pos _), Nat.div_eq_of_lt (pack_lt cs),
    Nat.add_zero]

/-- The bytes from place `i` on, divided away (41_packer R120). -/
theorem pack_div (bs : List Byte) (i : Nat) :
    pack bs / 2 ^ (8 * (bs.length - i)) = pack (bs.take i) := by
  simpa using pack_append_div (bs.take i) (bs.drop i)

/-- Each byte stands at its place (41_packer R120). -/
theorem pack_byte_at {bs : List Byte} {i : Nat} (h : i < bs.length) :
    pack bs / 2 ^ (8 * (bs.length - 1 - i)) % 256 = bs[i].toNat := by
  rw [Nat.sub_sub, Nat.add_comm 1, pack_div, List.take_succ_eq_append_getElem h, pack_snoc]
  have hlt : bs[i].toNat < 256 := bs[i].isLt
  omega

theorem pack_le (bs : List Byte) : pack bs ≤ 2 ^ (8 * bs.length) - 1 :=
  Nat.le_pred_of_lt (pack_lt bs)

/-- Sequences of one length that pack to one value are equal byte by byte (41_packer R122 item 3). -/
theorem pack_injective_of_length {bs cs : List Byte} (hl : bs.length = cs.length) (h : pack bs = pack cs) :
    bs = cs := by
  refine List.ext_getElem hl fun i hb hc => BitVec.eq_of_toNat_eq ?_
  rw [← pack_byte_at hb, ← pack_byte_at hc, h, hl]

/-- Every value of 8n bits is packed from n bytes (41_packer R122 item 3). -/
theorem pack_surjective_of_length (n v : Nat) (h : v < 2 ^ (8 * n)) :
    ∃ bs : List Byte, bs.length = n ∧ pack bs = v := by
  induction n generalizing v with
  | zero =>
    obtain rfl : v = 0 := by simpa using h
    exact ⟨[], rfl, rfl⟩
  | succ n ih =>
    have hv : v / 256 < 2 ^ (8 * n) :=
      Nat.div_lt_of_lt_mul (by rwa [Nat.mul_add, Nat.pow_add, Nat.mul_comm] at h)
    obtain ⟨bs, hl, hp⟩ := ih (v / 256) hv
    refine ⟨bs ++ [BitVec.ofNat 8 v], by simp [hl], ?_⟩
    rw [pack_snoc, hp, BitVec.toNat_ofNat]
    exact Nat.div_add_mod' v 256

/-- A 16-bit value is packed from its two bytes (41_packer R122 item 6). -/
theorem pack_extract (v : BitVec 16) : pack [v.extractLsb' 8 8, v.extractLsb' 0 8] = v.toNat := by
  rw [pack_pair, BitVec.extractLsb'_toNat, BitVec.extractLsb'_toNat, Nat.shiftRight_eq_div_pow]
  have hlt : v.toNat < 65536 := v.isLt
  omega

/-- Settles O3: the sum, the bound and the places hold for any number of bytes. -/
theorem packIsPositionalSum : Obligations.PackIsPositionalSum :=
  fun bs _ _ => ⟨pack_eq_sum bs, pack_le bs, fun i hi => by
    rw [pack_byte_at hi, List.getD_eq_getElem _ _ hi]⟩

/-- Settles O4, law by law; a leading zero byte, which changes no value, tells two lengths apart. -/
theorem packLaws : Obligations.PackLaws := by
  have hzero : ∀ b : List Byte, pack ([0x00] ++ b) = pack b := fun b => by simp [pack_cons]
  refine ⟨pack_singleton, pack_snoc, fun n => ⟨?_, ?_, ?_⟩, hzero, ⟨[0x00], [], by simp, hzero []⟩,
    ?_, pack_extract⟩
  · rintro b rfl
    exact pack_le b
  · exact fun b b' hb hb' => pack_injective_of_length (hb.trans hb'.symm)
  · exact fun v hv => pack_surjective_of_length n v (Nat.lt_of_le_pred (Nat.two_pow_pos _) hv)
  · exact fun b hb => (pack_lt b).trans_le (Nat.pow_le_pow_right (by decide) (by omega))

/-! ## PACK in EVAL -/

/-- PACK in EVAL, with a length of 0 or above 8: no operand byte is read (41_packer R124). -/
theorem exec_pack_of_illegal (hp : s.dev.phase = .eval)
    (hl : s.dev.lenL.toNat = 0 ∨ 9 ≤ s.dev.lenL.toNat) :
    exec (.pack len) s = .next (s.onDev fun d => d.finish .illegalOperand) := by
  rw [exec, execPack, operation_evalOnly_of_eval hp, packEval, if_pos (by omega)]

/-- PACK in EVAL, with its operand bytes written (41_packer R123). -/
theorem exec_pack_of_eval {bs : List Byte} (hp : s.dev.phase = .eval) (h1 : 1 ≤ s.dev.lenL.toNat)
    (h8 : s.dev.lenL.toNat ≤ 8) (hb : s.dev.operands s.dev.lenL.toNat = some bs) :
    exec (.pack len) s = .next (s.onDev fun d =>
      { d with res := some (BitVec.ofNat 64 (pack bs)), resValid := true }.finish .noError) := by
  rw [exec, execPack, operation_evalOnly_of_eval hp, packEval, if_neg (by omega), hb]

/-- PACK in EVAL, with an operand byte never written (60_exceptions R222; log 6). -/
theorem exec_pack_of_none (hp : s.dev.phase = .eval) (h1 : 1 ≤ s.dev.lenL.toNat)
    (h8 : s.dev.lenL.toNat ≤ 8) (hn : s.dev.operands s.dev.lenL.toNat = none) :
    exec (.pack len) s = .next (s.markFault .operandNoValue) := by
  rw [exec, execPack, operation_evalOnly_of_eval hp, packEval, if_neg (by omega), hn]

theorem Dev.operands_eq_some (d : Dev) (n : Nat) (bs : List Byte) :
    d.operands n = some bs ↔ d.opb.toList.take n = bs.map some :=
  allSome_eq_some _ _

theorem Dev.operands_eq_none (d : Dev) (n : Nat) : d.operands n = none ↔ none ∈ d.opb.toList.take n :=
  allSome_eq_none _

@[simp] theorem Dev.begin_operands (d : Dev) (v : Byte) (n : Nat) : (d.begin v).operands n = d.operands n :=
  rfl

/-- Settles O17: EVAL goes by the length first, then by whether the operand bytes have values. -/
theorem packEvaluates : Obligations.PackEvaluates :=
  fun _ s hp => ⟨exec_pack_of_illegal hp,
    fun bs h1 h8 hb => exec_pack_of_eval hp h1 h8 ((s.dev.operands_eq_some _ bs).mpr hb),
    fun h1 h8 hn => exec_pack_of_none hp h1 h8 ((s.dev.operands_eq_none _).mpr hn)⟩

/-! ## The whole operation PACK -/

theorem decodeCmd_pack (len : Nibble) : decodeCmd (cmdWord len 3) = .pack len :=
  Except.ok.inj (decodeOfEncode (.pack len) rfl)

/-- PACK started is ready for EVAL where a legal length has its operand bytes written (60_exceptions R222). -/
theorem Dev.begin_operandsReady_of_pack (d : Dev)
    (h : 1 ≤ len.toNat → len.toNat ≤ 8 → (d.operands len.toNat).isSome = true) :
    (d.begin (cmdWord len 3)).operandsReady := by
  simpa [operandsReady] using h

/-- Settles O21: the run is PACK's EVAL on the handle just started. -/
theorem packOperation : Obligations.PackOperation := by
  intro len s next rest hg hb
  have hp : (s.dev.begin (cmdWord len 3)).phase = .eval := s.dev.begin_phase_of_pure len (by decide)
  have hl : (s.dev.begin (cmdWord len 3)).lenL = len := cmdWord_high len 3
  have hrun := runs_pure_operation hg hb (decodeCmd_pack len) (by decide)
  refine ⟨fun bs h1 h8 hbs => ?_, fun ho h1 h8 hn => ?_, fun hill => ?_⟩
  · rw [← Dev.operands_eq_some] at hbs
    rw [hrun (.inl (s.dev.begin_operandsReady_of_pack fun _ _ => by rw [hbs]; rfl))]
    refine Eq.trans (exec_pack_of_eval (bs := bs) hp (by rwa [hl]) (by rwa [hl]) (by rwa [hl])) ?_
    simp [State.onDev, Dev.finish, Dev.begin]
  · rw [← Dev.operands_eq_none] at hn
    rw [hrun (.inr ho)]
    exact ⟨_, exec_pack_of_none hp (by rwa [hl]) (by rwa [hl]) (by rwa [hl]),
      rfl, rfl, rfl, rfl, rfl, rfl, rfl⟩
  · rw [hrun (.inl (s.dev.begin_operandsReady_of_pack fun h1 h8 => by omega))]
    refine Eq.trans (exec_pack_of_illegal hp (by rwa [hl])) ?_
    simp [State.onDev, Dev.finish, Dev.begin]

/-! ## The EVAL of the measurements -/

/-- In EVAL both measurements are one (44_session R185 to R187). -/
theorem exec_measurement_of_eval {i : Instr} (hp : s.dev.phase = .eval)
    (hi : i = .measT len ∨ i = .measRh len) :
    exec i s = measEval s := by
  rcases hi with rfl | rfl <;> simp [exec, execMeasT, execMeasRh, operation, measurement, hp]

/-- Settles O26: the checksum decides, and RES is the two bytes packed (`pack_pair`). -/
theorem measurementEvaluates : Obligations.MeasurementEvaluates := by
  intro len i hi lo rcv s hrow hp h0 h1 h2
  rw [exec_measurement_of_eval hp hrow, measEval, h0, h1, h2]
  refine ⟨fun hv => ?_, fun hv => ?_⟩
  · simp only [if_pos hv, pack_pair]
    rfl
  · simp only [if_neg hv]
    rfl

end Sys2Proof.Machine
end

section
/-! PROOFS. HOST's side: the unit converter (42_unit R141 to R144) and the reading functions (R146 to R148). -/

namespace Sys2Proof.Machine

/-! ## The converter -/

theorem rawToCelsius_eq (raw : Nat) : rawToCelsius raw = raw * 4393 / 1638400 - 937 / 20 := by
  unfold rawToCelsius; ring

theorem celsiusToFahrenheit_eq (c : Rat) : celsiusToFahrenheit c = c * 9 / 5 + 32 := by
  unfold celsiusToFahrenheit; ring

theorem rawToCelsius_mono : Monotone rawToCelsius := fun a b h => by
  have hab : (a : Rat) ≤ b := by exact_mod_cast h
  rw [rawToCelsius_eq, rawToCelsius_eq]
  linarith

theorem rawToRelativeHumidity_mono : Monotone rawToRelativeHumidity := fun a b h => by
  have hab : (a : Rat) ≤ b := by exact_mod_cast h
  unfold rawToRelativeHumidity
  linarith

/-- A humidity is below an integer bound exactly where the raw value, times 125, is below that bound above
-6 in units of 1/65536 (42_unit R143). -/
theorem rawToRelativeHumidity_lt_iff (raw n : Nat) :
    rawToRelativeHumidity raw < n ↔ raw * 125 < (n + 6) * 65536 := by
  rw [rawToRelativeHumidity, sub_lt_iff_lt_add, div_lt_iff₀ (by norm_num)]
  exact_mod_cast Iff.rfl

theorem lt_rawToRelativeHumidity_iff (raw n : Nat) :
    n < rawToRelativeHumidity raw ↔ (n + 6) * 65536 < raw * 125 := by
  rw [rawToRelativeHumidity, lt_sub_iff_add_lt, lt_div_iff₀ (by norm_num)]
  exact_mod_cast Iff.rfl

/-- Settles O59: both converters grow with the raw value, so the values at the ends of its range bound
them, and the thresholds of humidity are comparisons of integers. -/
theorem converterFormsAndRanges : Obligations.ConverterFormsAndRanges := by
  have c0 : rawToCelsius 0 = -937 / 20 := by norm_num [rawToCelsius]
  have cMax : rawToCelsius 65535 = 42227243 / 327680 := by norm_num [rawToCelsius]
  have h0 : rawToRelativeHumidity 0 = -6 := by norm_num [rawToRelativeHumidity]
  have hMax : rawToRelativeHumidity 65535 = 7798659 / 65536 := by norm_num [rawToRelativeHumidity]
  refine ⟨rawToCelsius_eq, celsiusToFahrenheit_eq, fun _ => rfl, by norm_num [rawToCelsius], c0, cMax, h0,
    hMax, fun raw hraw => ⟨c0 ▸ rawToCelsius_mono raw.zero_le, cMax ▸ rawToCelsius_mono hraw,
      h0 ▸ rawToRelativeHumidity_mono raw.zero_le, hMax ▸ rawToRelativeHumidity_mono hraw, ?_, ?_⟩⟩
  · exact (rawToRelativeHumidity_lt_iff raw 0).trans (by omega)
  · exact (lt_rawToRelativeHumidity_iff raw 100).trans (by omega)

/-! ## The reading functions -/

section
variable (convert : Nat → Rat) {d : Dev}

theorem readingOf_of_transportError (h : d.err = .transportError) :
    readingOf convert d = some (.error .transportError) := by
  rw [readingOf, h]

theorem readingOf_of_checksumError (h : d.err = .checksumError) :
    readingOf convert d = some (.error (.checksumError d.crcObs d.crcExp)) := by
  rw [readingOf, h]

/-- The two least significant bytes of RES, put together, are RES[15:0] (10_state R24). -/
theorem pack_low_bytes (v : Word64) : pack [byteOf v 6, byteOf v 7] = (v.extractLsb' 0 16).toNat := by
  simp only [pack_pair, byteOf, BitVec.extractLsb'_toNat, Nat.shiftRight_eq_div_pow]
  omega

/-- Where ERR is NONE the bytes that HOST reads at 0x16 and 0x17 are RES[15:0], and they are converted
(42_unit R146). -/
theorem readingOf_of_noError {v : Word64} (h : d.err = .noError) (hv : d.resValid = true)
    (hr : d.res = some v) : readingOf convert d = some (.ok (convert (v.extractLsb' 0 16).toNat)) := by
  have hi : peek d 0x16 = some (byteOf v 6) := by rw [peek_res d _ (by decide) (by decide), hv, hr]; rfl
  have lo : peek d 0x17 = some (byteOf v 7) := by rw [peek_res d _ (by decide) (by decide), hv, hr]; rfl
  rw [readingOf, h, hi, lo, ← pack_low_bytes]

/-- Fahrenheit passes a failure on and converts a value (42_unit R147). -/
theorem readTemperatureFahrenheit_of_some {hf : HostFloat} {r : Except ReadingError Rat}
    (h : readTemperature hf d = some r) :
    readTemperatureFahrenheit hf d = some (r.map hf.celsiusToFahrenheit) := by
  rw [readTemperatureFahrenheit, h, Option.map_some]

end

/-- Settles O60: the Celsius and the humidity reading are `readingOf` at two conversions, and the Fahrenheit
reading maps the Celsius one. -/
theorem readingContracts : Obligations.ReadingContracts := by
  intro hf d
  refine ⟨fun h => ?_, fun h => ?_, fun v h hv hr => ?_⟩
  · have ht : readTemperature hf d = _ := readingOf_of_transportError _ h
    exact ⟨ht, readTemperatureFahrenheit_of_some ht, readingOf_of_transportError _ h⟩
  · have ht : readTemperature hf d = _ := readingOf_of_checksumError _ h
    exact ⟨ht, readTemperatureFahrenheit_of_some ht, readingOf_of_checksumError _ h⟩
  · have ht : readTemperature hf d = _ := readingOf_of_noError _ h hv hr
    exact ⟨ht, readTemperatureFahrenheit_of_some ht, readingOf_of_noError _ h hv hr⟩

end Sys2Proof.Machine
end

section
/-! PROOFS. A measurement does not depend on the past (44_session R191, 42_unit R149): two machines that differ
only in what an earlier operation left, and in where their events go, take the same turns. -/

namespace Sys2Proof.Machine

variable {s t u : State}

/-! ## The past -/

/-- The handle without what no other field that a measurement writes depends on: MODEL, OPB and SERIAL, which it
does not read, and ADDR and HIST, where its events go. -/
def Dev.withoutPast (d : Dev) : Dev :=
  { d with addr := 0, model := none, opb := Vector.replicate 8 none, serial := none, hist := [] }

/-- The machine right after reset, with the addressed handle, its past cleared, and the transport's answers. -/
def State.withoutPast (s : State) : State :=
  { State.reset with dev := s.dev.withoutPast, answers := s.answers }

theorem State.withoutPast_congr (hd : t.dev.withoutPast = s.dev.withoutPast) (ha : t.answers = s.answers) :
    t.withoutPast = s.withoutPast := by
  rw [withoutPast, withoutPast, hd, ha]

/-- What HOST sees of a measurement, and the phase, are no part of the past (42_unit R149). -/
theorem Dev.eq_of_withoutPast_eq {d e : Dev} (h : d.withoutPast = e.withoutPast) :
    d.res = e.res ∧ d.statusByte = e.statusByte ∧ d.crcObs = e.crcObs ∧ d.crcExp = e.crcExp ∧
      d.phase = e.phase :=
  ⟨(congrArg Dev.res h :), (congrArg Dev.statusByte h :), (congrArg Dev.crcObs h :),
    (congrArg Dev.crcExp h :), (congrArg Dev.phase h :)⟩

/-- Of what a handle was before, the start of an operation keeps only whether the identity is cached
(44_session R182). -/
theorem Dev.begin_withoutPast {d e : Dev} (h : d.idValid = e.idValid) (v : Byte) :
    (d.begin v).withoutPast = (e.begin v).withoutPast := by
  simp [withoutPast, begin, h]

section
variable (h : s.answers ≠ [])
include h

theorem memWrite_withoutPast (payload : List Byte) (p : Phase) :
    (memWrite payload p s.withoutPast).withoutPast = (memWrite payload p s).withoutPast := by
  obtain ⟨a, rest, ha⟩ := List.exists_cons_of_ne_nil h
  cases a <;> simp [memWrite, State.nextAnswer, State.popAnswer, State.withoutPast, ha] <;> rfl

theorem memRead_withoutPast (n : Nat) {store : Dev → List Byte → Dev}
    (hs : store = Dev.storeA ∨ store = Dev.storeB) (p : Phase) :
    (memRead n store p s.withoutPast).withoutPast = (memRead n store p s).withoutPast := by
  obtain ⟨a, rest, ha⟩ := List.exists_cons_of_ne_nil h
  rcases hs with rfl | rfl <;> cases a <;>
    simp [memRead, State.nextAnswer, State.popAnswer, State.withoutPast, ha] <;> rfl

end

theorem measEval_withoutPast (h : measEval s = .next u) :
    ∃ w, measEval s.withoutPast = .next w ∧ w.withoutPast = u.withoutPast := by
  have ha : s.withoutPast.dev.rspA = s.dev.rspA := rfl
  unfold measEval at h ⊢
  rw [ha]
  split at h
  · split at h
    · next hc => cases h; exact ⟨_, if_pos hc, rfl⟩
    · next hc => cases h; exact ⟨_, if_neg hc, rfl⟩
  · cases h

/-! ## What a BLOCK step is, and what it uses up -/

/-- A BLOCK step is a write, a read, a delay or EVAL (44_session R181, R183). -/
theorem move_kinds {op : Nibble} (h : Move op s t) :
    (∃ payload p, Emits op s.dev.phase payload p) ∨ (∃ n store p, Receives op s.dev.phase n store p) ∨
    (∃ ms p, Waits op s.dev.phase ms p) ∨ s.dev.phase = .eval := by
  cases h with
  | hang _ hc => exact hc.imp_right .inl
  | wrote _ _ he | writeFailed _ he => exact .inl ⟨_, _, he⟩
  | received _ _ hr | readFailed _ hr => exact .inr (.inl ⟨_, _, _, hr⟩)
  | waited hw => exact .inr (.inr (.inl ⟨_, _, hw⟩))
  | noOperand hp | ended hp => exact .inr (.inr (.inr hp))

@[simp] theorem State.popAnswer_answers (s : State) : s.popAnswer.answers = s.answers.tail := by
  cases h : s.answers <;> simp [popAnswer, h]

/-- EVAL makes no transport call (44_session R190). -/
theorem move_answers_of_eval {op : Nibble} (h : Move op s t) (hp : s.dev.phase = .eval) :
    t.answers = s.answers := by
  cases h with
  | hang | noOperand | ended | waited => rfl
  | wrote _ _ he | writeFailed _ he => rw [hp] at he; cases he
  | received _ _ hr | readFailed _ hr => rw [hp] at hr; cases hr

/-! ## A measurement and its turns -/

/-- The transport calls that a measurement still makes from a phase on (44_session R185). -/
def Phase.callsAhead : Phase → Nat
  | .wr1 => 2
  | .dly1 => 1
  | .rd1 => 1
  | _ => 0

/-- The addressed handle is at a measurement, or has ended one; answers are listed for the calls that it still
makes, and no other handle makes one (20_memory R64). -/
structure State.Measuring (s : State) : Prop where
  op : s.dev.curop = 4 ∨ s.dev.curop = 5
  answered : s.dev.phase.callsAhead ≤ s.answers.length
  free : s.busFree

section
variable {op : Nibble} (hop : op = 4 ∨ op = 5) {here after : Phase}
include hop

theorem emits_callsAhead {payload : List Byte} (h : Emits op here payload after) :
    here.callsAhead = after.callsAhead + 1 := by
  cases h with
  | measT | measRh => rfl
  | sreset | idA | idB => exact absurd hop (by decide)

theorem receives_callsAhead {n : Nat} {store : Dev → List Byte → Dev} (h : Receives op here n store after) :
    here.callsAhead = after.callsAhead + 1 := by
  cases h with
  | measT | measRh => rfl
  | idA | idB => exact absurd hop (by decide)

theorem waits_callsAhead {ms : Nat} (h : Waits op here ms after) : here.callsAhead = after.callsAhead := by
  cases h with
  | measT | measRh => rfl
  | sreset | idA | idB => exact absurd hop (by decide)

end

theorem State.Measuring.answers_ne_nil (hm : s.Measuring) {n : Nat} (h : s.dev.phase.callsAhead = n + 1) :
    s.answers ≠ [] :=
  List.ne_nil_of_length_pos (by have := hm.answered; omega)

/-- In EVAL the turn of a measurement is its EVAL (44_session R185). -/
theorem blockTurn_measurement_of_eval (hop : s.dev.curop = 4 ∨ s.dev.curop = 5) (hp : s.dev.phase = .eval) :
    blockTurn s = measEval s := by
  rw [blockTurn, if_neg (by simp [hp]), decodeCmd_cmdByte]
  rcases hop with ho | ho <;> simp only [ho]
  · exact exec_measurement_of_eval hp (.inl rfl)
  · exact exec_measurement_of_eval hp (.inr rfl)

/-- A turn of a measurement takes no notice of the past. -/
theorem blockTurn_withoutPast (hm : s.Measuring) (h : blockTurn s = .next u) :
    ∃ w, blockTurn s.withoutPast = .next w ∧ w.withoutPast = u.withoutPast := by
  by_cases hp : s.dev.phase = .idle
  · rw [blockTurn_of_idle hp] at h
    cases h
    exact ⟨_, blockTurn_of_idle hp, rfl⟩
  rcases move_kinds (blockTurn_move hp h) with ⟨_, _, he⟩ | ⟨_, _, _, hr⟩ | ⟨_, _, hw⟩ | hp
  · rw [blockTurn_of_emits he] at h
    cases h
    exact ⟨_, blockTurn_of_emits (s := s.withoutPast) he,
      memWrite_withoutPast (hm.answers_ne_nil (emits_callsAhead hm.op he)) _ _⟩
  · rw [blockTurn_of_receives hr] at h
    cases h
    exact ⟨_, blockTurn_of_receives (s := s.withoutPast) hr,
      memRead_withoutPast (hm.answers_ne_nil (receives_callsAhead hm.op hr)) _ (receives_store hr) _⟩
  · rw [blockTurn_of_waits hw] at h
    cases h
    exact ⟨_, blockTurn_of_waits (s := s.withoutPast) hw, rfl⟩
  · rw [blockTurn_measurement_of_eval hm.op hp] at h
    rw [blockTurn_measurement_of_eval (s := s.withoutPast) hm.op hp]
    exact measEval_withoutPast h

/-- After a BLOCK step there are still answers for the calls ahead: it uses one up only with a call. -/
theorem State.Measuring.move_answered (hm : s.Measuring) (h : Move s.dev.curop s u) :
    u.dev.phase.callsAhead ≤ u.answers.length := by
  have ha := hm.answered
  cases h with
  | hang | noOperand => exact ha
  | writeFailed | readFailed => simp [Phase.callsAhead]
  | ended _ he => simp [Phase.callsAhead, ends_phase he]
  | wrote _ _ he =>
    have hle := Nat.le_sub_of_add_le ((emits_callsAhead hm.op he).symm.trans_le ha)
    simpa using hle
  | received _ _ hr =>
    have hle := Nat.le_sub_of_add_le ((receives_callsAhead hm.op hr).symm.trans_le ha)
    simpa using hle
  | waited hw => exact (waits_callsAhead hm.op hw).symm.trans_le ha

theorem State.Measuring.of_blockTurn (hm : s.Measuring) (h : blockTurn s = .next u) : u.Measuring := by
  by_cases hp : s.dev.phase = .idle
  · rw [blockTurn_of_idle hp] at h
    cases h
    exact hm
  · have hmove := blockTurn_move hp h
    obtain ⟨-, -, hop, -⟩ := move_dev_frame hmove
    exact ⟨hop ▸ hm.op, hm.move_answered hmove, by rw [busFree, (move_frame hmove).1]; exact hm.free⟩

/-- A stalled measurement has ended, or its call never answers: its turn changes nothing. -/
theorem State.Measuring.blockTurn_of_stalled (hm : s.Measuring) (hs : s.stalled)
    (h : blockTurn s = .next u) : u = s := by
  rcases hs with hp | ⟨hp, hn⟩ | ⟨-, hr⟩
  · rw [blockTurn_of_idle hp] at h
    cases h
    rfl
  · have hidle : s.dev.phase ≠ .idle := fun hi => by simp [hi] at hp
    cases blockTurn_move hidle h with
    | hang => rfl
    | wrote _ ha | writeFailed ha | received _ ha | readFailed ha => rw [hn] at ha; cases ha
    | waited hw => rcases waits_iff.mp hw with h | h | h | h | h <;> simp [h] at hp
    | noOperand he | ended he => simp [he] at hp
  · have hready : s.dev.operandsReady := by rcases hm.op with ho | ho <;> simp [Dev.operandsReady, ho]
    exact absurd hready hr

/-- A step that the inbox leaves to another handle makes no call, so that the measurement keeps its answers. -/
theorem State.Measuring.of_otherActs (hm : s.Measuring) {k : Nat} (h : OtherActs k s t) :
    t.Measuring ∧ t.withoutPast = s.withoutPast := by
  cases h with
  | nothing => exact ⟨hm, rfl⟩
  | @block d u hd hp hu =>
    have hmove := blockTurn_move hp hu
    have hfree : d.midTransfer = false := hm.free d (List.mem_of_getElem? hd)
    have heval : d.phase = .eval := by
      by_contra he
      simp [(Dev.midTransfer_iff d).mpr ⟨hp, he⟩] at hfree
    have ha : u.answers = s.answers := move_answers_of_eval (s := { s with dev := d, others := _ }) hmove heval
    refine ⟨⟨hm.op, ha ▸ hm.answered, fun e he => ?_⟩, State.withoutPast_congr rfl ha⟩
    rcases List.mem_or_eq_of_mem_set he with he | rfl
    · exact hm.free e he
    · rw [← Bool.not_eq_true] at hfree ⊢
      exact mt (move_midTransfer hmove) hfree

/-! ## Steps -/

/-- The inbox asks for `k` turns, or asks for nothing (log 19). -/
def TurnsAhead (k : Nat) (inbox : List Stim) : Prop :=
  inbox = [] ∨ ∃ rest, inbox = List.replicate k .turn ++ rest

theorem fairTurn_next_blockTurn (h : fairTurn s = .next t) : ∃ u, blockTurn s = .next u := by
  unfold fairTurn at h
  split at h
  · next u hu => exact ⟨u, hu⟩
  all_goals cases h

/-- `t` is where a turn of the measurement `s` leads, whatever the past is. -/
def TakesTurn (s t : State) : Prop :=
  t.Measuring ∧ ∃ w, blockTurn s.withoutPast = .next w ∧ w.withoutPast = t.withoutPast

theorem State.Measuring.takesTurn_of_blockTurn (hm : s.Measuring) {inbox : List Stim} {rotor : Nat}
    (h : blockTurn { s with inbox := inbox, rotor := rotor } = .next t) : TakesTurn s t :=
  have hm' : { s with inbox := inbox, rotor := rotor }.Measuring := ⟨hm.op, hm.answered, hm.free⟩
  ⟨hm'.of_blockTurn h, blockTurn_withoutPast (s := { s with inbox := inbox, rotor := rotor }) hm' h⟩

/-- A step left to BLOCK does to a measurement what its turn does, whichever handle takes the step. -/
theorem State.Measuring.takesTurn_of_fairTurn (hm : s.Measuring) (h : fairTurn s = .next t) : TakesTurn s t := by
  obtain ⟨u, hu⟩ := fairTurn_next_blockTurn h
  obtain ⟨-, hb⟩ | ⟨hs, -, ⟨-, hb⟩ | ⟨k, -, ho⟩⟩ := fairTurn_cases h
  · exact hm.takesTurn_of_blockTurn hb
  · exact hm.takesTurn_of_blockTurn hb
  · obtain rfl := hm.blockTurn_of_stalled hs hu
    have hm' : { u with rotor := u.rotor + 1 }.Measuring := ⟨hm.op, hm.answered, hm.free⟩
    obtain ⟨ht, hpast⟩ := hm'.of_otherActs ho
    obtain ⟨w, hw, hwu⟩ := blockTurn_withoutPast hm hu
    exact ⟨ht, w, hw, hwu.trans hpast.symm⟩

/-- A step of a measurement is its turn, asked for or left to BLOCK. -/
theorem State.Measuring.takesTurn_of_step (hm : s.Measuring) {k : Nat} (hi : TurnsAhead (k + 1) s.inbox)
    (h : step s = .next t) : TakesTurn s t ∧ TurnsAhead k t.inbox := by
  rcases hi with hi | ⟨rest, hi⟩
  · have ht : t.inbox = [] := by rcases step_inbox h with h | h <;> simp [h, hi]
    rw [step_leftToBlock (.inl hi)] at h
    exact ⟨hm.takesTurn_of_fairTurn h, .inl ht⟩
  · have hb : blockTurn { s with inbox := List.replicate k .turn ++ rest } = .next t := by
      simpa [step, nextStep, hi, List.replicate_succ] using h
    exact ⟨hm.takesTurn_of_blockTurn hb, .inr ⟨rest, acts_inbox (blockTurn_acts hb)⟩⟩

/-- Two measurements that differ in their past only take the same turns. -/
theorem runs_withoutPast {k : Nat} {s s' t t' : State} (hm : s.Measuring) (hm' : s'.Measuring)
    (hi : TurnsAhead k s.inbox) (hi' : TurnsAhead k s'.inbox) (he : s.withoutPast = s'.withoutPast)
    (h : runs k s = .next t) (h' : runs k s' = .next t') : t.withoutPast = t'.withoutPast := by
  induction k generalizing s s' with
  | zero => cases h; cases h'; exact he
  | succ k ih =>
    obtain ⟨u, hu, h⟩ := runs_succ_next h
    obtain ⟨u', hu', h'⟩ := runs_succ_next h'
    obtain ⟨⟨hmu, w, hw, hwu⟩, hiu⟩ := hm.takesTurn_of_step hi hu
    obtain ⟨⟨hmu', w', hw', hwu'⟩, hiu'⟩ := hm'.takesTurn_of_step hi' hu'
    obtain rfl : w = w' := by rw [he, hw'] at hw; cases hw; rfl
    exact ih hmu hmu' hiu hiu' (hwu.symm.trans hwu') h h'

/-- A run from a CMD write that is not refused goes on from the operation started (44_session R182). -/
theorem runs_command {k : Nat} {v : Byte} {next : List Stim} (hb : s.dev.busy = false)
    (hf : s.dev.touchesBus v → s.busFree) :
    runs (k + 1) { s with inbox := hostWrite 0x00 v :: next } =
      runs k { s with inbox := next, dev := s.dev.begin v } :=
  runs_succ_of_step (step_command (s := { s with inbox := hostWrite 0x00 v :: next }) rfl hb hf)

/-- The start of a measurement while BUSY = 0, two answers listed and the transport free (44_session R182). -/
theorem start_measuring {v : Byte} (next : List Stim) (hv : v.extractLsb' 0 4 = 4 ∨ v.extractLsb' 0 4 = 5)
    (hf : s.busFree) (ha : 2 ≤ s.answers.length) :
    { s with inbox := next, dev := s.dev.begin v }.Measuring := by
  refine ⟨hv, ?_, hf⟩
  have hp : firstPhase (v.extractLsb' 0 4) s.dev.idValid = .wr1 := by
    rcases hv with hv | hv <;> simp [firstPhase, hv]
  simpa [hp, Phase.callsAhead] using ha

/-- Settles O34: started, the two machines differ in their past only, and the four turns keep it so
(`runs_withoutPast`); what the statement compares is no part of the past (`Dev.eq_of_withoutPast_eq`). -/
theorem measurementIgnoresThePast : Obligations.MeasurementIgnoresThePast := by
  intro v s s' t t' next next' hn hn' hv hb hf hb' hf' hid ha hlen h h'
  rw [runs_command hb fun _ => hf] at h
  rw [runs_command hb' fun _ => hf'] at h'
  have hpast := runs_withoutPast (start_measuring next hv hf hlen) (start_measuring next' hv hf' (ha ▸ hlen))
    hn hn' (State.withoutPast_congr (Dev.begin_withoutPast hid v) ha) h h'
  exact Dev.eq_of_withoutPast_eq (congrArg State.dev hpast)

end Sys2Proof.Machine
end

section
/-! PROOFS. The wire commands and the delays, phase by phase, and the turns that an operation takes on the bus:
a command, its delay and its read, answered or failing (44_session R181 to R190; 43_identity R162, R163). -/

namespace Sys2Proof.Machine

variable {s t u : State} {len op : Nibble} {here after : Phase}

/-! ## Wire commands -/

section
variable (payload : List Byte) (p : Phase)

theorem memWrite_of_ok {data : Vector Byte 8} (h : s.nextAnswer = .ok data) :
    memWrite payload p s = { s.popAnswer with
      dev := (s.dev.record (.write s.dev.addr payload .ok)).goto p } := by
  simp [memWrite, h, State.onDev]

theorem memWrite_of_transportError (h : s.nextAnswer = .transportError) :
    memWrite payload p s = { s.popAnswer with
      dev := (s.dev.record (.write s.dev.addr payload .transportError)).finish .transportError } := by
  simp [memWrite, h, State.onDev]

theorem memWrite_of_noAnswer (h : s.nextAnswer = .noAnswer) : memWrite payload p s = s := by
  simp [memWrite, h]

end

/-- A wire row is the MemWrite of the phase that emits it (30_encoding R72; log 16). -/
theorem exec_wire {i : Instr} {payload : List Byte}
    (hi : (i = .wireMeasureT ∧ payload = [0xF3] ∧ here = .wr1 ∧ after = .dly1) ∨
      (i = .wireMeasureRh ∧ payload = [0xF5] ∧ here = .wr1 ∧ after = .dly1) ∨
      (i = .wireReset ∧ payload = [0xFE] ∧ here = .wr1 ∧ after = .dly1) ∨
      (i = .wireIdA ∧ payload = [0xFA, 0x0F] ∧ here = .wr1 ∧ after = .dly1) ∨
      (i = .wireIdB ∧ payload = [0xFC, 0xC9] ∧ here = .wr2 ∧ after = .dly2))
    (hp : s.dev.phase = here) : exec i s = .next (memWrite payload after s) := by
  rcases hi with ⟨rfl, rfl, rfl, rfl⟩ | ⟨rfl, rfl, rfl, rfl⟩ | ⟨rfl, rfl, rfl, rfl⟩ | ⟨rfl, rfl, rfl, rfl⟩ |
    ⟨rfl, rfl, rfl, rfl⟩ <;> exact if_pos hp

/-- Settles O22: the row is the MemWrite of its phase (`exec_wire`), which goes by what the transport does. -/
theorem wireCommandsComplete : Obligations.WireCommandsComplete := by
  intro i payload here after s hi hp
  rw [exec_wire hi hp]
  refine ⟨fun data ha => ?_, fun ha => ?_, fun ha => ?_⟩
  · rw [memWrite_of_ok payload after ha]; rfl
  · rw [memWrite_of_transportError payload after ha]; rfl
  · rw [memWrite_of_noAnswer payload after ha]

/-! ## Delays -/

/-- A row in a delay phase is the delay of that phase (44_session R190). -/
theorem exec_delay {i : Instr} {ms : Nat}
    (hi : (i = .measT len ∧ ms = 25 ∧ here = .dly1 ∧ after = .rd1) ∨
      (i = .measRh len ∧ ms = 25 ∧ here = .dly1 ∧ after = .rd1) ∨
      (i = .sreset len ∧ ms = 50 ∧ here = .dly1 ∧ after = .eval) ∨
      (i = .readId len ∧ ms = 25 ∧ here = .dly1 ∧ after = .rd1) ∨
      (i = .readId len ∧ ms = 25 ∧ here = .dly2 ∧ after = .rd2))
    (hp : s.dev.phase = here) : exec i s = .next (settle ms after s) := by
  rcases hi with ⟨rfl, rfl, rfl, rfl⟩ | ⟨rfl, rfl, rfl, rfl⟩ | ⟨rfl, rfl, rfl, rfl⟩ | ⟨rfl, rfl, rfl, rfl⟩ |
    ⟨rfl, rfl, rfl, rfl⟩
  · simp [exec, execMeasT, operation, measurement, settleMeas, hp]
  · simp [exec, execMeasRh, operation, measurement, settleMeas, hp]
  · simp [exec, execSreset, operation, sresetBlock, settleReset, hp]
  · simp [exec, execReadId, operation, readIdBlock, settleId, hp]
  · simp [exec, execReadId, operation, readIdBlock, settleId, hp]

/-- Settles O23: the row is the delay of its phase (`exec_delay`), which records it and goes on. -/
theorem delayPhasesComplete : Obligations.DelayPhasesComplete :=
  fun _ _ _ _ _ _ hi hp => exec_delay hi hp

/-! ## The turns of an operation -/

/-- One turn of the operation in progress leads from `s` to another phase, in `t`, whatever stands in the inbox
(44_session R183). -/
structure Advances (s t : State) : Prop where
  busy : s.dev.busy = true
  moves : t.dev.phase ≠ s.dev.phase
  turn : ∀ next, blockTurn { s with inbox := next } = .next { t with inbox := next }

/-- `k` turns, each leading to another phase. -/
inductive AdvancesIn : Nat → State → State → Prop
  | refl {s : State} : AdvancesIn 0 s s
  | head {k : Nat} {s t u : State} : Advances s t → AdvancesIn k t u → AdvancesIn (k + 1) s u

theorem AdvancesIn.single (h : Advances s t) : AdvancesIn 1 s t :=
  .head h .refl

theorem AdvancesIn.trans {k m : Nat} (h : AdvancesIn k s t) (h' : AdvancesIn m t u) :
    AdvancesIn (m + k) s u := by
  induction h with
  | refl => exact h'
  | head ha _ ih => exact .head ha (ih h')

/-- Such a turn, given, is the next step (log 19): a turn of a stalled handle, or of one in IDLE, would have
left its phase. -/
theorem Advances.step (h : Advances s t) {k : Nat} {next left : List Stim} (hg : givesTurns (k + 1) next left) :
    ∃ more, givesTurns k more left ∧
      step { s with inbox := next } = .next { t with inbox := more } := by
  have hstall : ¬ { s with inbox := next }.stalled := fun hs => by
    have hdev : t.dev = s.dev := (blockTurn_of_stalled hs (h.turn next) :)
    exact h.moves (congrArg Dev.phase hdev)
  have hidle : s.dev.phase ≠ .idle := fun hp => hstall (.inl hp)
  obtain ⟨more, hmore, hstep⟩ := step_given (s := { s with inbox := next }) hg hidle h.busy (.inl hstall)
  have hturn := blockTurn_of_decode (s := { s with inbox := more }) hidle rfl
  exact ⟨more, hmore, hstep.trans (hturn.symm.trans (h.turn more))⟩

/-- The turns given, a run takes them. -/
theorem AdvancesIn.runs {k : Nat} (h : AdvancesIn k s t) {next left : List Stim} (hg : givesTurns k next left) :
    runs k { s with inbox := next } = .next { t with inbox := left } := by
  induction h generalizing next with
  | refl => rw [givesTurns_zero.mp hg, runs_zero]
  | head ha _ ih =>
    obtain ⟨more, hmore, hstep⟩ := ha.step hg
    rw [runs_succ_of_step hstep, ih hmore]

/-- `s` with the handle `d` addressed and with these answers of the transport to come: what the turns of an
operation change. -/
def State.holding (s : State) (answers : List Answer) (d : Dev) : State :=
  { s with answers := answers, dev := d }

/-- A CMD write that is not refused, and then the turns given (44_session R182, R183). -/
theorem AdvancesIn.runs_command {k : Nat} {v : Byte} {answers : List Answer}
    (h : AdvancesIn k (s.holding answers (s.dev.begin v)) t) (hb : s.dev.busy = false) (hf : s.busFree)
    {next left : List Stim} (hg : givesTurns k next left) :
    Machine.runs (k + 1) { s with inbox := hostWrite 0x00 v :: next, answers := answers } =
      .next { t with inbox := left } :=
  (Machine.runs_command (s := { s with answers := answers }) hb fun _ => hf).trans (h.runs hg)

/-! ### The turns before EVAL -/

/-- The handle is at the phase `p` of the operation `op`. -/
structure Dev.AtPhase (d : Dev) (op : Nibble) (p : Phase) : Prop where
  op : d.curop = op
  phase : d.phase = p
  busy : d.busy = true

theorem emits_moves {payload : List Byte} (h : Emits op here payload after) : after ≠ here ∧ .idle ≠ here := by
  cases h <;> decide

theorem receives_moves {n : Nat} {store : Dev → List Byte → Dev} (h : Receives op here n store after) :
    after ≠ here ∧ .idle ≠ here := by
  cases h <;> decide

theorem waits_moves {ms : Nat} (h : Waits op here ms after) : after ≠ here := by
  cases h <;> decide

section
variable {d : Dev} {payload : List Byte} {n ms : Nat} {store : Dev → List Byte → Dev} {data : Vector Byte 8}
  {rest : List Answer}

/-- A wire command answered (44_session R183). -/
theorem Advances.wrote (hd : d.AtPhase op here) (he : Emits op here payload after) :
    Advances (s.holding (.ok data :: rest) d)
      (s.holding rest ((d.record (.write d.addr payload .ok)).goto after)) := by
  obtain ⟨rfl, rfl, hb⟩ := hd
  exact ⟨hb, (emits_moves he).1, fun next =>
    (blockTurn_of_emits (s := { s.holding _ d with inbox := next }) he).trans
      (congrArg _ (memWrite_of_ok payload after rfl))⟩

/-- A wire command failed (60_exceptions R211). -/
theorem Advances.writeFailed (hd : d.AtPhase op here) (he : Emits op here payload after) :
    Advances (s.holding (.transportError :: rest) d)
      (s.holding rest ((d.record (.write d.addr payload .transportError)).finish .transportError)) := by
  obtain ⟨rfl, rfl, hb⟩ := hd
  exact ⟨hb, (emits_moves he).2, fun next =>
    (blockTurn_of_emits (s := { s.holding _ d with inbox := next }) he).trans
      (congrArg _ (memWrite_of_transportError payload after rfl))⟩

/-- A read answered (44_session R183). -/
theorem Advances.received (hd : d.AtPhase op here) (hr : Receives op here n store after) :
    Advances (s.holding (.ok data :: rest) d)
      (s.holding rest ((store (d.record (.read d.addr n (.ok (data.toList.take n))))
        (data.toList.take n)).goto after)) := by
  obtain ⟨rfl, rfl, hb⟩ := hd
  exact ⟨hb, (receives_moves hr).1, fun next =>
    (blockTurn_of_receives (s := { s.holding _ d with inbox := next }) hr).trans
      (congrArg _ (memRead_of_ok n store after rfl))⟩

/-- A read failed (60_exceptions R211). -/
theorem Advances.readFailed (hd : d.AtPhase op here) (hr : Receives op here n store after) :
    Advances (s.holding (.transportError :: rest) d)
      (s.holding rest ((d.record (.read d.addr n .transportError)).finish .transportError)) := by
  obtain ⟨rfl, rfl, hb⟩ := hd
  exact ⟨hb, (receives_moves hr).2, fun next =>
    (blockTurn_of_receives (s := { s.holding _ d with inbox := next }) hr).trans
      (congrArg _ (memRead_of_transportError n store after rfl))⟩

/-- A delay (70_reset R245). -/
theorem Advances.waited (hd : d.AtPhase op here) (hw : Waits op here ms after) :
    Advances (s.holding rest d) (s.holding rest ((d.record (.delay ms)).goto after)) := by
  obtain ⟨rfl, rfl, hb⟩ := hd
  exact ⟨hb, waits_moves hw, fun next => blockTurn_of_waits (s := { s.holding rest d with inbox := next }) hw⟩

/-! ### A command, its delay and its read -/

section
variable {dly rd : Phase} {w : Vector Byte 8} (hd : d.AtPhase op here) (he : Emits op here payload dly)
  (hw : Waits op dly ms rd) (hr : Receives op rd n store after)
include hd he hw

/-- The command is answered and its delay over (44_session R185, 43_identity R162, R163). -/
theorem AdvancesIn.commanded : AdvancesIn 2 (s.holding (.ok w :: rest) d) (s.holding rest
    { d with hist := d.hist ++ [.write d.addr payload .ok, .delay ms], phase := rd }) := by
  have h : AdvancesIn 2 (s.holding (.ok w :: rest) d) _ :=
    .head (Advances.wrote hd he) (.head (Advances.waited ⟨hd.op, rfl, hd.busy⟩ hw) .refl)
  simpa [Dev.record, Dev.goto] using h

include hr

/-- The command and the read are answered. -/
theorem AdvancesIn.responded : AdvancesIn 3 (s.holding (.ok w :: .ok data :: rest) d) (s.holding rest
    { store d (data.toList.take n) with
      hist := d.hist ++ [.write d.addr payload .ok, .delay ms, .read d.addr n (.ok (data.toList.take n))]
      phase := after }) := by
  have h : AdvancesIn 3 (s.holding (.ok w :: .ok data :: rest) d) _ :=
    (commanded hd he hw).trans (.single (.received ⟨hd.op, rfl, hd.busy⟩ hr))
  rcases receives_store hr with rfl | rfl <;>
    simpa [Dev.record, Dev.goto, Dev.storeA, Dev.storeB] using h

/-- The command is answered and the read fails (60_exceptions R211). -/
theorem AdvancesIn.readFailed : AdvancesIn 3 (s.holding (.ok w :: .transportError :: rest) d) (s.holding rest
    { d.finish .transportError with
      hist := d.hist ++ [.write d.addr payload .ok, .delay ms, .read d.addr n .transportError] }) := by
  have h : AdvancesIn 3 (s.holding (.ok w :: .transportError :: rest) d) _ :=
    (commanded hd he hw).trans (.single (.readFailed ⟨hd.op, rfl, hd.busy⟩ hr))
  simpa [Dev.record, Dev.finish] using h

end

end

end Sys2Proof.Machine
end

section
/-! PROOFS. READ_ID: the serial and the model from the responses, its EVAL, that it checks nothing, and whole
resolutions, answered and failing (43_identity R161 to R168). -/

namespace Sys2Proof.Machine

variable {s : State} {len : Nibble}

/-! ## The identity from the responses -/

/-- Each byte packed stands at its place in 64 bits (41_packer R120). -/
theorem extract_pack {bs : List Byte} {i : Nat} (hl : bs.length ≤ 8) (hi : i < bs.length) :
    (BitVec.ofNat 64 (pack bs)).extractLsb' (8 * (bs.length - 1 - i)) 8 = bs[i] := by
  have hlt : pack bs < 2 ^ 64 := (pack_lt bs).trans_le (Nat.pow_le_pow_right (by decide) (by omega))
  apply BitVec.eq_of_toNat_eq
  rw [BitVec.extractLsb'_toNat, BitVec.toNat_ofNat, Nat.mod_eq_of_lt hlt, Nat.shiftRight_eq_div_pow]
  exact pack_byte_at hi

/-- The response bytes that make the serial, most significant first (43_identity R165). -/
def serialBytes (a b : List Byte) : List Byte :=
  [rspByte a 0, rspByte a 2, rspByte a 4, rspByte a 6, rspByte b 0, rspByte b 1, rspByte b 3, rspByte b 4]

theorem serialOf_toNat (a b : List Byte) : (serialOf a b).toNat = pack (serialBytes a b) :=
  BitVec.toNat_ofNat _ _ |>.trans (Nat.mod_eq_of_lt (pack_lt (serialBytes a b)))

/-- Each selected byte stands at its place in the serial (43_identity R165). -/
theorem serialOf_extract (a b : List Byte) {i : Nat} (hi : i < 8) :
    (serialOf a b).extractLsb' (8 * (7 - i)) 8 = (serialBytes a b)[i] :=
  extract_pack (bs := serialBytes a b) le_rfl hi

theorem modelOf_code (b : Byte) :
    (modelOf b).code = if b = 0x00 ∨ b = 0xFF then 0 else if b = 0x0D then 1 else if b = 0x14 then 2
      else if b = 0x15 then 3 else 4 := by
  unfold modelOf
  split_ifs <;> rfl

/-- Settles O5: the serial is the packer on the selected bytes (`serialOf_extract`). -/
theorem identityOfResponses : Obligations.IdentityOfResponses := by
  refine ⟨fun a b _ _ => ⟨serialOf_toNat a b, ?_⟩, modelOf_code⟩
  have h {i : Nat} (hi : i < 8) := serialOf_extract a b hi
  exact ⟨h (i := 0) (by decide), h (i := 1) (by decide), h (i := 2) (by decide), h (i := 3) (by decide),
    h (i := 4) (by decide), h (i := 5) (by decide), h (i := 6) (by decide), h (i := 7) (by decide)⟩

/-! ## EVAL of READ_ID -/

/-- READ_ID's EVAL with nothing cached writes the cache from the responses (43_identity R164). -/
theorem exec_readId_resolved {a b : List Byte} (hp : s.dev.phase = .eval) (hv : s.dev.idValid = false)
    (ha : s.dev.rspA.toList = a.map some) (hb : s.dev.rspB.toList = b.map some) :
    exec (.readId len) s = .next (s.onDev fun d =>
      { d with
        serial := some (serialOf a b)
        model := some (modelOf (rspByte b 0))
        idValid := true
        res := some (serialOf a b)
        resValid := true }.finish .noError) := by
  rw [← allSome_eq_some] at ha hb
  simp [exec, execReadId, operation, readIdBlock, readIdEval, hp, hv, ha, hb]

/-- Settles O27: EVAL goes by ID_VALID. -/
theorem readIdEvaluates : Obligations.ReadIdEvaluates :=
  fun _ _ hp => ⟨fun _ _ hv ha hb => exec_readId_resolved hp hv ha hb,
    fun _ hv hs => exec_readId_cached hp hv hs⟩

/-! ## READ_ID checks nothing -/

/-- READ_ID's EVAL leaves the checksum fields and ends with NONE (43_identity R164, R167). -/
theorem ends_readId_crc {d e : Dev} (h : Ends 7 d e) :
    e.crcObs = d.crcObs ∧ e.crcExp = d.crcExp ∧ e.crcOk = d.crcOk ∧ e.err = .noError := by
  cases h with
  | cached | resolved => exact ⟨rfl, rfl, rfl, rfl⟩
  | crc8 _ _ ho | verify _ _ _ ho | packIllegal ho | pack _ ho | illegal ho | measured _ _ _ ho
  | mismatch _ _ _ ho | sreset ho => exact absurd ho (by decide)

/-- Settles O39, kind of BLOCK step by kind: a failed call ends with TRANSPORT_ERROR, EVAL with NONE
(`ends_readId_crc`), and every other step leaves the four fields. -/
theorem readIdChecksNothing : Obligations.ReadIdChecksNothing := by
  intro len s t hp herr h
  cases readId_move hp h with
  | hang | waited | noOperand => exact ⟨rfl, rfl, .inl rfl, herr⟩
  | wrote => simp [herr]
  | received _ _ hr => rcases receives_store hr with rfl | rfl <;> simp [herr]
  | writeFailed | readFailed => simp
  | ended _ he =>
    obtain ⟨hobs, hexp, hok, he⟩ := ends_readId_crc he
    exact ⟨hobs, hexp, .inl hok, he.trans_ne (by decide)⟩

/-! ## Whole resolutions -/

/-- A response as long as the buffer fills it (10_state R36). -/
theorem storeBytes_toList {n : Nat} (v : Vector (Option Byte) n) {bs : List Byte} (h : bs.length = n) :
    (storeBytes v 0 bs).toList = bs.map some := by
  apply List.ext_getElem
  · simp [h]
  · intro i hi _
    have hlt : i < n := by simpa using hi
    simp [storeBytes_getElem, h, hlt]

/-- READ_ID with nothing cached starts in WR1 (44_session R181). -/
theorem Dev.begin_readId_atPhase {d : Dev} (len : Nibble) (hv : d.idValid = false) :
    (d.begin (cmdWord len 7)).AtPhase 7 .wr1 :=
  ⟨cmdWord_low len 7, by simp [firstPhase, hv], rfl⟩

/-- What the first half of READ_ID, answered with `da`, makes of a handle in WR1 (43_identity R162). -/
def Dev.halfResolved (d : Dev) (da : Vector Byte 8) : Dev :=
  { d with
    rspA := da.map some
    hist := d.hist ++ [.write d.addr [0xFA, 0x0F] .ok, .delay 25, .read d.addr 8 (.ok da.toList)]
    phase := .wr2 }

theorem Dev.AtPhase.halfResolved {d : Dev} (hd : d.AtPhase 7 .wr1) (da : Vector Byte 8) :
    (d.halfResolved da).AtPhase 7 .wr2 :=
  ⟨hd.op, rfl, hd.busy⟩

/-- The first command and the first read of READ_ID are answered (43_identity R162). -/
theorem AdvancesIn.halfResolved {d : Dev} {w da : Vector Byte 8} {rest : List Answer} (hd : d.AtPhase 7 .wr1) :
    AdvancesIn 3 (s.holding (.ok w :: .ok da :: rest) d) (s.holding rest (d.halfResolved da)) := by
  have h : AdvancesIn 3 (s.holding (.ok w :: .ok da :: rest) d) _ := .responded hd .idA .idA .idA
  have htake : da.toList.take 8 = da.toList := List.take_of_length_le (by simp)
  have hstore : storeBytes d.rspA 0 da.toList = da.map some :=
    Vector.toList_inj.mp ((storeBytes_toList d.rspA (by simp)).trans Vector.toList_map.symm)
  simpa [Dev.halfResolved, Dev.storeA, htake, hstore] using h

/-- READ_ID's EVAL with nothing cached, as a turn (43_identity R164). -/
theorem Advances.resolved {d : Dev} {a b : List Byte} {rest : List Answer} (hd : d.AtPhase 7 .eval)
    (hv : d.idValid = false) (ha : d.rspA.toList = a.map some) (hb : d.rspB.toList = b.map some) :
    Advances (s.holding rest d) (s.holding rest
      ({ d with
        serial := some (serialOf a b)
        model := some (modelOf (rspByte b 0))
        idValid := true
        res := some (serialOf a b)
        resValid := true }.finish .noError)) := by
  obtain ⟨ho, hp, hbusy⟩ := hd
  have hidle : d.phase ≠ .idle := by simp [hp]
  have hdecode : decodeCmd d.cmdByte = .readId d.lenL := by simp [decodeCmd_cmdByte, ho]
  exact ⟨hbusy, hidle.symm, fun next =>
    (blockTurn_of_decode (s := { s.holding rest d with inbox := next }) hidle (congrArg _ hdecode)).trans
      (exec_readId_resolved hp hv ha hb)⟩

/-- A vector of 8 is its elements, one by one. -/
theorem vector8_cases {α : Type} (v : Vector α 8) :
    ∃ x0 x1 x2 x3 x4 x5 x6 x7, v = #v[x0, x1, x2, x3, x4, x5, x6, x7] :=
  ⟨_, _, _, _, _, _, _, _, Vector.toList_inj.mp (vector8_toList v)⟩

/-- Settles O31: the two halves (`AdvancesIn.halfResolved`, `AdvancesIn.responded`) and EVAL
(`Advances.resolved`). -/
theorem readIdRuns : Obligations.ReadIdRuns := by
  intro len s w w' da db rest next left hg hb hv hf
  have hstart := s.dev.begin_readId_atPhase len hv
  have hhalf := hstart.halfResolved da
  have hturns := (AdvancesIn.halfResolved (s := s) (w := w) hstart).trans
    (.responded (w := w') (data := db) (rest := rest) hhalf .idB .idB .idB)
  have heval := hturns.trans (.single (.resolved ⟨hhalf.op, rfl, hhalf.busy⟩ hv Vector.toList_map
    (storeBytes_toList _ (by simp))))
  refine (heval.runs_command hb hf hg).trans ?_
  obtain ⟨a0, a1, a2, a3, a4, a5, a6, a7, rfl⟩ := vector8_cases da
  obtain ⟨b0, b1, b2, b3, b4, b5, b6, b7, rfl⟩ := vector8_cases db
  have hstore (v : Vector (Option Byte) 6) : storeBytes v 0 [b0, b1, b2, b3, b4, b5] =
      #v[some b0, some b1, some b2, some b3, some b4, some b5] :=
    Vector.toList_inj.mp (storeBytes_toList v rfl)
  simp [State.holding, Dev.finish, Dev.begin, Dev.halfResolved, Dev.storeB, hstore, serialOf, rspByte]

/-- Settles O33: the calls before the failing one make whole halves, or the command and the delay before a
failing read. -/
theorem readIdFailures : Obligations.ReadIdFailures := by
  intro len s w w' da rest k script events buf next left hg hb hv hf hk
  have hstart := s.dev.begin_readId_atPhase len hv
  have hhalf := hstart.halfResolved da
  rcases hk with ⟨rfl, rfl, rfl, rfl⟩ | ⟨rfl, rfl, rfl, rfl⟩ | ⟨rfl, rfl, rfl, rfl⟩ | ⟨rfl, rfl, rfl, rfl⟩
  · have h := AdvancesIn.single (Advances.writeFailed (s := s) (rest := rest) hstart .idA)
    refine (h.runs_command hb hf hg).trans ?_
    simp [State.holding, Dev.finish, Dev.begin]
  · have h := AdvancesIn.readFailed (s := s) (rest := rest) (w := w) hstart .idA .idA .idA
    refine (h.runs_command hb hf hg).trans ?_
    simp [State.holding, Dev.finish, Dev.begin]
  · have h := (AdvancesIn.halfResolved (s := s) (w := w) hstart).trans
      (.single (.writeFailed (rest := rest) hhalf .idB))
    refine (h.runs_command hb hf hg).trans ?_
    simp [State.holding, Dev.finish, Dev.begin, Dev.halfResolved]
  · have h := (AdvancesIn.halfResolved (s := s) (w := w) hstart).trans
      (.readFailed (rest := rest) (w := w') hhalf .idB .idB .idB)
    refine (h.runs_command hb hf hg).trans ?_
    simp [State.holding, Dev.finish, Dev.begin, Dev.halfResolved]

end Sys2Proof.Machine
end

section
/-! PROOFS. The start of an operation, and whole measurements and resets, answered and failing (44_session R182,
R185 to R190). -/

namespace Sys2Proof.Machine

variable {s : State} {op len : Nibble}

/-! ## Starting -/

/-- HW on CMD is the start of an operation (44_session R182). -/
theorem execHw_command (v : Byte) (s : State) : exec (.hw 0x00 v) s = startOp v s := rfl

theorem startOp_of_busy {v : Byte} (hb : s.dev.busy = true) : startOp v s = .next s.markRefused := by
  simp [startOp, hb]

theorem startOp_of_free {v : Byte} (hb : s.dev.busy = false) (hf : s.dev.touchesBus v → s.busFree) :
    startOp v s = .next (s.onDev fun d => d.begin v) := by
  simp [startOp, hb, (busConflict_eq_false s v).mpr hf]

/-- An operation starts in WR1 where it touches the bus, and otherwise in EVAL (44_session R181). -/
theorem Dev.firstPhase_of_touchesBus (d : Dev) (v : Byte) :
    (d.touchesBus v ∧ firstPhase (v.extractLsb' 0 4) d.idValid = .wr1) ∨
      (¬ d.touchesBus v ∧ firstPhase (v.extractLsb' 0 4) d.idValid = .eval) := by
  have hiff : firstPhase (v.extractLsb' 0 4) d.idValid = .wr1 ↔ d.touchesBus v := firstPhase_eq_wr1 _ _
  rcases firstPhase_cases (v.extractLsb' 0 4) d.idValid with hp | hp
  · exact .inl ⟨hiff.mp hp, hp⟩
  · exact .inr ⟨fun ht => by simp [hiff.mpr ht] at hp, hp⟩

/-- Settles O12: HW on CMD is `startOp`, which refuses while BUSY = 1, and otherwise makes the assignments of
`Dev.begin`. -/
theorem commandWriteStarts : Obligations.CommandWriteStarts := by
  intro v s
  rw [execHw_command]
  exact ⟨fun hb hf => ⟨_, s.dev.firstPhase_of_touchesBus v, startOp_of_free hb hf⟩, startOp_of_busy⟩

/-! ## Measurements -/

/-- The command, the delay and the read of a measurement (44_session R185 to R187). -/
theorem measurement_phases {code : Byte} (h : (op = 4 ∧ code = 0xF3) ∨ (op = 5 ∧ code = 0xF5)) :
    Emits op .wr1 [code] .dly1 ∧ Waits op .dly1 25 .rd1 ∧ Receives op .rd1 3 Dev.storeA .eval := by
  rcases h with ⟨rfl, rfl⟩ | ⟨rfl, rfl⟩
  · exact ⟨.measT, .measT, .measT⟩
  · exact ⟨.measRh, .measRh, .measRh⟩

/-- An operation that emits a command in WR1 starts there (44_session R181). -/
theorem Dev.begin_atPhase {payload : List Byte} {p : Phase} (he : Emits op .wr1 payload p) (h7 : op ≠ 7)
    (d : Dev) (len : Nibble) : (d.begin (cmdWord len op)).AtPhase op .wr1 := by
  refine ⟨cmdWord_low len op, ?_, rfl⟩
  rw [begin_phase, cmdWord_low]
  cases he with
  | idA => exact absurd rfl h7
  | _ => rfl

/-- What EVAL of a measurement makes of its handle, from the three bytes received (44_session R185). -/
def Dev.measured (d : Dev) (hi lo rcv : Byte) : Dev :=
  if crc8 hi lo = rcv then
    { d with
      crcObs := rcv
      crcExp := crc8 hi lo
      res := some (BitVec.ofNat 64 (pack [hi, lo]))
      crcOk := true
      resValid := true }.finish .noError
  else
    { d with crcObs := rcv, crcExp := crc8 hi lo }.finish .checksumError

theorem measEval_eq {hi lo rcv : Byte} (h0 : s.dev.rspA[0] = some hi) (h1 : s.dev.rspA[1] = some lo)
    (h2 : s.dev.rspA[2] = some rcv) :
    measEval s = .next { s with dev := s.dev.measured hi lo rcv } := by
  rw [measEval, h0, h1, h2]
  simp only [Dev.measured]
  split <;> rfl

theorem Dev.measured_phase (d : Dev) (hi lo rcv : Byte) : (d.measured hi lo rcv).phase = .idle := by
  unfold measured
  split <;> rfl

/-- EVAL of a measurement, as a turn (44_session R185). -/
theorem Advances.measured {d : Dev} {hi lo rcv : Byte} {rest : List Answer} (hop : op = 4 ∨ op = 5)
    (hd : d.AtPhase op .eval) (h0 : d.rspA[0] = some hi) (h1 : d.rspA[1] = some lo)
    (h2 : d.rspA[2] = some rcv) :
    Advances (s.holding rest d) (s.holding rest (d.measured hi lo rcv)) := by
  obtain ⟨rfl, hp, hb⟩ := hd
  exact ⟨hb, by simp [State.holding, Dev.measured_phase, hp], fun next =>
    (blockTurn_measurement_of_eval (s := { s.holding rest d with inbox := next }) hop hp).trans
      (measEval_eq h0 h1 h2)⟩

theorem take_three (data : Vector Byte 8) : data.toList.take 3 = [data[0], data[1], data[2]] := by
  rw [vector8_toList]
  rfl

/-- The three bytes of a measurement in the response buffer cleared at its start (10_state R36). -/
theorem storeBytes_three (b0 b1 b2 : Byte) :
    storeBytes (Vector.replicate 8 none) 0 [b0, b1, b2] =
      #v[some b0, some b1, some b2, none, none, none, none, none] := rfl

/-- Settles O28: the command, the delay and the read (`AdvancesIn.responded`), and EVAL (`Advances.measured`),
which goes by the checksum. -/
theorem measurementRuns : Obligations.MeasurementRuns := by
  intro len op code s w data rest next left hg hcode hb hf
  obtain ⟨he, hw, hr⟩ := measurement_phases hcode
  have hop : op = 4 ∨ op = 5 := hcode.imp And.left And.left
  have hstart := Dev.begin_atPhase he (by rcases hop with rfl | rfl <;> decide) s.dev len
  have hturns := AdvancesIn.responded (s := s) (w := w) (data := data) (rest := rest) hstart he hw hr
  rw [take_three] at hturns
  have heval := hturns.trans (.single (.measured (hi := data[0]) (lo := data[1]) (rcv := data[2]) hop
    ⟨hstart.op, rfl, hstart.busy⟩ rfl rfl rfl))
  have hrun := heval.runs_command hb hf hg
  refine ⟨fun hc => hrun.trans ?_, fun hc => hrun.trans ?_⟩ <;>
    simp [State.holding, Dev.measured, hc, Dev.finish, Dev.begin, Dev.storeA, storeBytes_three, pack_pair]

/-- Settles O29: the start and the failing call, or the start, the command, the delay and the failing read. -/
theorem measurementTransportFailures : Obligations.MeasurementTransportFailures := by
  intro len op code s w rest next left hcode hb hf
  obtain ⟨he, hw, hr⟩ := measurement_phases hcode
  have h7 : op ≠ 7 := by rcases hcode with ⟨rfl, -⟩ | ⟨rfl, -⟩ <;> decide
  have hstart := Dev.begin_atPhase he h7 s.dev len
  refine ⟨fun hg => ?_, fun hg => ?_⟩
  · have h := AdvancesIn.single (Advances.writeFailed (s := s) (rest := rest) hstart he)
    refine (h.runs_command hb hf hg).trans ?_
    simp [State.holding, Dev.finish, Dev.begin]
  · have h := AdvancesIn.readFailed (s := s) (rest := rest) (w := w) hstart he hw hr
    refine (h.runs_command hb hf hg).trans ?_
    simp [State.holding, Dev.finish, Dev.begin]

/-! ## SRESET -/

/-- SRESET's EVAL finishes with NONE (44_session R188). -/
theorem exec_sreset_of_eval (hp : s.dev.phase = .eval) :
    exec (.sreset len) s = .next (s.onDev fun d => d.finish .noError) := by
  simp [exec, execSreset, operation, sresetBlock, hp]

/-- SRESET's EVAL, as a turn (44_session R188). -/
theorem Advances.sreset {d : Dev} {rest : List Answer} (hd : d.AtPhase 6 .eval) :
    Advances (s.holding rest d) (s.holding rest (d.finish .noError)) := by
  obtain ⟨ho, hp, hb⟩ := hd
  have hidle : d.phase ≠ .idle := by simp [hp]
  have hdecode : decodeCmd d.cmdByte = .sreset d.lenL := by simp [decodeCmd_cmdByte, ho]
  exact ⟨hb, hidle.symm, fun next =>
    (blockTurn_of_decode (s := { s.holding rest d with inbox := next }) hidle (congrArg _ hdecode)).trans
      (exec_sreset_of_eval hp)⟩

/-- Settles O30: EVAL finishes; the whole operation is the command and the delay (`AdvancesIn.commanded`) and
then EVAL (`Advances.sreset`), or the command failing. -/
theorem sresetRuns : Obligations.SresetRuns := by
  refine ⟨fun len s hp => exec_sreset_of_eval hp, fun len s w rest next left hb hf => ?_⟩
  have hstart := Dev.begin_atPhase .sreset (by decide) s.dev len
  refine ⟨fun hg => ?_, fun hg => ?_⟩
  · have h := (AdvancesIn.commanded (s := s) (rest := rest) (w := w) hstart .sreset .sreset).trans
      (.single (.sreset ⟨hstart.op, rfl, hstart.busy⟩))
    refine (h.runs_command hb hf hg).trans ?_
    simp [State.holding, Dev.finish, Dev.begin]
  · have h := AdvancesIn.single (Advances.writeFailed (s := s) (rest := rest) hstart .sreset)
    refine (h.runs_command hb hf hg).trans ?_
    simp [State.holding, Dev.finish, Dev.begin]

end Sys2Proof.Machine
end

section
/-! PROOFS. Where a BLOCK step leads: how a failed call ends its operation, and the phase after each phase
(44_session R181, R184; 60_exceptions R211, R216, R222). -/

namespace Sys2Proof.Machine

variable {s t : State}

/-! ## A failed call -/

/-- A BLOCK step that records a failed call ends the operation with TRANSPORT_ERROR and writes nothing else. -/
theorem move_failed {ev : BusEvent} (h : Move s.dev.curop s t) (hh : t.dev.hist = s.dev.hist ++ [ev])
    (hf : ev.failed = true) : t.dev = (s.dev.record ev).finish .transportError := by
  cases h with
  | hang | noOperand => simp at hh
  | ended _ he => simp [ends_hist he] at hh
  | waited | wrote =>
    simp at hh
    simp [← hh, BusEvent.failed] at hf
  | received _ _ hr =>
    rcases receives_store hr with rfl | rfl <;> simp at hh <;> simp [← hh, BusEvent.failed] at hf
  | writeFailed | readFailed =>
    simp at hh
    simp [hh]

/-- HOST records no event, so that only a BLOCK step records a failed call. -/
theorem actsOn_failed {d e : Dev} {ev : BusEvent} (h : ActsOn d e) (hh : e.hist = d.hist ++ [ev])
    (hf : ev.failed = true) : e = (d.record ev).finish .transportError := by
  obtain ⟨s, t, ha, rfl, rfl⟩ := h
  cases ha with
  | block _ hm => exact move_failed hm hh hf
  | nothing => simp at hh
  | read hr => rcases execHr_cases hr with ⟨b, -, rfl⟩ | ⟨-, rfl⟩ <;> simp at hh
  | write hw =>
    rcases execHw_cases hw with ⟨-, hv⟩ | rfl | ⟨-, -, -, rfl⟩ | rfl
    · rcases startOp_cases hv with ⟨-, rfl⟩ | ⟨-, -, rfl⟩ <;> simp at hh
    all_goals simp at hh

/-- Settles O42: such a step is an act of BLOCK or HOST on the handle (`step_handle`), and only `finish` with
TRANSPORT_ERROR records a failed call (`actsOn_failed`). -/
theorem failedCallEndsOperation : Obligations.FailedCallEndsOperation := by
  intro s t k d e ev hs h hd he hh hf
  obtain ⟨e', he', ha⟩ := step_handle hs h hd
  obtain rfl : e' = e := Option.some.inj (he'.symm.trans he)
  rw [actsOn_failed ha hh hf]
  simp

/-! ## The phase after a phase -/

/-- EVAL does not end with TRANSPORT_ERROR (60_exceptions R211). -/
theorem ends_err {op : Nibble} {d e : Dev} (h : Ends op d e) : e.err ≠ .transportError := by
  cases h <;> simp

/-- A write phase is WR1 or WR2, and its delay follows (44_session R181). -/
theorem emits_succession {op : Nibble} {here after : Phase} {payload : List Byte}
    (h : Emits op here payload after) : (here = .wr1 ∧ after = .dly1) ∨ (here = .wr2 ∧ after = .dly2) := by
  cases h <;> decide

/-- A read phase is RD1 or RD2; EVAL follows, or the second half of READ_ID (44_session R181). -/
theorem receives_succession {op : Nibble} {here after : Phase} {n : Nat} {store : Dev → List Byte → Dev}
    (h : Receives op here n store after) :
    (here = .rd1 ∧ op ≠ 7 ∧ after = .eval) ∨ (here = .rd1 ∧ op = 7 ∧ after = .wr2) ∨
      (here = .rd2 ∧ after = .eval) := by
  cases h <;> decide

/-- A delay phase is DLY1 or DLY2; its read follows, or SRESET's EVAL (44_session R181). -/
theorem waits_succession {op : Nibble} {here after : Phase} {ms : Nat} (h : Waits op here ms after) :
    (here = .dly1 ∧ op ≠ 6 ∧ after = .rd1) ∨ (here = .dly1 ∧ op = 6 ∧ after = .eval) ∨
      (here = .dly2 ∧ after = .rd2) := by
  cases h <;> decide

/-- A phase with a transport call is one of the four WR and RD phases. -/
theorem call_phase {op : Nibble} {here : Phase}
    (h : (∃ payload p, Emits op here payload p) ∨ ∃ n store p, Receives op here n store p) :
    here ∈ [Phase.wr1, .rd1, .wr2, .rd2] := by
  rcases h with ⟨_, _, h⟩ | ⟨_, _, _, h⟩ <;> cases h <;> decide

/-- Whose step a turn asked for, or a step left to BLOCK by an empty inbox, is: the addressed handle's, or,
while that one is stalled, another's, which leaves it as it is (log 19). -/
theorem step_turn_cases (hi : s.inbox = [] ∨ s.inbox.head? = some .turn) (h : step s = .next t) :
    blockTurn { s with inbox := s.inbox.tail } = .next t ∨
      (s.inbox = [] ∧ s.stalled ∧ ¬ s.othersIdle ∧ t.dev = s.dev) := by
  rcases hi with hi | hi
  · rw [step_leftToBlock (.inl hi)] at h
    have hs : { s with inbox := s.inbox.tail } = s := by rw [hi, List.tail_nil, ← hi]
    rcases fairTurn_cases h with ⟨-, hb⟩ | ⟨hstall, ho, ⟨-, hb⟩ | ⟨k, -, hk⟩⟩
    · exact .inl (by rwa [hs])
    · exact .inr ⟨hi, hstall, ho, blockTurn_of_stalled (s := { s with rotor := s.rotor + 1 }) hstall hb⟩
    · exact .inr ⟨hi, hstall, ho, by cases hk <;> rfl⟩
  · obtain ⟨rest, hi⟩ := List.head?_eq_some_iff.mp hi
    refine .inl ?_
    simpa [step, nextStep, hi] using h

/-- Settles O43: a turn of the addressed handle is one BLOCK step of CUROP (`blockTurn_move`), kind by kind;
a step of another handle comes only where the addressed one is stalled. -/
theorem phaseSuccession : Obligations.PhaseSuccession := by
  intro s t hi _ hp h
  obtain hb | ⟨hi, hstall, ho, hd⟩ := step_turn_cases hi h
  · cases blockTurn_move (s := { s with inbox := s.inbox.tail }) hp hb with
    | hang ha hc => exact .inl ⟨rfl, call_phase hc, ha, fun _ => rfl⟩
    | noOperand he hm => exact .inr (.inl ⟨rfl, he, missing_not_ready hm, fun _ => rfl⟩)
    | writeFailed ha he => exact .inr (.inr (.inl ⟨call_phase (.inl ⟨_, _, he⟩), ha, rfl, rfl⟩))
    | readFailed ha hr => exact .inr (.inr (.inl ⟨call_phase (.inr ⟨_, _, _, hr⟩), ha, rfl, rfl⟩))
    | wrote data ha he =>
      refine .inr (.inr (.inr (.inl ⟨call_phase (.inl ⟨_, _, he⟩), ⟨data, ha⟩, ?_⟩)))
      exact (emits_succession he).elim .inl fun h => .inr (.inr (.inr (.inl h)))
    | received data ha hr =>
      refine .inr (.inr (.inr (.inl ⟨call_phase (.inr ⟨_, _, _, hr⟩), ⟨data, ha⟩, ?_⟩)))
      rcases receives_succession hr with h | h | h
      exacts [.inr (.inl h), .inr (.inr (.inl h)), .inr (.inr (.inr (.inr h)))]
    | waited hw =>
      exact .inr (.inr (.inr (.inr ((waits_succession hw).imp_right (.imp_right .inl)))))
    | ended he hend =>
      exact .inr (.inr (.inr (.inr (.inr (.inr (.inr ⟨he, ends_phase hend, ends_err hend⟩))))))
  · rcases hstall with hidle | ⟨hc, ha⟩ | ⟨he, hr⟩
    · exact absurd hidle hp
    · exact .inl ⟨hd, hc, ha, fun h => absurd h ho⟩
    · exact .inr (.inl ⟨hd, he, hr, fun h => absurd h (by simp [hi, ho])⟩)

end Sys2Proof.Machine
end

section
/-! PROOFS. The steps left to BLOCK, over all the handles of the transport: whose step it is, what it makes of
each handle, and how far it brings them (44_session R181, R183; 70_reset R252; log 19). -/

namespace Sys2Proof.Machine

variable {s t u : State} {c d e : Dev} {i j k : Nat}

/-! ## What BLOCK's steps make of a handle -/

/-- What BLOCK's steps make of the handle `d`: the operands that its operation reads stay written, in IDLE it is
left as it is, and it comes to IDLE by ending its operation (44_session R183, 60_exceptions R214). -/
structure Dev.Leads (d e : Dev) : Prop where
  ready : d.operandsReady → e.operandsReady
  idle : d.phase = .idle → e = d
  ended : d.phase ≠ .idle → e.phase = .idle → e.done = true ∧ e.busy = false

theorem Dev.Leads.refl (d : Dev) : d.Leads d :=
  ⟨id, fun _ => rfl, fun hp hi => absurd hi hp⟩

theorem Dev.Leads.trans (h : d.Leads e) (h' : e.Leads c) : d.Leads c := by
  refine ⟨h'.ready ∘ h.ready, fun hp => ?_, fun hp hi => ?_⟩
  · obtain rfl := h.idle hp
    exact h'.idle hp
  · by_cases he : e.phase = .idle
    · rw [h'.idle he]
      exact h.ended hp he
    · exact h'.ended he hi

/-- EVAL ends an operation with DONE = 1 and BUSY = 0 (60_exceptions R214). -/
theorem ends_status {op : Nibble} (h : Ends op d e) : e.done = true ∧ e.busy = false := by
  cases h <;> exact ⟨rfl, rfl⟩

/-- A BLOCK step leads to IDLE only by `finish`. -/
theorem move_ended (hp : s.dev.phase ≠ .idle) (h : Move s.dev.curop s t) (ht : t.dev.phase = .idle) :
    t.dev.done = true ∧ t.dev.busy = false := by
  cases h with
  | hang | noOperand => exact absurd ht hp
  | ended _ he => exact ends_status he
  | writeFailed | readFailed => exact ⟨rfl, rfl⟩
  | wrote _ _ he => rcases emits_succession he with h | h <;> simp [h] at ht
  | received _ _ hr => rcases receives_succession hr with h | h | h <;> simp [h] at ht
  | waited hw => rcases waits_succession hw with h | h | h <;> simp [h] at ht

theorem move_leads (hp : s.dev.phase ≠ .idle) (h : Move s.dev.curop s t) : s.dev.Leads t.dev := by
  obtain ⟨-, hopb, hop, hlen⟩ := move_dev_frame h
  refine ⟨fun hr => ?_, fun hi => absurd hi hp, fun _ => move_ended hp h⟩
  simpa [Dev.operandsReady, Dev.operands, hopb, hop, hlen] using hr

theorem blockTurn_leads (h : blockTurn s = .next t) : s.dev.Leads t.dev := by
  by_cases hp : s.dev.phase = .idle
  · rw [blockTurn_of_idle hp] at h
    cases h
    exact .refl _
  · exact move_leads hp (blockTurn_move hp h)

/-! ## How far a turn brings its handle -/

/-- The most turns that an operation has left from a phase on (44_session R181). -/
def Phase.turnsLeft : Phase → Nat
  | .idle => 0
  | .wr1 => 7
  | .dly1 => 6
  | .rd1 => 5
  | .wr2 => 4
  | .dly2 => 3
  | .rd2 => 2
  | .eval => 1

/-- The most transport calls that an operation has left from a phase on (44_session R181). -/
def Phase.callsLeft : Phase → Nat
  | .idle => 0
  | .wr1 => 4
  | .dly1 => 3
  | .rd1 => 3
  | .wr2 => 2
  | .dly2 => 1
  | .rd2 => 1
  | .eval => 0

theorem Phase.turnsLeft_le (p : Phase) : p.turnsLeft ≤ 7 := by cases p <;> decide

theorem Phase.callsLeft_le (p : Phase) : p.callsLeft ≤ 4 := by cases p <;> decide

theorem Phase.turnsLeft_eq_zero (p : Phase) : p.turnsLeft = 0 ↔ p = .idle := by cases p <;> decide

/-- A BLOCK step brings its handle nearer to IDLE, or the handle is stalled. -/
theorem move_turnsLeft (h : Move s.dev.curop s t) :
    t.dev.phase.turnsLeft < s.dev.phase.turnsLeft ∨ (t.dev = s.dev ∧ s.stalled) := by
  refine (move_phase h).imp_left fun hne => ?_
  have hpos : 0 < s.dev.phase.turnsLeft ∨ t.dev.phase ≠ .idle := by
    rw [Nat.pos_iff_ne_zero, Ne, Phase.turnsLeft_eq_zero, ← not_and_or]
    exact fun h => hne (h.2.trans h.1.symm)
  cases h with
  | hang | noOperand => exact absurd rfl hne
  | writeFailed | readFailed => simpa [Phase.turnsLeft] using hpos
  | ended hp he => simp [hp, ends_phase he, Phase.turnsLeft]
  | wrote _ _ he => rcases emits_succession he with h | h <;> simp [h, Phase.turnsLeft]
  | received _ _ hr => rcases receives_succession hr with h | h | h <;> simp [h, Phase.turnsLeft]
  | waited hw => rcases waits_succession hw with h | h | h <;> simp [h, Phase.turnsLeft]

/-- A BLOCK step uses up an answer only with a call, and then one call fewer is left. -/
theorem move_callsLeft (h : Move s.dev.curop s t) :
    t.dev.phase.callsLeft + s.answers.length ≤ s.dev.phase.callsLeft + t.answers.length := by
  cases h with
  | hang | noOperand => exact le_rfl
  | ended hp he => simp [hp, ends_phase he, Phase.callsLeft]
  | waited hw => rcases waits_succession hw with h | h | h <;> simp [h, Phase.callsLeft]
  | wrote _ _ he | writeFailed _ he =>
    rcases emits_succession he with h | h <;> simp [h, Phase.callsLeft] <;> omega
  | received _ _ hr | readFailed _ hr =>
    rcases receives_succession hr with h | h | h <;> simp [h, Phase.callsLeft] <;> omega

/-- The answers after a BLOCK step are answers that were listed before it. -/
theorem move_answers_subset {op : Nibble} (h : Move op s t) : t.answers ⊆ s.answers := by
  cases h with
  | hang | noOperand | ended | waited => exact List.Subset.refl _
  | wrote | writeFailed | received | readFailed => simpa using List.tail_subset s.answers

/-- While the transport does not answer, a BLOCK step uses up nothing (60_exceptions R216). -/
theorem move_noAnswer {op : Nibble} (h : Move op s t) (hn : s.nextAnswer = .noAnswer) :
    t.nextAnswer = .noAnswer := by
  cases h with
  | hang | noOperand | ended | waited => exact hn
  | wrote _ ha | writeFailed ha | received _ ha | readFailed ha => rw [hn] at ha; cases ha

/-- A call that is not answered leaves the whole machine as it is (60_exceptions R216). -/
theorem move_of_hung {op : Nibble} (h : Move op s t) (hc : s.dev.phase ∈ [Phase.wr1, .rd1, .wr2, .rd2])
    (hn : s.nextAnswer = .noAnswer) : t = s := by
  cases h with
  | hang => rfl
  | wrote _ ha | writeFailed ha | received _ ha | readFailed ha => rw [hn] at ha; cases ha
  | waited hw => rcases waits_succession hw with h | h | h <;> simp [h] at hc
  | noOperand he | ended he => simp [he] at hc

/-- What a turn leaves of the machine. -/
theorem blockTurn_frame (h : blockTurn s = .next t) :
    t.others = s.others ∧ t.inbox = s.inbox ∧ t.rotor = s.rotor := by
  by_cases hp : s.dev.phase = .idle
  · rw [blockTurn_of_idle hp] at h
    cases h
    exact ⟨rfl, rfl, rfl⟩
  · obtain ⟨hothers, hinbox, -, -, -, hrotor⟩ := move_frame (blockTurn_move hp h)
    exact ⟨hothers, hinbox, hrotor⟩

/-- What is left after a turn: no more turns, and fewer where the handle is not stalled; fewer calls by as many
as answers were used up; no answer that was not listed. -/
structure SpendsTurn (s t : State) : Prop where
  turns : t.dev.phase.turnsLeft ≤ s.dev.phase.turnsLeft
  moves : ¬ s.stalled → t.dev.phase.turnsLeft < s.dev.phase.turnsLeft
  calls : t.dev.phase.callsLeft + s.answers.length ≤ s.dev.phase.callsLeft + t.answers.length
  answers : t.answers ⊆ s.answers
  noAnswer : s.nextAnswer = .noAnswer → t.nextAnswer = .noAnswer

theorem blockTurn_spends (h : blockTurn s = .next t) : SpendsTurn s t := by
  by_cases hp : s.dev.phase = .idle
  · rw [blockTurn_of_idle hp] at h
    cases h
    exact ⟨le_rfl, fun hs => absurd (.inl hp) hs, le_rfl, List.Subset.refl _, id⟩
  · have hm := blockTurn_move hp h
    refine ⟨?_, fun hs => ?_, move_callsLeft hm, move_answers_subset hm, move_noAnswer hm⟩
    · rcases move_turnsLeft hm with hlt | ⟨hd, -⟩
      · exact hlt.le
      · rw [hd]
    · exact (move_turnsLeft hm).resolve_right fun h => hs h.2

/-! ## The turn of one handle among all -/

/-- The handles of the transport as a list, the addressed one first. -/
def State.handles (s : State) : List Dev := s.dev :: s.others

theorem State.handle_eq (s : State) (k : Nat) : s.handle k = s.handles[k]? := by
  cases k <;> rfl

/-- The `i`-th handle takes its turn: what it takes it from, and what the turn makes of it, whichever the
others are. -/
inductive HandleTurn (i : Nat) (s : State) : State → Prop
  | mk {c d : Dev} {before after : List Dev} {rotor : Nat} {u : State} : s.handles[i]? = some d →
      blockTurn { s with dev := d, others := before, rotor := rotor } = .next u →
      c :: after = s.handles.set i u.dev → HandleTurn i s { u with dev := c, others := after }

theorem blockTurn_handleTurn {rotor : Nat} (h : blockTurn { s with rotor := rotor } = .next t) :
    HandleTurn 0 s t :=
  .mk (after := t.others) rfl h (by rw [(blockTurn_frame h).1]; rfl)

theorem otherTurn_handleTurn {rotor : Nat} (hk : k < s.others.length)
    (h : otherTurn k { s with rotor := rotor } = .next t) : HandleTurn (k + 1) s t := by
  unfold otherTurn at h
  split at h
  · next hn => exact absurd hk (by simpa using hn)
  · next d hd =>
    split at h <;> cases h
    next u hu => exact .mk hd hu rfl

theorem otherTurn_frame (h : otherTurn k s = .next t) : t.dev = s.dev ∧ t.rotor = s.rotor := by
  unfold otherTurn at h
  split at h
  · cases h; exact ⟨rfl, rfl⟩
  · split at h <;> cases h
    next u hu => exact ⟨rfl, (blockTurn_frame hu).2.2⟩

/-- A step in turn is the turn of the handle that the count shows (log 19). -/
theorem roundRobin_handleTurn (h : roundRobin s = .next t) :
    HandleTurn (s.rotor % (s.others.length + 1)) s t ∧ t.rotor = s.rotor + 1 := by
  have hlt : s.rotor % (s.others.length + 1) < s.others.length + 1 := Nat.mod_lt _ (Nat.succ_pos _)
  cases hr : s.rotor % (s.others.length + 1) with
  | zero =>
    rw [roundRobin_of_zero hr] at h
    exact ⟨blockTurn_handleTurn h, (blockTurn_frame h).2.2⟩
  | succ k =>
    rw [roundRobin_of_succ hr] at h
    rw [hr] at hlt
    exact ⟨otherTurn_handleTurn (Nat.lt_of_succ_lt_succ hlt) h, (otherTurn_frame h).2⟩

/-- A stalled handle stays as it is in a step in turn. -/
theorem roundRobin_dev (hs : s.stalled) (h : roundRobin s = .next t) : t.dev = s.dev := by
  cases hr : s.rotor % (s.others.length + 1) with
  | zero =>
    rw [roundRobin_of_zero hr] at h
    exact blockTurn_of_stalled (s := { s with rotor := s.rotor + 1 }) hs h
  | succ k =>
    rw [roundRobin_of_succ hr] at h
    exact (otherTurn_frame h).1

/-- A step left to BLOCK is the turn of the addressed handle, or, while that one is stalled and another is not
in IDLE, the step in turn (log 19). -/
theorem step_leftToBlock_cases (hl : s.leftToBlock) (h : step s = .next t) :
    ((¬ s.stalled ∨ s.othersIdle) ∧ blockTurn s = .next t) ∨
      (s.stalled ∧ ¬ s.othersIdle ∧ roundRobin s = .next t) := by
  rw [step_leftToBlock hl] at h
  by_cases hf : ¬ s.stalled ∨ s.othersIdle
  · exact .inl ⟨hf, by rwa [← fairTurn_of_free hf]⟩
  · obtain ⟨hs, ho⟩ := not_or.mp hf
    obtain ⟨u, hu⟩ := fairTurn_next_blockTurn h
    exact .inr ⟨not_not.mp hs, ho, by rwa [← fairTurn_of_stalled (not_not.mp hs) ho hu]⟩

/-- A step left to BLOCK is some handle's turn. -/
theorem step_handleTurn (hl : s.leftToBlock) (h : step s = .next t) : ∃ i, HandleTurn i s t := by
  rcases step_leftToBlock_cases hl h with ⟨-, hb⟩ | ⟨-, -, hr⟩
  · exact ⟨0, blockTurn_handleTurn (rotor := s.rotor) hb⟩
  · exact ⟨_, (roundRobin_handleTurn hr).1⟩

/-! ## What a turn makes of all the handles -/

theorem HandleTurn.inbox (h : HandleTurn i s t) : t.inbox = s.inbox := by
  cases h with
  | mk _ hu _ => exact (blockTurn_frame hu).2.1

/-- The handles that do not have the turn stay as they are. -/
theorem HandleTurn.other (h : HandleTurn i s t) (hij : i ≠ j) : t.handles[j]? = s.handles[j]? := by
  cases h with
  | mk _ _ hset => exact (congrArg (·[j]?) hset).trans (List.getElem?_set_ne hij)

/-- The handle that has the turn comes nearer to IDLE unless it is stalled. -/
theorem HandleTurn.own (h : HandleTurn i s t) (hd : s.handles[i]? = some d) :
    ∃ e, t.handles[i]? = some e ∧ d.Leads e ∧
      (¬ { s with dev := d }.stalled → e.phase.turnsLeft < d.phase.turnsLeft) := by
  cases h with
  | @mk _ d' _ _ _ u hd' hu hset =>
    obtain rfl : d' = d := Option.some.inj (hd'.symm.trans hd)
    have hi : i < s.handles.length := (List.getElem?_eq_some_iff.mp hd).1
    exact ⟨u.dev, (congrArg (·[i]?) hset).trans (List.getElem?_set_self hi), blockTurn_leads hu,
      (blockTurn_spends hu).moves⟩

/-- What steps left to BLOCK make of the handles, each in its place. -/
structure State.Leads (s t : State) : Prop where
  length : t.others.length = s.others.length
  handle : ∀ {j : Nat} {d : Dev}, s.handles[j]? = some d → ∃ e, t.handles[j]? = some e ∧ d.Leads e

theorem State.Leads.refl (s : State) : s.Leads s :=
  ⟨rfl, fun hd => ⟨_, hd, .refl _⟩⟩

theorem State.Leads.trans (h : s.Leads t) (h' : t.Leads u) : s.Leads u := by
  refine ⟨h'.length.trans h.length, fun hd => ?_⟩
  obtain ⟨e, he, hde⟩ := h.handle hd
  obtain ⟨c, hc, hec⟩ := h'.handle he
  exact ⟨c, hc, hde.trans hec⟩

theorem HandleTurn.leads (h : HandleTurn i s t) : s.Leads t := by
  refine ⟨?_, fun {j d} hd => ?_⟩
  · cases h with
    | mk _ _ hset => simpa [State.handles] using congrArg List.length hset
  · by_cases hij : i = j
    · subst hij
      obtain ⟨e, he, hde, -⟩ := h.own hd
      exact ⟨e, he, hde⟩
    · exact ⟨d, (h.other hij).trans hd, .refl d⟩

/-- A measure of the phases, added up over the handles. -/
def State.total (f : Phase → Nat) (s : State) : Nat := (s.handles.map fun d => f d.phase).sum

theorem State.le_total (f : Phase → Nat) (hd : s.handles[i]? = some d) : f d.phase ≤ s.total f :=
  List.le_sum_of_mem (List.mem_map.mpr ⟨d, List.mem_of_getElem? hd, rfl⟩)

theorem State.total_le (f : Phase → Nat) {m : Nat} (hf : ∀ p, f p ≤ m) (s : State) :
    s.total f ≤ (s.others.length + 1) * m := by
  have h := List.sum_le_card_nsmul (s.handles.map fun d => f d.phase) m
    (by simpa using fun (d : Dev) _ => hf d.phase)
  simpa [handles, total] using h

/-- Exchanging a handle for another exchanges what it adds to the total. -/
theorem State.total_set (f : Phase → Nat) (hd : s.handles[i]? = some d)
    (hset : t.handles = s.handles.set i e) : t.total f + f d.phase = s.total f + f e.phase := by
  have h := ((List.getD_set_perm_cons s.handles i e).map fun d => f d.phase).sum_eq
  rw [hd, Option.getD_some, ← hset] at h
  simp only [List.map_cons, List.sum_cons] at h
  simp only [total]
  omega

/-- What is left for all the handles after a turn of one of them. -/
theorem HandleTurn.total_turnsLeft (h : HandleTurn i s t) :
    t.total Phase.turnsLeft ≤ s.total Phase.turnsLeft ∧
      ∀ d, s.handles[i]? = some d → ¬ { s with dev := d }.stalled →
        t.total Phase.turnsLeft < s.total Phase.turnsLeft := by
  cases h with
  | @mk c _ _ after _ u hd hu hset =>
    have htotal := State.total_set Phase.turnsLeft hd (t := { u with dev := c, others := after }) hset
    refine ⟨?_, fun d' hd' hs => ?_⟩
    · have hle : u.dev.phase.turnsLeft ≤ _ := (blockTurn_spends hu).turns
      exact Nat.le_of_add_le_add_right (htotal.trans_le (Nat.add_le_add_left hle _))
    · obtain rfl := Option.some.inj (hd.symm.trans hd')
      have hlt : u.dev.phase.turnsLeft < _ := (blockTurn_spends hu).moves hs
      exact Nat.lt_of_add_lt_add_right (htotal.trans_lt (Nat.add_lt_add_left hlt _))

theorem HandleTurn.total_callsLeft (h : HandleTurn i s t) :
    t.total Phase.callsLeft + s.answers.length ≤ s.total Phase.callsLeft + t.answers.length := by
  cases h with
  | @mk c d _ after _ u hd hu hset =>
    have htotal := State.total_set Phase.callsLeft hd (t := { u with dev := c, others := after }) hset
    have hcalls : u.dev.phase.callsLeft + s.answers.length ≤ d.phase.callsLeft + u.answers.length :=
      (blockTurn_spends hu).calls
    change _ ≤ _ + u.answers.length
    omega

theorem HandleTurn.answers_subset (h : HandleTurn i s t) : t.answers ⊆ s.answers := by
  cases h with
  | mk _ hu _ => exact (blockTurn_spends hu).answers

theorem HandleTurn.noAnswer (h : HandleTurn i s t) (hn : s.nextAnswer = .noAnswer) :
    t.nextAnswer = .noAnswer := by
  cases h with
  | mk _ hu _ => exact (blockTurn_spends hu).noAnswer hn

end Sys2Proof.Machine
end

section
/-! PROOFS. A handle that waits for ever, and the turns of the others meanwhile (60_exceptions R216, 70_reset
R252; log 19). -/

namespace Sys2Proof.Machine

variable {s t u : State} {d : Dev} {i j k : Nat}

/-! ## While the addressed handle is stalled -/

/-- A sound state that leaves its step to BLOCK while its addressed handle is stalled. -/
structure State.Waiting (s : State) : Prop where
  sound : s.Sound
  left : s.leftToBlock
  stalled : s.stalled

/-- What stalls a handle stays as it is in the turns of the others (60_exceptions R216, R222). -/
theorem HandleTurn.stalled (h : HandleTurn i s t) (hd : t.dev = s.dev) (hs : s.stalled) : t.stalled := by
  rw [State.stalled, hd]
  exact hs.imp_right (.imp_left fun ⟨hc, hn⟩ => ⟨hc, h.noAnswer hn⟩)

/-- A handle stalled in a call phase waits for an answer (60_exceptions R216). -/
theorem nextAnswer_of_stalled (hs : s.stalled) (hc : s.dev.phase ∈ [Phase.wr1, .rd1, .wr2, .rd2]) :
    s.nextAnswer = .noAnswer := by
  rcases hs with hi | ⟨-, hn⟩ | ⟨he, -⟩
  · simp [hi] at hc
  · exact hn
  · simp [he] at hc

theorem State.Waiting.of_handleTurn (hw : s.Waiting) (h : step s = .next t) (ht : HandleTurn i s t)
    (hd : t.dev = s.dev) : t.Waiting :=
  ⟨soundnessKept s t hw.sound h, by rw [leftToBlock, hd, ht.inbox]; exact hw.left, ht.stalled hd hw.stalled⟩

/-- A step while the addressed handle is stalled leaves it as it is; unless the others are all in IDLE, the turn
is that of the next handle in turn. -/
theorem State.Waiting.step (hw : s.Waiting) : ∃ t, step s = .next t ∧ t.Waiting ∧ t.dev = s.dev ∧ s.Leads t ∧
    (¬ s.othersIdle → HandleTurn (s.rotor % (s.others.length + 1)) s t ∧ t.rotor = s.rotor + 1) := by
  obtain ⟨t, ht⟩ := fairTurn_next hw.sound
  rw [← step_leftToBlock hw.left] at ht
  rcases step_leftToBlock_cases hw.left ht with ⟨hf, hb⟩ | ⟨-, -, hr⟩
  · have hturn : HandleTurn 0 s t := blockTurn_handleTurn (rotor := s.rotor) hb
    have hd := blockTurn_of_stalled hw.stalled hb
    exact ⟨t, ht, hw.of_handleTurn ht hturn hd, hd, hturn.leads,
      fun ho => absurd hw.stalled (hf.resolve_right ho)⟩
  · obtain ⟨hturn, hrotor⟩ := roundRobin_handleTurn hr
    have hd := roundRobin_dev hw.stalled hr
    exact ⟨t, ht, hw.of_handleTurn ht hturn hd, hd, hturn.leads, fun _ => ⟨hturn, hrotor⟩⟩

theorem State.Waiting.runs (hw : s.Waiting) (k : Nat) :
    ∃ t, runs k s = .next t ∧ t.Waiting ∧ t.dev = s.dev ∧ s.Leads t := by
  induction k generalizing s with
  | zero => exact ⟨s, rfl, hw, rfl, .refl s⟩
  | succ k ih =>
    obtain ⟨u, hu, hwu, hdu, hlu, -⟩ := hw.step
    obtain ⟨t, ht, hwt, hdt, hlt⟩ := ih hwu
    exact ⟨t, by rw [runs_succ_of_step hu, ht], hwt, hdt.trans hdu, hlu.trans hlt⟩

/-- A run is a run of its first steps and of the others. -/
theorem runs_add {m : Nat} (h : Machine.runs k s = .next t) : Machine.runs (k + m) s = Machine.runs m t := by
  induction k generalizing s with
  | zero => cases h; rw [Nat.zero_add]
  | succ k ih =>
    obtain ⟨u, hu, ht⟩ := runs_succ_next h
    rw [Nat.add_right_comm, runs_succ_of_step hu, ih ht]

/-- From every count, some number of steps fewer than there are handles leads to the count of a given one. -/
theorem exists_turn (r : Nat) {m : Nat} (hi : i < m) : ∃ n, n < m ∧ (r + n) % m = i := by
  have hr : r % m < m := Nat.mod_lt r (by omega)
  refine ⟨(i + (m - r % m)) % m, Nat.mod_lt _ (by omega), ?_⟩
  have hsum : r + (i + (m - r % m)) = m * (r / m + 1) + i := by
    have := Nat.div_add_mod r m
    rw [Nat.mul_add, Nat.mul_one]
    omega
  rw [Nat.add_mod_mod, hsum, Nat.mul_add_mod, Nat.mod_eq_of_lt hi]

/-- The turn of another handle in progress comes, and up to then it stays as it is (70_reset R252). -/
theorem State.Waiting.turn_comes {s : State} {n : Nat} (hw : s.Waiting) (hd : s.others[j]? = some d)
    (hp : d.phase ≠ .idle) (hn : (s.rotor + n) % (s.others.length + 1) = j + 1) :
    ∃ k u t, k ≤ n ∧ Machine.runs k s = .next u ∧ Machine.step u = .next t ∧ t.Waiting ∧
      u.handles[j + 1]? = some d ∧ HandleTurn (j + 1) u t := by
  obtain ⟨t, ht, hwt, -, hl, hturn⟩ := hw.step
  obtain ⟨hturn, hrotor⟩ := hturn fun ho => hp (ho d (List.mem_of_getElem? hd))
  by_cases hr : s.rotor % (s.others.length + 1) = j + 1
  · exact ⟨0, s, t, Nat.zero_le _, rfl, ht, hwt, hd, hr ▸ hturn⟩
  · cases n with
    | zero => exact absurd hn hr
    | succ n =>
      have hdt : t.others[j]? = some d := (hturn.other hr).trans hd
      have hnt : (t.rotor + n) % (t.others.length + 1) = j + 1 := by
        rw [hrotor, hl.length, Nat.add_assoc, Nat.add_comm 1 n, hn]
      obtain ⟨k, u, v, hk, hu, h⟩ := turn_comes hwt hdt hp hnt
      exact ⟨k + 1, u, v, Nat.succ_le_succ hk, by rw [runs_succ_of_step ht, hu], h⟩
termination_by n

/-! ## A call that never answers -/

/-- Beside handles in IDLE, a call that is not answered keeps the whole machine (60_exceptions R216). -/
theorem step_of_hung (hl : s.leftToBlock) (hc : s.dev.phase ∈ [Phase.wr1, .rd1, .wr2, .rd2])
    (hn : s.nextAnswer = .noAnswer) (hlegal : s.dev.phaseLegal) (ho : s.othersIdle) : step s = .next s := by
  have hp : s.dev.phase ≠ .idle := fun hi => by simp [hi] at hc
  obtain ⟨t, ht⟩ := blockTurn_next_of_stalled (.inr (.inl ⟨hc, hn⟩)) hlegal
  obtain rfl := move_of_hung (blockTurn_move hp ht) hc hn
  rw [step_leftToBlock hl, fairTurn_of_free (.inr ho), ht]

theorem runs_of_step_self (h : step s = .next s) (k : Nat) : runs k s = .next s := by
  induction k with
  | zero => rfl
  | succ k ih => rw [runs_succ_of_step h, ih]

/-- While the addressed handle is stalled, a round of the handles ends every other one that is in EVAL with its
operands written (70_reset R252). -/
theorem State.Waiting.round_ends (hw : s.Waiting) (hrun : Machine.runs (s.others.length + 1) s = .next t)
    (hd : s.others[j]? = some d) (he : d.phase = .eval) (hr : d.operandsReady) :
    ∃ e, t.others[j]? = some e ∧ e.phase = .idle ∧ e.done = true ∧ e.busy = false := by
  have hj : j < s.others.length := (List.getElem?_eq_some_iff.mp hd).1
  have hp : d.phase ≠ .idle := by simp [he]
  obtain ⟨n, hn, hrotor⟩ := exists_turn s.rotor (Nat.succ_lt_succ hj)
  obtain ⟨k, u, v, hk, hu, hv, hwv, hdu, hturn⟩ := hw.turn_comes hd hp hrotor
  obtain ⟨e, hev, hlead, hmoves⟩ := hturn.own hdu
  have hidle : e.phase = .idle := by
    have hlt := hmoves (not_stalled_of_eval he hr)
    rw [he] at hlt
    exact (Phase.turnsLeft_eq_zero _).mp (Nat.lt_one_iff.mp hlt)
  obtain ⟨m, hm⟩ : ∃ m, s.others.length + 1 = k + (m + 1) := ⟨s.others.length - k, by omega⟩
  obtain ⟨t', ht', -, -, hl⟩ := hwv.runs m
  rw [hm, runs_add hu, runs_succ_of_step hv, ht'] at hrun
  cases hrun
  obtain ⟨e', he', hlead'⟩ := hl.handle hev
  obtain rfl := hlead'.idle hidle
  exact ⟨e', he', hidle, hlead.ended hp hidle⟩

/-- Settles O35: what stalls the addressed handle stays, so that its steps lead nowhere (`State.Waiting.runs`),
and the others have their turns (`State.Waiting.round_ends`). -/
theorem unansweredCallHangs : Obligations.UnansweredCallHangs := by
  intro s hl hc hn
  have hstall : s.stalled := .inr (.inl ⟨hc, hn⟩)
  refine ⟨fun hlegal ho => runs_of_step_self (step_of_hung hl hc hn hlegal ho), fun hs => ?_⟩
  have hw : s.Waiting := ⟨hs, hl, hstall⟩
  refine ⟨fun k => ?_, ?_⟩
  · obtain ⟨t, ht, hwt, hd, -⟩ := hw.runs k
    exact ⟨t, ht, hd, nextAnswer_of_stalled hwt.stalled (hd ▸ hc)⟩
  · obtain ⟨t, ht, -, hd, -⟩ := hw.runs (s.others.length + 1)
    exact ⟨_, t, le_rfl, ht, hd, fun j d hj he hr => hw.round_ends ht hj he hr⟩

end Sys2Proof.Machine
end

section
/-! PROOFS. Operations end if their calls are answered: on the addressed handle, and on every handle of the
transport (70_reset R252; log 19). -/

namespace Sys2Proof.Machine

variable {s t u : State} {d : Dev} {i k : Nat}

/-! ## Answers for the calls to come -/

/-- A sound state with nothing in the inbox, and with answers listed for this many calls (70_reset R252). -/
structure State.Supplied (s : State) (calls : Nat) : Prop where
  sound : s.Sound
  inbox : s.inbox = []
  calls : calls ≤ s.answers.length
  given : .noAnswer ∉ s.answers

theorem State.Supplied.left {calls : Nat} (h : s.Supplied calls) : s.leftToBlock :=
  .inl h.inbox

/-- In a phase with a transport call at least one call is left. -/
theorem Phase.callsLeft_pos {p : Phase} (h : p ∈ [Phase.wr1, .rd1, .wr2, .rd2]) : 0 < p.callsLeft := by
  revert h
  cases p <;> decide

/-- A handle in progress is not stalled where its operands are written and its calls have answers. -/
theorem State.Supplied.not_stalled {calls : Nat} (h : s.Supplied calls) (hd : d.phase.callsLeft ≤ calls)
    (hp : d.phase ≠ .idle) (hr : d.operandsReady) : ¬ { s with dev := d }.stalled := by
  rintro (hi | ⟨hc, hn⟩ | ⟨-, hnr⟩)
  · exact hp hi
  · have hlen : 0 < s.answers.length := (Phase.callsLeft_pos hc).trans_le (hd.trans h.calls)
    obtain ⟨a, rest, ha⟩ := List.exists_cons_of_ne_nil (List.ne_nil_of_length_pos hlen)
    have hnext : s.nextAnswer = a := (s.answers_cons ha).1
    obtain rfl : a = .noAnswer := hnext.symm.trans hn
    exact h.given (by simp [ha])
  · exact hnr hr

/-- A step that uses up answers only for calls leaves enough for the calls that are left. -/
theorem State.Supplied.of_step {calls calls' : Nat} (h : s.Supplied calls) (hs : step s = .next t)
    (hi : t.inbox = s.inbox) (hc : calls' + s.answers.length ≤ calls + t.answers.length)
    (ha : t.answers ⊆ s.answers) : t.Supplied calls' :=
  ⟨soundnessKept s t h.sound hs, hi.trans h.inbox, by have := h.calls; omega, fun hn => h.given (ha hn)⟩

/-! ## The addressed handle -/

/-- The operation in progress on the addressed handle ends within the turns that it has left. -/
theorem State.Supplied.finishes (h : s.Supplied s.dev.phase.callsLeft) (hr : s.dev.operandsReady) {n : Nat}
    (hn : s.dev.phase.turnsLeft ≤ n) :
    ∃ k t, k ≤ n ∧ runs k s = .next t ∧ t.dev.phase = .idle ∧ s.dev.Leads t.dev := by
  induction n generalizing s with
  | zero => exact ⟨0, s, le_rfl, rfl, (Phase.turnsLeft_eq_zero _).mp (Nat.le_zero.mp hn), .refl _⟩
  | succ n ih =>
    by_cases hp : s.dev.phase = .idle
    · exact ⟨0, s, Nat.zero_le _, rfl, hp, .refl _⟩
    · have hfree : ¬ s.stalled := h.not_stalled le_rfl hp hr
      obtain ⟨t, hb⟩ := blockTurn_next_of_sound h.sound.1
      have hstep : step s = .next t := by rw [step_leftToBlock h.left, fairTurn_of_free (.inl hfree), hb]
      have hspends := blockTurn_spends hb
      have hlead := blockTurn_leads hb
      have ht := h.of_step hstep (blockTurn_frame hb).2.1 hspends.calls hspends.answers
      obtain ⟨k, u, hk, hu, hidle, hlead'⟩ :=
        ih ht (hlead.ready hr) (Nat.le_of_lt_succ ((hspends.moves hfree).trans_le hn))
      exact ⟨k + 1, u, Nat.succ_le_succ hk, by rw [runs_succ_of_step hstep, hu], hidle, hlead.trans hlead'⟩

/-! ## Every handle -/

/-- Answers are listed for the calls that all the handles have left. -/
def State.AllSupplied (s : State) : Prop := s.Supplied (s.total Phase.callsLeft)

/-- A run keeps answers for the calls left, and no handle goes back. -/
theorem State.AllSupplied.of_runs (h : s.AllSupplied) (hr : runs k s = .next t) :
    t.AllSupplied ∧ s.Leads t ∧ t.total Phase.turnsLeft ≤ s.total Phase.turnsLeft := by
  induction k generalizing s with
  | zero => cases hr; exact ⟨h, .refl _, le_rfl⟩
  | succ k ih =>
    obtain ⟨u, hu, ht⟩ := runs_succ_next hr
    obtain ⟨i, hturn⟩ := step_handleTurn h.left hu
    have hsupplied : u.AllSupplied := h.of_step hu hturn.inbox hturn.total_callsLeft hturn.answers_subset
    obtain ⟨hall, hleads, hle⟩ := ih hsupplied ht
    exact ⟨hall, hturn.leads.trans hleads, hle.trans hturn.total_turnsLeft.1⟩

theorem State.AllSupplied.not_stalled (h : s.AllSupplied) (hd : s.handles[i]? = some d) (hp : d.phase ≠ .idle)
    (hr : d.operandsReady) : ¬ { s with dev := d }.stalled :=
  Supplied.not_stalled h (s.le_total Phase.callsLeft hd) hp hr

/-- While some handle is in progress with its operands written, fewer turns are left within as many steps as
there are handles: the addressed handle moves on, or else the turn of that one comes (log 19). -/
theorem State.AllSupplied.progress (h : s.AllSupplied) (hd : s.handles[i]? = some d) (hp : d.phase ≠ .idle)
    (hr : d.operandsReady) : ∃ k t, k ≤ s.others.length + 1 ∧ runs k s = .next t ∧
      t.total Phase.turnsLeft < s.total Phase.turnsLeft := by
  by_cases hs : s.stalled
  · cases i with
    | zero =>
      obtain rfl : s.dev = d := Option.some.inj hd
      exact absurd hs (h.not_stalled (i := 0) rfl hp hr)
    | succ j =>
      have hj : j < s.others.length := (List.getElem?_eq_some_iff.mp (show s.others[j]? = some d from hd)).1
      obtain ⟨n, hn, hrotor⟩ := exists_turn s.rotor (Nat.succ_lt_succ hj)
      have hw : s.Waiting := ⟨h.sound, h.left, hs⟩
      obtain ⟨k, u, t, hk, hu, ht, -, hdu, hturn⟩ := hw.turn_comes hd hp hrotor
      obtain ⟨hsu, -, hle⟩ := h.of_runs hu
      exact ⟨k + 1, t, by omega, by rw [runs_add hu, runs_one, ht],
        (hturn.total_turnsLeft.2 d hdu (hsu.not_stalled hdu hp hr)).trans_le hle⟩
  · obtain ⟨t, hb⟩ := blockTurn_next_of_sound h.sound.1
    have hstep : step s = .next t := by rw [step_leftToBlock h.left, fairTurn_of_free (.inl hs), hb]
    exact ⟨1, t, by omega, by rw [runs_one, hstep],
      (blockTurn_handleTurn (rotor := s.rotor) hb).total_turnsLeft.2 s.dev rfl hs⟩

/-- Every handle whose operands are written comes to IDLE, within a round of the handles for each turn that is
left. -/
theorem State.AllSupplied.finish (h : s.AllSupplied) {n : Nat} (hn : s.total Phase.turnsLeft ≤ n) :
    ∃ k t, k ≤ (s.others.length + 1) * n ∧ runs k s = .next t ∧
      ∀ e ∈ t.handles, e.operandsReady → e.phase = .idle := by
  induction n generalizing s with
  | zero =>
    refine ⟨0, s, le_rfl, rfl, fun e he _ => ?_⟩
    obtain ⟨i, hi⟩ := List.mem_iff_getElem?.mp he
    exact (Phase.turnsLeft_eq_zero _).mp (Nat.le_zero.mp ((s.le_total Phase.turnsLeft hi).trans hn))
  | succ n ih =>
    by_cases hdone : ∀ e ∈ s.handles, e.operandsReady → e.phase = .idle
    · exact ⟨0, s, Nat.zero_le _, rfl, hdone⟩
    · push Not at hdone
      obtain ⟨d, hmem, hr, hp⟩ := hdone
      obtain ⟨i, hd⟩ := List.mem_iff_getElem?.mp hmem
      obtain ⟨k, u, hk, hu, hlt⟩ := h.progress hd hp hr
      obtain ⟨hsu, hl, -⟩ := h.of_runs hu
      obtain ⟨m, t, hm, ht, hall⟩ := ih hsu (Nat.le_of_lt_succ (hlt.trans_le hn))
      rw [hl.length] at hm
      exact ⟨k + m, t, by rw [Nat.mul_succ]; omega, by rw [runs_add hu, ht], hall⟩

/-- Settles O36: the addressed handle by the turns that it has left (`State.Supplied.finishes`), and all the
handles by the turns that they have left together (`State.AllSupplied.finish`). -/
theorem operationsFinish : Obligations.OperationsFinish := by
  refine ⟨fun s hs hi hp hr hlen hgiven => ?_, fun s hs hi hlen hgiven => ?_⟩
  · have h : s.Supplied s.dev.phase.callsLeft :=
      ⟨hs, hi, (Phase.callsLeft_le _).trans hlen, hgiven⟩
    obtain ⟨k, t, hk, ht, hidle, hlead⟩ := h.finishes hr (Phase.turnsLeft_le _)
    exact ⟨k, t, hk, ht, hidle, hlead.ended hp hidle⟩
  · have hcalls := s.total_le Phase.callsLeft Phase.callsLeft_le
    have h : s.AllSupplied := ⟨hs, hi, by omega, hgiven⟩
    obtain ⟨k, t, hk, ht, hall⟩ := h.finish (s.total_le Phase.turnsLeft Phase.turnsLeft_le)
    obtain ⟨-, hleads, -⟩ := h.of_runs ht
    refine ⟨k, t, hk.trans_eq (by ring), ht, fun j d hd hr => ?_⟩
    rw [State.handle_eq] at hd ⊢
    obtain ⟨e, he, hlead⟩ := hleads.handle hd
    have hidle := hall e (List.mem_of_getElem? he) (hlead.ready hr)
    exact ⟨e, he, hidle, fun hp => hlead.ended hp hidle⟩

end Sys2Proof.Machine
end

section
/-! PROOFS. What does not go through, and what it leaves: host actions refused (60_exceptions R221), operations
that end with an error (R214, R217), the marks (R223), and the handles that a step does not address (R228). -/

namespace Sys2Proof.Machine

variable {s t : State} {d e : Dev} {op : Nibble}

/-! ## Refusals -/

/-- HW on an operand byte while BUSY = 1 (60_exceptions R221 item 2). -/
theorem execHw_operand_of_busy {off : Byte} (v : Byte) (hb : s.dev.busy = true) (hlo : 0x08 ≤ off.toNat)
    (hhi : off.toNat < 0x10) : execHw off v s = .next s.markRefused := by
  rw [execHw, if_neg (by omega), if_pos ⟨hlo, hhi⟩, writeOperand, if_pos hb]

theorem startOp_of_conflict {v : Byte} (hc : s.busConflict v = true) : startOp v s = .next s.markRefused := by
  simp [startOp, hc]

/-- Settles O13: a start is refused by BUSY or by a conflict on the transport, an operand byte by BUSY. -/
theorem hostWritesRefused : Obligations.HostWritesRefused := by
  refine ⟨fun v s hb => ?_, fun off v s hb hlo hhi => ?_, fun v s d ht hd hp => ?_⟩
  · exact (execHw_command v s).trans (startOp_of_busy hb)
  · exact execHw_operand_of_busy v hb hlo hhi
  · have hm : d.midTransfer = true := by
      rw [Dev.midTransfer_iff]
      constructor <;> (intro h; simp [h] at hp)
    have hc : s.busConflict v = true := (busConflict_eq_true s v).mpr ⟨ht, d, hd, hm⟩
    exact (execHw_command v s).trans (startOp_of_conflict hc)

/-! ## Errors -/

/-- `e` is the handle `d` ended by `finish`, with HIST only extended, and the checksum fields, which
CHECKSUM_ERROR alone writes, aside (60_exceptions R214, R217). -/
def Dev.FinishedPrecisely (d e : Dev) : Prop :=
  ∃ obs exp ev, e = { d with crcObs := obs, crcExp := exp, hist := d.hist ++ ev }.finish e.err ∧
    (e.err ≠ .checksumError → obs = d.crcObs ∧ exp = d.crcExp)

/-- `finish` after events recorded is precise. -/
theorem Dev.finish_precisely (d : Dev) (ev : List BusEvent) (err : ErrCode) :
    d.FinishedPrecisely ({ d with hist := d.hist ++ ev }.finish err) :=
  ⟨d.crcObs, d.crcExp, ev, rfl, fun _ => ⟨rfl, rfl⟩⟩

/-- EVAL ends an operation with an error only by `finish`; a checksum mismatch alone is recorded. -/
theorem ends_error (h : Ends op d e) (he : e.err ≠ .noError) : d.FinishedPrecisely e := by
  cases h with
  | packIllegal | illegal => simpa using d.finish_precisely [] _
  | mismatch hi lo rcv => exact ⟨rcv, crc8 hi lo, [], by simp, fun hn => absurd rfl hn⟩
  | crc8 | verify | pack | measured | sreset | cached | resolved => exact absurd rfl he

/-- A BLOCK step of a handle without an error brings one only by ending the operation. -/
theorem move_error (h : Move op s t) (hs : s.dev.err = .noError) (ht : t.dev.err ≠ .noError) :
    s.dev.FinishedPrecisely t.dev := by
  cases h with
  | ended _ he => exact ends_error he ht
  | writeFailed | readFailed =>
    rw [State.onDev_dev, State.popAnswer_dev]
    exact s.dev.finish_precisely [_] .transportError
  | hang | noOperand | waited => exact absurd hs ht
  | wrote => simp [hs] at ht
  | received _ _ hr => rcases receives_store hr with rfl | rfl <;> simp [hs] at ht

/-- A sound handle in progress has no error, and HOST brings none: BLOCK ends its operation with one. -/
theorem actsOn_error (h : ActsOn d e) (hd : d.Sound) (hp : d.phase ≠ .idle) (he : e.err ≠ .noError) :
    d.FinishedPrecisely e := by
  obtain ⟨-, herr, -⟩ := hd.status.busy_clears (hd.status.busy_iff.mpr hp)
  obtain ⟨s, t, ha, rfl, rfl⟩ := h
  cases ha with
  | block _ hm => exact move_error hm herr he
  | nothing => exact absurd herr he
  | read hr => rcases execHr_cases hr with ⟨b, -, rfl⟩ | ⟨-, rfl⟩ <;> exact absurd herr he
  | write hw =>
    rcases execHw_cases hw with ⟨-, hv⟩ | rfl | ⟨-, -, -, rfl⟩ | rfl
    · rcases startOp_cases hv with ⟨-, rfl⟩ | ⟨-, -, rfl⟩
      · exact absurd herr he
      · exact absurd rfl he
    all_goals exact absurd herr he

theorem State.Sound.handle {k : Nat} (h : s.Sound) (hd : s.handle k = some d) : d.Sound := by
  cases k with
  | zero => cases hd; exact h.1
  | succ k => exact h.2 d (List.mem_of_getElem? hd)

/-- Settles O44: such a step is an act of BLOCK or HOST on the handle (`step_handle`), and brings an error only
by `finish` (`actsOn_error`). -/
theorem errorsArePrecise : Obligations.ErrorsArePrecise := by
  intro s t k d e hsound hs h hd he hp herr
  obtain ⟨e', he', ha⟩ := step_handle hs h hd
  obtain rfl : e' = e := Option.some.inj (he'.symm.trans he)
  obtain ⟨obs, exp, ev, hfin, hcrc⟩ := actsOn_error ha (hsound.handle hd) hp herr
  rw [hfin]
  simpa [herr] using hcrc

/-! ## Marks -/

/-- Neither mark that is set in `s` is clear in `t` (60_exceptions R223). -/
def State.MarksKept (s t : State) : Prop :=
  (s.faulted = true → t.faulted = true) ∧ (s.refused = true → t.refused = true)

theorem move_marksKept (h : Move op s t) : s.MarksKept t := by
  obtain ⟨-, -, -, -, hrefused, -⟩ := move_frame h
  refine ⟨fun hf => ?_, hrefused.trans⟩
  cases h with
  | noOperand => rfl
  | hang | ended | waited => exact hf
  | wrote | writeFailed | received | readFailed => simpa using hf

/-- BLOCK and HOST keep the marks: a refusal and a model fault only set one. -/
theorem acts_marksKept (h : Acts s t) : s.MarksKept t := by
  cases h with
  | block _ hm => exact move_marksKept hm
  | nothing => exact ⟨id, id⟩
  | read hr =>
    rcases execHr_cases hr with ⟨b, -, rfl⟩ | ⟨-, rfl⟩
    · exact ⟨id, id⟩
    · exact ⟨fun _ => rfl, id⟩
  | write hw =>
    rcases execHw_cases hw with ⟨-, hv⟩ | rfl | ⟨-, -, -, rfl⟩ | rfl
    · rcases startOp_cases hv with ⟨-, rfl⟩ | ⟨-, -, rfl⟩
      · exact ⟨id, fun _ => rfl⟩
      · exact ⟨id, id⟩
    · exact ⟨id, fun _ => rfl⟩
    all_goals exact ⟨id, id⟩

theorem otherActs_marksKept {k : Nat} (h : OtherActs k s t) : s.MarksKept t := by
  cases h with
  | nothing => exact ⟨id, id⟩
  | block _ _ hu =>
    obtain ⟨hfaulted, hrefused⟩ := acts_marksKept (blockTurn_acts hu)
    exact ⟨hfaulted, hrefused⟩

/-- Settles O45: every act keeps the marks, and resetting, building or selecting a handle leaves them. -/
theorem marksAreNeverCleared : Obligations.MarksAreNeverCleared := by
  intro s t h
  obtain ⟨inbox, rotor, -, ha⟩ | ⟨-, -, k, ho⟩ | ⟨a, -, rfl⟩ | ⟨a, -, rfl⟩ | ⟨k, -, rfl⟩ := step_cases h
  · exact acts_marksKept (s := { s with inbox := inbox, rotor := rotor }) ha
  · exact otherActs_marksKept (s := { s with rotor := s.rotor + 1 }) ho
  all_goals simp

/-! ## The other handles -/

/-- A turn asked for is the addressed handle's BLOCK step (44_session R183). -/
theorem step_turn_eq_blockTurn (s : State) : step { s with inbox := .turn :: s.inbox } = blockTurn s := rfl

/-- Settles O46: an act on the addressed handle, or a block reset of it, leaves the others (`acts_others`);
another handle's BLOCK step is what a turn asked of that handle does (`step_turn_eq_blockTurn`). -/
theorem otherHandlesUntouched : Obligations.OtherHandlesUntouched := by
  intro s t hbuild hselect h
  obtain ⟨inbox, rotor, -, ha⟩ | ⟨hl, hs, k, ho⟩ | ⟨a, -, rfl⟩ | ⟨a, ha, -⟩ | ⟨k, hk, -⟩ := step_cases h
  · exact .inl (acts_others (s := { s with inbox := inbox, rotor := rotor }) ha)
  · cases ho with
    | nothing => exact .inl rfl
    | @block d u hd hp hu => exact .inr ⟨hl, hs, k, d, u, hd, hp, (step_turn_eq_blockTurn _).trans hu, rfl⟩
  · exact .inl (by simp)
  · exact absurd ha (hbuild a)
  · exact absurd hk (hselect k)

end Sys2Proof.Machine
end
